-- ==== Sys2Proof/Word.lean ====
section
/-! DEFINITION. The three word types of the block: a byte, a register value, a binary64 pattern. -/

namespace Sys2Proof

/-- One byte of a buffer or of an output stream. -/
abbrev Byte := BitVec 8

/-- One 32-bit register value or command word (00_scope.md R9). -/
abbrev Word := BitVec 32

/-- One IEEE 754 binary64 bit pattern (10_state.md R37). -/
abbrev B64 := BitVec 64

end Sys2Proof
end

