-- ==== Sys2Proof/Syntax.lean ====
section
/-! DEFINITION. The commands of the block: one constructor for each row of opcode_table.json. -/

namespace Sys2Proof

/-- A command of the engine (30_encoding.md R83, R84). No command carries an operand (R82); the
reserved command keeps its word, so that encoding gives the word back. -/
inductive Instr where
  /-- 0x00000000 (44_control.md R182). -/
  | nop
  /-- 0x00000001 (40_quantizer.md R105). -/
  | genSine
  /-- 0x00000002 (41_packer.md R125). -/
  | packData
  /-- 0x00000003 (44_control.md R183). -/
  | emit
  /-- 0x00000004 (41_packer.md R126). -/
  | clearIn
  /-- 0x00000005 (43_mif.md R161). -/
  | clearCm
  /-- 0x00000006 (44_control.md R184). -/
  | softReset
  /-- Every other word (44_control.md R186). -/
  | reserved (w : Word)
deriving DecidableEq, Repr

end Sys2Proof
end

