-- ==== Sys2Proof/WellFormed.lean ====
section
/-! DEFINITION. Which terms of `Instr` stand for a command word. -/

namespace Sys2Proof

/-- A reserved command's word is none of the seven command words of 30_encoding.md R83. -/
def Instr.wf : Instr → Bool
  | .nop => true
  | .genSine => true
  | .packData => true
  | .emit => true
  | .clearIn => true
  | .clearCm => true
  | .softReset => true
  | .reserved w => decide (6 < w.toNat)

end Sys2Proof
end

