-- ==== Sys2Proof/Decode.lean ====
section
/-! DEFINITION. Decoding of command words (30_encoding.md R80 to R84), and the encoder. -/

namespace Sys2Proof

/-- The OP field, bits 3:0 of a command word (30_encoding.md R80). -/
def opField (w : Word) : BitVec 4 := w.extractLsb' 0 4

/-- The RSV field, bits 31:4 of a command word (30_encoding.md R80). -/
def rsvField (w : Word) : BitVec 28 := w.extractLsb' 4 28

/-- The command a word selects (30_encoding.md R83, R84). Total: a word with RSV ≠ 0 or with OP in
0x7..0xF is the reserved command. -/
def decode (w : Word) : Instr :=
  if rsvField w = 0 then
    match (opField w).toNat with
    | 0 => .nop
    | 1 => .genSine
    | 2 => .packData
    | 3 => .emit
    | 4 => .clearIn
    | 5 => .clearCm
    | 6 => .softReset
    | _ => .reserved w
  else .reserved w

/-- Why a string of bits is not read as a command. -/
inductive DecodeError where
  /-- The bits are not one 32-bit command word: there is no shorter and no longer form
  (30_encoding.md R81). -/
  | notOneCommandWord (nbits : Nat)
deriving DecidableEq, Repr

/-- Reads `nbits` bits `w`, the first being bit 0, as one command word: 32 bits exactly
(30_encoding.md R81). -/
def decodeBits (nbits w : Nat) : Except DecodeError Instr :=
  if nbits = 32 ∧ w < 2 ^ 32 then .ok (decode (BitVec.ofNat 32 w))
  else .error (.notOneCommandWord nbits)

/-- The instruction the decoder reads from an opcode-table row's bits; none where it rejects. -/
def decodeTableWord (nbits w : Nat) : Option Instr :=
  match decodeBits nbits w with
  | .ok i => some i
  | .error _ => none

/-- The command word of a command (30_encoding.md R83). -/
def encode : Instr → Word
  | .nop => 0x00000000
  | .genSine => 0x00000001
  | .packData => 0x00000002
  | .emit => 0x00000003
  | .clearIn => 0x00000004
  | .clearCm => 0x00000005
  | .softReset => 0x00000006
  | .reserved w => w

end Sys2Proof
end

