-- ==== Sys2Proof/Config.lean ====
section
/-! DEFINITION. The OPEN parameters of 00_scope.md R8, and the one byte the host's notation leaves open
(log 23): constants with no body, each built so that exactly the values the spec admits can occur.
Nothing in Lean can evaluate them. -/

namespace Sys2Proof

/-- The arithmetic the quantizer evaluates in (40_quantizer.md R102). -/
inductive QArith where
  /-- IEEE 754 binary64, the spec's default. -/
  | b64
  /-- Exact real arithmetic. -/
  | real
deriving DecidableEq, Repr, Inhabited

namespace Config

/-- BASE divided by 0x100: uninterpreted. -/
opaque baseIndex : Nat

/-- BASE, the byte address of the register window: a multiple of 0x100 (R8). -/
def base : Nat := 0x100 * baseIndex

/-- IN_CAP less one: uninterpreted. -/
opaque inCapLessOne : Fin 4294967295

/-- SEQ_CAP less one: uninterpreted. -/
opaque seqCapLessOne : Fin 4294967295

/-- OUT_CAP less one: uninterpreted. -/
opaque outCapLessOne : Fin 4294967295

/-- IN_CAP, in 1..2^32-1 (R8). -/
def inCap : Word := BitVec.ofNat 32 (inCapLessOne.val + 1)

/-- CM_CAP, in 0..2^32-1 (R8): uninterpreted. -/
opaque cmCap : Word

/-- SEQ_CAP, in 1..2^32-1 (R8). -/
def seqCap : Word := BitVec.ofNat 32 (seqCapLessOne.val + 1)

/-- OUT_CAP, in 1..2^32-1 (R8). -/
def outCap : Word := BitVec.ofNat 32 (outCapLessOne.val + 1)

/-- QARITH of the block that comes out of reset (R8): uninterpreted. -/
opaque qarith : QArith

/-- The values SIN64 would take if it were not bound by 40_quantizer.md R103: uninterpreted. The
model reads it only through `Sys2Proof.Machine.sin64`, which enforces R103. -/
opaque sin64Raw : B64 → B64

/-- The byte that `puts` writes for a character above U+007F: a free value. Such a character has no
ASCII byte, so 00_scope.md R10 and 30_encoding.md R87 give it none (log 23, DESIGN CHOICE). The model
reads it only through `Sys2Proof.Machine.asciiByte`. -/
opaque nonAsciiByte : Char → Byte

end Config

end Sys2Proof
end

