-- ==== Sys2Proof/Machine/State.lean ====
section
/-! DEFINITION. The state of the block and of the world around it, and the state after reset. -/

namespace Sys2Proof.Machine

/-- The result codes of STATUS.ERR (60_exceptions.md R200). Codes 8 to 15 are never produced. -/
inductive ErrCode where
  /-- 0: the last command succeeded. -/
  | none
  /-- 1: CTRL.WIDTH not in [1, 32] (R201). -/
  | width
  /-- 2: LENGTH = 0 (R202). -/
  | length
  /-- 3: IN_LEN is not a multiple of the word byte count (R203). -/
  | mismatch
  /-- 4: a sample is not finite or not in the 64-bit range (R204). -/
  | range
  /-- 5: a buffer capacity would be exceeded, or input bytes were dropped (R205). -/
  | capacity
  /-- 6: the command word is reserved (R206). -/
  | badCmd
  /-- 7: EMIT with no valid sequence (R207). -/
  | noSeq
deriving DecidableEq, Repr

/-- Why a host access breaks the protocol (20_memory.md R64). -/
inductive HostFaultReason where
  /-- Not a 4-byte access at a 4-byte-aligned address of the window (R63, R64 case 1). -/
  | misaligned
  /-- An access other than a read of STATUS while STATUS.BUSY = 1 (R64 case 2), or after a CMD write
  and before a read of STATUS has shown BUSY = 0 (70_reset_and_hazards.md R235; log 16, DEDUCED). -/
  | busy
deriving DecidableEq, Repr

/-- Machine faults: none. A command error is a result code and never stops the block
(60_exceptions.md R210, R214; log 9, DEDUCED). -/
inductive Fault where
deriving DecidableEq, Repr

/-- Why the model gives a step no meaning. -/
inductive Refusal where
  /-- Raised by `exec` alone, for a command without a meaning; no arm raises it. Safe: the model
  stops where the block goes on. -/
  | notModelled (mnemonic : String)
  /-- Raised by a host access that breaks the protocol of 20_memory.md R64 and
  70_reset_and_hazards.md R235. Safe: the spec says the model refuses such an access and assumes
  nothing of what a block does with it. -/
  | hostFault (reason : HostFaultReason)
deriving DecidableEq, Repr

/-- One host access to the bus (20_memory.md R61, R62): a byte address, a size in bytes, and the
value of a write. -/
inductive Access where
  /-- `MemRead(addr, size)`. -/
  | read (addr size : Nat)
  /-- `MemWrite(addr, size, v)`. -/
  | write (addr size : Nat) (v : Word)
deriving DecidableEq, Repr

/-- What the outside world does next. -/
inductive Input where
  /-- One host access. -/
  | access (a : Access)
  /-- The pseudo-instruction `poll` (30_encoding.md R87): read STATUS until BUSY = 0. -/
  | poll
  /-- The pseudo-instruction `drain` (30_encoding.md R87): read OUT_DATA until VALID = 0. -/
  | drain
  /-- Hardware reset (70_reset_and_hazards.md R230). -/
  | hardReset
deriving DecidableEq, Repr

/-- The architectural state of 10_state.md R20, the OPEN parameters of 00_scope.md R8 that this
instance of the block has, and the outside world. INVENTORY.md lists every field with its rule. -/
structure State where
  /-- CTRL.WIDTH (R31). -/
  width : BitVec 6
  /-- CTRL.SIGNED (R32). -/
  signed : Bool
  /-- CTRL.MIF (R33). -/
  mif : Bool
  /-- CTRL.AMP_EN (R34). -/
  ampEn : Bool
  /-- LENGTH (R35). -/
  lengthReg : Word
  /-- AMPLITUDE (R36). -/
  amplitudeReg : Word
  /-- OFFSET_LO (R37). -/
  offsetLo : Word
  /-- OFFSET_HI (R37). -/
  offsetHi : Word
  /-- PEND (R51); STATUS.BUSY = 1 exactly when it is not empty. -/
  pend : Option Word
  /-- STATUS.ERR (R39). -/
  err : ErrCode
  /-- STATUS.STICKY (R39). -/
  sticky : Bool
  /-- STATUS.SEQ_VALID (R39). -/
  seqValid : Bool
  /-- STATUS.SEQ_SINE (R39). -/
  seqSine : Bool
  /-- STATUS.SEQ_WIDTH (R39). -/
  seqWidth : BitVec 6
  /-- STATUS.IN_OVF (R39). -/
  inOvf : Bool
  /-- STATUS.CM_OVF (R39). -/
  cmOvf : Bool
  /-- IN (R40); IN_LEN is its length. -/
  inBuf : List Byte
  /-- CM (R43); CM_LEN is its length. -/
  cmBuf : List Byte
  /-- SEQ (R45); SEQ_LEN is its length. -/
  seq : List Int
  /-- OUT (R47); OUT_LEN is its length. -/
  out : List Byte
  /-- OUT_RP (R47). -/
  outRp : Nat
  /-- IN_CAP_R (R50). -/
  inCapR : Word
  /-- CM_CAP_R (R50). -/
  cmCapR : Word
  /-- SEQ_CAP_R (R50). -/
  seqCapR : Word
  /-- OUT_CAP_R (R50). -/
  outCapR : Word
  /-- BASE (00_scope.md R8). The model's own field: a constant of the instance (log 4,
  DESIGN CHOICE). -/
  base : Nat
  /-- QARITH (00_scope.md R8). The model's own field: a constant of the instance (log 6,
  DESIGN CHOICE). -/
  qarith : QArith
  /-- The arguments and values of SIN64 that are known of this instance. The model's own field: a
  constant of the instance (log 7, DESIGN CHOICE). -/
  sin64Known : List (B64 × B64)
  /-- What the outside world does from here on. The model's own field (log 2, DESIGN CHOICE). -/
  inputs : List Input
  /-- For each coming command, how many more inputs fall before its engine step. The model's own
  field (log 2, DESIGN CHOICE). -/
  latency : List Nat
  /-- How many more inputs fall before the pending command's engine step. The model's own field
  (log 2, DESIGN CHOICE). -/
  wait : Nat
  /-- The host has written CMD and no read of STATUS has shown BUSY = 0 since
  (70_reset_and_hazards.md R235). The model's own field (log 16, DEDUCED). -/
  awaitingIdle : Bool
  /-- The address and value of every read so far, oldest first. The model's own field (log 8,
  DESIGN CHOICE). -/
  reads : List (Nat × Word)
deriving DecidableEq, Repr

/-- The block after reset (10_state.md R53): everything 0 and empty, the parameters at the values
the implementation gave them, and an outside world that does nothing. -/
def State.reset : State where
  width := 0
  signed := false
  mif := false
  ampEn := false
  lengthReg := 0
  amplitudeReg := 0
  offsetLo := 0
  offsetHi := 0
  pend := Option.none
  err := .none
  sticky := false
  seqValid := false
  seqSine := false
  seqWidth := 0
  inOvf := false
  cmOvf := false
  inBuf := []
  cmBuf := []
  seq := []
  out := []
  outRp := 0
  inCapR := Config.inCap
  cmCapR := Config.cmCap
  seqCapR := Config.seqCap
  outCapR := Config.outCap
  base := Config.base
  qarith := Config.qarith
  sin64Known := []
  inputs := []
  latency := []
  wait := 0
  awaitingIdle := false
  reads := []

end Sys2Proof.Machine
end

