-- ==== Sys2Proof/Machine/Operands.lean ====
section
/-! DEFINITION. The operands the commands read from the configuration registers (30_encoding.md
R82), the named registers of the window, the bytes of text,
and the packing of CTRL. -/

namespace Sys2Proof.Machine

/-! ### Operands -/

/-- `sext_32(v)`: the pattern read as two's complement (00_scope.md R9). -/
def sext32 (v : Word) : Int := v.toInt

/-- The legality of a width: W in [1, 32] (00_scope.md R6). -/
def widthLegal (w : BitVec 6) : Bool := decide (1 ≤ w.toNat ∧ w.toNat ≤ 32)

/-- `wb(W) = ceil(W/8)`, the word byte count (00_scope.md R7). -/
def wordBytes (w : Nat) : Nat := (w + 7) / 8

/-- `amp = sext_32(AMPLITUDE)` (10_state.md R36). -/
def State.amplitude (s : State) : Int := sext32 s.amplitudeReg

/-- `binary64(OFFSET_HI ++ OFFSET_LO)` (10_state.md R37). -/
def State.offset (s : State) : B64 := s.offsetHi ++ s.offsetLo

/-- `Scale(W, amp_en, amp)` (40_quantizer.md R101), exact: no wrap at W = 32. -/
def scaleOf (w : Nat) (ampEn : Bool) (amp : Int) : Int :=
  if ampEn then 2 * amp else 2 ^ w - 2

/-- `u32(v)`: v mod 2^32 (00_scope.md R9). -/
def u32 (n : Nat) : Word := BitVec.ofNat 32 n

/-! ### Text -/

/-- The byte of one character (00_scope.md R10): its ASCII code, up to U+007F. DESIGN CHOICE (log 23):
a character above U+007F has no ASCII byte and the spec says nothing of it; the model gives it one
byte too, whose value is free. -/
def asciiByte (c : Char) : Byte :=
  if c.toNat < 128 then BitVec.ofNat 8 c.toNat else Config.nonAsciiByte c

/-- The bytes of the characters shown (00_scope.md R10), one for each, in order. Every text of the
block's own is ASCII; only the text of a `puts` can hold a character above U+007F (log 23). -/
def ascii (cs : List Char) : List Byte := cs.map asciiByte

/-! ### CTRL -/

/-- What a read of CTRL returns (10_state.md R30): the stored fields, zeros elsewhere. -/
def State.ctrlWord (s : State) : Word :=
  0#21 ++ BitVec.ofBool s.ampEn ++ BitVec.ofBool s.mif ++ BitVec.ofBool s.signed ++ 0#2 ++ s.width

/-- A write of CTRL (10_state.md R30): bits 5:0, 8, 9 and 10 are stored, the rest is dropped. -/
def State.writeCtrl (s : State) (v : Word) : State :=
  { s with
    width := v.extractLsb' 0 6, signed := v.getLsbD 8, mif := v.getLsbD 9, ampEn := v.getLsbD 10 }

/-- A write of LENGTH (10_state.md R35). -/
def State.writeLength (s : State) (v : Word) : State := { s with lengthReg := v }

/-- A write of AMPLITUDE (10_state.md R36). -/
def State.writeAmplitude (s : State) (v : Word) : State := { s with amplitudeReg := v }

/-- A write of OFFSET_LO (10_state.md R37). -/
def State.writeOffsetLo (s : State) (v : Word) : State := { s with offsetLo := v }

/-- A write of OFFSET_HI (10_state.md R37). -/
def State.writeOffsetHi (s : State) (v : Word) : State := { s with offsetHi := v }

/-! ### The register window -/

/-- The registers of the window (10_state.md R23). -/
inductive Reg where
  | ctrl | length | amplitude | offsetLo | offsetHi | cmd | status | inData | inLen | cmData
  | cmLen | seqLen | outData | outAvail | outLen | inCapR | cmCapR | seqCapR | outCapR
deriving DecidableEq, Repr

/-- `off(REG)`: a register's byte offset in the window (10_state.md R23). -/
def regOffset : Reg → Nat
  | .ctrl => 0x00
  | .length => 0x04
  | .amplitude => 0x08
  | .offsetLo => 0x0C
  | .offsetHi => 0x10
  | .cmd => 0x14
  | .status => 0x18
  | .inData => 0x1C
  | .inLen => 0x20
  | .cmData => 0x24
  | .cmLen => 0x28
  | .seqLen => 0x2C
  | .outData => 0x30
  | .outAvail => 0x34
  | .outLen => 0x38
  | .inCapR => 0x3C
  | .cmCapR => 0x40
  | .seqCapR => 0x44
  | .outCapR => 0x48

/-- The register at a byte offset; none at a reserved offset (10_state.md R23, R24). -/
def regAt (off : Nat) : Option Reg :=
  match off with
  | 0x00 => some .ctrl
  | 0x04 => some .length
  | 0x08 => some .amplitude
  | 0x0C => some .offsetLo
  | 0x10 => some .offsetHi
  | 0x14 => some .cmd
  | 0x18 => some .status
  | 0x1C => some .inData
  | 0x20 => some .inLen
  | 0x24 => some .cmData
  | 0x28 => some .cmLen
  | 0x2C => some .seqLen
  | 0x30 => some .outData
  | 0x34 => some .outAvail
  | 0x38 => some .outLen
  | 0x3C => some .inCapR
  | 0x40 => some .cmCapR
  | 0x44 => some .seqCapR
  | 0x48 => some .outCapR
  | _ => Option.none

end Sys2Proof.Machine
end

