-- ==== Sys2Proof/Machine/Ops.lean ====
section
/-! DEFINITION. The named operations on the state that the commands and the host accesses share. -/

namespace Sys2Proof.Machine

/-- The three outcomes of a step of this machine. -/
abbrev Result := Host.Outcome State Fault Refusal

/-! ### How a command ends -/

/-- Error entry (60_exceptions.md R210): ERR takes the code, STICKY becomes 1, nothing else changes.
There is no vector, no saved state and no return (R214). -/
def State.raiseError (s : State) (c : ErrCode) : State :=
  { s with err := c, sticky := true }

/-- Success (60_exceptions.md R211): ERR becomes E_NONE, STICKY keeps its value. -/
def State.succeed (s : State) : State :=
  { s with err := .none }

/-- `Execute(c)` has an outcome (44_control.md R180): a state to end in, or an error to enter. -/
def finish (s : State) (outcome : Except ErrCode State) : Result :=
  match outcome with
  | .ok t => .next t.succeed
  | .error c => .next (s.raiseError c)

/-- The engine step's last act (44_control.md R180): PEND is emptied, which clears BUSY. -/
def State.retire (s : State) : State :=
  { s with pend := Option.none }

/-! ### Buffers -/

/-- Replaces SEQ and the SEQ_* fields together (10_state.md R45). -/
def State.storeSeq (s : State) (samples : List Int) (sine : Bool) (w : BitVec 6) : State :=
  { s with seq := samples, seqValid := true, seqSine := sine, seqWidth := w }

/-- Replaces OUT and sets OUT_RP to 0 (10_state.md R47). -/
def State.storeOut (s : State) (doc : List Byte) : State :=
  { s with out := doc, outRp := 0 }

/-- IN and IN_OVF are emptied (41_packer.md R126). -/
def State.emptyIn (s : State) : State :=
  { s with inBuf := [], inOvf := false }

/-- CM and CM_OVF are emptied (43_mif.md R161). -/
def State.emptyCm (s : State) : State :=
  { s with cmBuf := [], cmOvf := false }

/-- A write of IN_DATA (20_memory.md R65): the byte is appended, or dropped with IN_OVF set. -/
def State.appendIn (s : State) (b : Byte) : State :=
  if s.inBuf.length < s.inCapR.toNat then { s with inBuf := s.inBuf ++ [b] }
  else { s with inOvf := true }

/-- A write of CM_DATA (20_memory.md R67): the byte is appended, or dropped with CM_OVF set. -/
def State.appendCm (s : State) (b : Byte) : State :=
  if s.cmBuf.length < s.cmCapR.toNat then { s with cmBuf := s.cmBuf ++ [b] }
  else { s with cmOvf := true }

/-- The side effect of a read of OUT_DATA (20_memory.md R66). -/
def State.popOut (s : State) : State :=
  { s with outRp := if s.outRp < s.out.length then s.outRp + 1 else s.outRp }

/-! ### Reset -/

/-- Every entry of 10_state.md R53 at its reset value. The capacity registers, the other parameters
and the outside world keep theirs (R50; 44_control.md R184; log 17, DEDUCED). -/
def State.toReset (s : State) : State :=
  { State.reset with
    inCapR := s.inCapR, cmCapR := s.cmCapR, seqCapR := s.seqCapR, outCapR := s.outCapR,
    base := s.base, qarith := s.qarith, sin64Known := s.sin64Known,
    inputs := s.inputs, latency := s.latency, wait := s.wait, awaitingIdle := s.awaitingIdle,
    reads := s.reads }

/-! ### Issuing commands, and the outside world -/

/-- A write of CMD with BUSY = 0 (20_memory.md R68): PEND takes the word, and the host must now wait
for BUSY = 0 (70_reset_and_hazards.md R235; log 16, DEDUCED). When the engine step will come
is taken from the outside world's schedule (70_reset_and_hazards.md R242; log 2, DESIGN CHOICE). -/
def State.issue (s : State) (v : Word) : State :=
  { s with
    pend := some v, wait := s.latency.headD 0, latency := s.latency.tail, awaitingIdle := true }

/-- A read of STATUS has shown BUSY = 0 (70_reset_and_hazards.md R235; log 16, DEDUCED). -/
def State.seeIdle (s : State) : State :=
  { s with awaitingIdle := false }

/-- Hardware reset (70_reset_and_hazards.md R230, R231): everything as after reset. No command is
left for the host to wait for (log 16, DEDUCED). -/
def State.hardReset (s : State) : State := s.toReset.seeIdle

/-- The host has read `v` at address `addr` (log 8, DESIGN CHOICE). -/
def State.noteRead (s : State) (addr : Nat) (v : Word) : State :=
  { s with reads := s.reads ++ [(addr, v)] }

/-- The first input has taken place. -/
def State.dropInput (s : State) : State :=
  { s with inputs := s.inputs.tail }

/-- One of the inputs that fall before the pending command's engine step has taken place. -/
def State.countDown (s : State) : State :=
  { s with wait := s.wait - 1 }

end Sys2Proof.Machine
end

