-- ==== Sys2Proof/Machine/Mif.lean ====
section
/-! DEFINITION. The MIF text formatter and CLEAR_CM (43_mif.md). Text is ASCII bytes and every line
ends with the byte 0x0A (log 14, DEDUCED). -/

namespace Sys2Proof.Machine

/-- `\n` (00_scope.md R10). -/
def newline : List Byte := [0x0A]

/-! ### Number rendering -/

/-- The loop of `IntToBinary` (43_mif.md R150): w more digits of x are put before str. -/
def binaryLoop : Nat → Int → List Byte → List Byte
  | 0, _, str => str
  | w + 1, x, str => binaryLoop w (x / 2) ((if x % 2 = 1 then 0x31 else 0x30) :: str)

/-- `IntToBinary(v, W)` (43_mif.md R150). -/
def intToBinary (v : Int) (w : Nat) : List Byte := binaryLoop w v []

/-- The decimal digits of n, most significant first, at most `fuel` of them. -/
def decDigits : Nat → Nat → List Byte
  | 0, _ => []
  | fuel + 1, n =>
    (if n < 10 then [] else decDigits fuel (n / 10)) ++ [BitVec.ofNat 8 (0x30 + n % 10)]

/-- `Dec(n)` for n ≥ 0 (43_mif.md R151): n has at most log2 n + 1 decimal digits. -/
def decNat (n : Nat) : List Byte := decDigits (Nat.log2 n + 1) n

/-- `Dec(n)` (43_mif.md R151). -/
def decInt (n : Int) : List Byte :=
  if n < 0 then ascii ['-'] ++ decNat n.natAbs else decNat n.natAbs

/-! ### The document -/

/-- The header (43_mif.md R153). -/
def mifHeader (cm : List Byte) : List Byte := ascii ['-', '-', ' '] ++ cm ++ newline ++ newline

/-- The declarations (43_mif.md R154). -/
def mifDeclarations (d w : Nat) : List Byte :=
  ascii ['D', 'E', 'P', 'T', 'H', ' ', '=', ' '] ++ decNat d ++ ascii [';'] ++ newline
    ++ ascii ['W', 'I', 'D', 'T', 'H', ' ', '=', ' '] ++ decNat w ++ ascii [';'] ++ newline
    ++ ascii ['A', 'D', 'D', 'R', 'E', 'S', 'S', '_', 'R', 'A', 'D', 'I', 'X', ' ', '=', ' ',
        'D', 'E', 'C', ';'] ++ newline
    ++ ascii ['D', 'A', 'T', 'A', '_', 'R', 'A', 'D', 'I', 'X', ' ', '=', ' ',
        'B', 'I', 'N', ';'] ++ newline
    ++ newline

/-- The content opener (43_mif.md R155). -/
def mifOpener : List Byte :=
  ascii ['C', 'O', 'N', 'T', 'E', 'N', 'T'] ++ newline
    ++ ascii ['B', 'E', 'G', 'I', 'N'] ++ newline ++ newline

/-- The whitespace and marker before the raw sample: 7 spaces, `--`, 1 space (43_mif.md R157). -/
def trailMarker : List Byte := ascii [' ', ' ', ' ', ' ', ' ', ' ', ' ', '-', '-', ' ']

/-- `Trail(a)` (43_mif.md R157): the raw sample in sine mode, nothing in data mode. -/
def mifTrail (sine : Bool) (v : Int) : List Byte :=
  if sine then trailMarker ++ decInt v else []

/-- The data line for an address and its element (43_mif.md R156). -/
def mifLine (w : Nat) (sine : Bool) (v : Int) (a : Nat) : List Byte :=
  decNat a ++ ascii [' ', ':', ' '] ++ intToBinary v w ++ ascii [';'] ++ mifTrail sine v ++ newline

/-- The data lines from address a on (43_mif.md R152). -/
def mifLines (w : Nat) (sine : Bool) : Nat → List Int → List Byte
  | _, [] => []
  | a, v :: rest => mifLine w sine v a ++ mifLines w sine (a + 1) rest

/-- The terminator (43_mif.md R158). -/
def mifTerminator : List Byte := ascii ['E', 'N', 'D', ';'] ++ newline

/-- `MifDocument(SEQ, D, W, sine, CM)` (43_mif.md R152), D being the length of SEQ (R159). -/
def mifDocument (seq : List Int) (w : Nat) (sine : Bool) (cm : List Byte) : List Byte :=
  mifHeader cm ++ mifDeclarations seq.length w ++ mifOpener ++ mifLines w sine 0 seq
    ++ mifTerminator

/-! ### CLEAR_CM -/

/-- CLEAR_CM (43_mif.md R161). -/
def execClearCm (s : State) : Result := finish s (.ok s.emptyCm)

end Sys2Proof.Machine
end

