-- ==== Sys2Proof/Machine/Serializer.lean ====
section
/-! DEFINITION. The big-endian byte serializer (42_serializer.md). -/

namespace Sys2Proof.Machine

/-- `Mask(w, W) = w mod 2^W` (42_serializer.md R140). -/
def maskWord (v : Int) (w : Nat) : Nat := (v % 2 ^ w).toNat

/-- `SerializeWord(w, W)` (42_serializer.md R141): the masked word, most significant byte first. -/
def serializeWord (w : Nat) (v : Int) : List Byte :=
  (List.range (wordBytes w)).map fun j =>
    BitVec.ofNat 8 ((maskWord v w >>> ((wordBytes w - j - 1) * 8)) &&& 0xFF)

/-- `BinDocument(SEQ, D, W)` (42_serializer.md R142). -/
def binDocument (seq : List Int) (w : Nat) : List Byte := seq.flatMap (serializeWord w)

end Sys2Proof.Machine
end

