-- ==== Sys2Proof/Machine/Control.lean ====
section
/-! DEFINITION. NOP, EMIT, SOFT_RESET and the reserved command (44_control.md). -/

namespace Sys2Proof.Machine

/-- NOP (44_control.md R182). -/
def execNop (s : State) : Result := finish s (.ok s)

/-- The document EMIT writes (44_control.md R183): MIF text or raw bytes, by CTRL.MIF. The width is
the one recorded with the sequence. -/
def State.document (s : State) : List Byte :=
  if s.mif then mifDocument s.seq s.seqWidth.toNat s.seqSine s.cmBuf
  else binDocument s.seq s.seqWidth.toNat

/-- The outcome of EMIT, checks in the order of 60_exceptions.md R212. -/
def emit (s : State) : Except ErrCode State :=
  if !s.seqValid then .error .noSeq
  else if s.mif && s.cmOvf then .error .capacity
  else if s.outCapR.toNat < s.document.length then .error .capacity
  else .ok (s.storeOut s.document)

/-- EMIT (44_control.md R183). -/
def execEmit (s : State) : Result := finish s (emit s)

/-- SOFT_RESET (44_control.md R184). -/
def execSoftReset (s : State) : Result := finish s (.ok s.toReset)

/-- The reserved command (44_control.md R186), whatever its word. -/
def execReserved (_w : Word) (s : State) : Result := finish s (.error .badCmd)

end Sys2Proof.Machine
end

