-- ==== Sys2Proof/Machine/Packer.lean ====
section
/-! DEFINITION. The big-endian word packer, PACK_DATA and CLEAR_IN (41_packer.md). -/

namespace Sys2Proof.Machine

/-- Word k of `PackWords` (41_packer.md R120): `word <- (word << 8) | B[k*wb + j]` for j upward. -/
def packWord (bytes : List Byte) (wb k : Nat) : Nat :=
  (List.range wb).foldl (fun word j => word <<< 8 ||| (bytes.getD (k * wb + j) 0).toNat) 0

/-- `PackWords(B, wb)` (41_packer.md R120). Words are unsigned (R123). -/
def packWords (bytes : List Byte) (wb : Nat) : List Int :=
  (List.range (bytes.length / wb)).map fun k => (packWord bytes wb k : Int)

/-- The outcome of PACK_DATA, checks in the order of 60_exceptions.md R212. -/
def packData (s : State) : Except ErrCode State :=
  if !widthLegal s.width then .error .width
  else if s.inOvf then .error .capacity
  else if s.inBuf.length % wordBytes s.width.toNat ≠ 0 then .error .mismatch
  else if s.seqCapR.toNat < s.inBuf.length / wordBytes s.width.toNat then .error .capacity
  else .ok (s.storeSeq (packWords s.inBuf (wordBytes s.width.toNat)) false s.width)

/-- PACK_DATA (41_packer.md R125). -/
def execPackData (s : State) : Result := finish s (packData s)

/-- CLEAR_IN (41_packer.md R126). -/
def execClearIn (s : State) : Result := finish s (.ok s.emptyIn)

end Sys2Proof.Machine
end

