-- ==== Sys2Proof/Machine/Float64.lean ====
section
/-! DEFINITION. IEEE 754 binary64 arithmetic with round to nearest, ties to even, as
40_quantizer.md R102 uses it (log 12, PRESUMED). A finite magnitude is held as a whole number of units of
2^-1074, the smallest positive binary64 number, so every value here is an exact integer. -/

namespace Sys2Proof.Machine

/-- 1.0 in units of 2^-1074. -/
def f64One : Nat := 2 ^ 1074

/-- The magnitude bits of +∞; every smaller number of magnitude bits is finite, every larger one is
a NaN. -/
def f64InfBits : Nat := 0x7FF0000000000000

/-- Bits 62:0, the exponent and fraction fields as one number. -/
def f64MagBits (x : B64) : Nat := x.toNat % 2 ^ 63

/-- Bit 63, the sign. -/
def f64Neg (x : B64) : Bool := decide (2 ^ 63 ≤ x.toNat)

def f64IsNaN (x : B64) : Bool := decide (f64InfBits < f64MagBits x)

def f64IsInf (x : B64) : Bool := decide (f64MagBits x = f64InfBits)

def f64IsFinite (x : B64) : Bool := decide (f64MagBits x < f64InfBits)

/-- The value of finite magnitude bits in units of 2^-1074: a subnormal is its fraction, a normal
number has the hidden bit and is scaled by its exponent. -/
def magUnits (m : Nat) : Nat :=
  if m / 2 ^ 52 = 0 then m else (2 ^ 52 + m % 2 ^ 52) * 2 ^ (m / 2 ^ 52 - 1)

/-- The value of a finite binary64 number in units of 2^-1074. -/
def f64Int (x : B64) : Int :=
  if f64Neg x then -(magUnits (f64MagBits x) : Int) else magUnits (f64MagBits x)

/-- A sign and magnitude bits as a pattern. -/
def f64Pack (neg : Bool) (mag : Nat) : B64 :=
  BitVec.ofNat 64 ((if neg then 2 ^ 63 else 0) + mag)

/-- The one NaN the model produces. No rule lets a program see a NaN's payload. -/
def f64NaN : B64 := 0x7FF8000000000000

/-- The magnitude bits nearest to `num / den` units, ties to even, infinite on overflow. The step
between neighbours around the value is 2^t units. -/
def roundMag (num den : Nat) : Nat :=
  let t := Nat.log2 (num / den) - 52
  let d := den * 2 ^ t
  let n := num / d
  let r := num % d
  let up := if d < 2 * r ∨ (2 * r = d ∧ n % 2 = 1) then 1 else 0
  min (t * 2 ^ 52 + n + up) f64InfBits

/-- `b64(n)`: an integer converted to binary64. -/
def f64OfInt (n : Int) : B64 :=
  f64Pack (decide (n < 0)) (roundMag (n.natAbs * f64One) 1)

/-- `x ⊗ y`. -/
def f64Mul (x y : B64) : B64 :=
  let neg := f64Neg x != f64Neg y
  if f64IsNaN x || f64IsNaN y then f64NaN
  else if f64IsInf x || f64IsInf y then
    if f64MagBits x = 0 ∨ f64MagBits y = 0 then f64NaN else f64Pack neg f64InfBits
  else f64Pack neg (roundMag (magUnits (f64MagBits x) * magUnits (f64MagBits y)) f64One)

/-- `x ⊘ y`. -/
def f64Div (x y : B64) : B64 :=
  let neg := f64Neg x != f64Neg y
  if f64IsNaN x || f64IsNaN y then f64NaN
  else if f64IsInf x then
    if f64IsInf y then f64NaN else f64Pack neg f64InfBits
  else if f64IsInf y then f64Pack neg 0
  else if f64MagBits y = 0 then
    if f64MagBits x = 0 then f64NaN else f64Pack neg f64InfBits
  else f64Pack neg (roundMag (magUnits (f64MagBits x) * f64One) (magUnits (f64MagBits y)))

/-- `x ⊕ y`. An exact sum of 0 is -0.0 when both terms are negative zeros, else +0.0. -/
def f64Add (x y : B64) : B64 :=
  if f64IsNaN x || f64IsNaN y then f64NaN
  else if f64IsInf x then
    if f64IsInf y && f64Neg x != f64Neg y then f64NaN else f64Pack (f64Neg x) f64InfBits
  else if f64IsInf y then f64Pack (f64Neg y) f64InfBits
  else
    let z := f64Int x + f64Int y
    if z = 0 then f64Pack (f64Neg x && f64Neg y) 0
    else f64Pack (decide (z < 0)) (roundMag z.natAbs 1)

/-- `floor(x)` of a finite binary64 number, an exact integer: `/` rounds down, as the divisor is
positive. -/
def f64Floor (x : B64) : Int := f64Int x / (f64One : Int)

end Sys2Proof.Machine
end

