-- ==== Sys2Proof/Machine/RealSine.lean ====
section
/-! DEFINITION. The floor of `sin(2πi/L)·S/2 + c`, for integers and a rational c, decided exactly
with integer arithmetic (log 15, DEDUCED): the arithmetic of QARITH = REAL (40_quantizer.md R102).

With cos φ = a/b, the numbers b^(j-1)·sin(jφ)/sin φ are integers that obey a two-term recurrence.
Their signs tell how many half turns jφ has made, so they compare φ with any rational part of π. -/

namespace Sys2Proof.Machine

/-- From (V_j, V_(j+1), h_j) to (V_(j+1), V_(j+2), h_(j+1)), where V_j = b^(j-1)·sin(jφ)/sin φ and
h_j is the whole number of half turns in jφ. -/
def turnStep (a b : Int) (p : Int × Int × Nat) : Int × Int × Nat :=
  (p.2.1, 2 * a * p.2.1 - b * b * p.1,
    if 0 < (if p.2.2 % 2 = 0 then p.2.1 else -p.2.1) then p.2.2 else p.2.2 + 1)

/-- `turnStep` taken n times from V_0 = 0, V_1 = 1, h_0 = 0. -/
def turnState (a b : Int) : Nat → Int × Int × Nat
  | 0 => (0, 1, 0)
  | n + 1 => turnStep a b (turnState a b n)

/-- The whole part of n·arccos(a/b)/π, for -b < a < b. -/
def halfTurns (a b : Int) (n : Nat) : Nat := (turnState a b n).2.2

/-- Whether a/b ≤ cos(πk/n), for 0 < b and k ≤ n. -/
def cosGe (k n : Nat) (a b : Int) : Bool :=
  if b ≤ a then decide (a = b ∧ k = 0)
  else if a ≤ -b then true
  else decide (k ≤ halfTurns a b n)

/-- Whether a/b ≤ sin(2πi/L), for 0 < b and i ≤ L: sin(2πi/L) = cos(π(L - 4i)/(2L)), with the angle
brought into [0, π]. -/
def sinGe (i len : Nat) (a b : Int) : Bool :=
  let k := ((len : Int) - 4 * i).natAbs
  cosGe (if k ≤ 2 * len then k else 4 * len - k) (2 * len) a b

/-- The greatest n of [lo, lo + 2^t) with p n, for a p that holds at lo and is false above the
answer. -/
def searchUp (p : Int → Bool) : Nat → Int → Int
  | 0, lo => lo
  | t + 1, lo => searchUp p t (if p (lo + 2 ^ t) then lo + 2 ^ t else lo)

/-- The floor of sin(2πi/L)·S/2 + num/den, for 0 < den and i ≤ L. -/
def sineFloor (i len S : Nat) (num den : Int) : Int :=
  if S = 0 then num / den
  else searchUp (fun n => sinGe i len (2 * (n * den - num)) (den * S)) (Nat.log2 (S + 2) + 1)
    ((2 * num - den * S) / (2 * den))

end Sys2Proof.Machine
end

