-- ==== Sys2Proof/Machine/Quantizer.lean ====
section
/-! DEFINITION. The sine quantizer and GEN_SINE (40_quantizer.md). -/

namespace Sys2Proof.Machine

/-! ### SIN64 -/

/-- A binary64 value from -1 to 1: its magnitude bits are at most those of 1.0. -/
def inUnitRange (y : B64) : Bool := decide (f64MagBits y ≤ 0x3FF0000000000000)

/-- The function `f` bound by 40_quantizer.md R103: (a) +0.0 at +0.0, (b) in [-1, 1] at every finite
argument, where a value outside is replaced by +0.0. A function that meets R103 is left as it is. -/
def boundSine (f : B64 → B64) (x : B64) : B64 :=
  if x = 0 then 0
  else if f64IsFinite x && !inUnitRange (f x) then 0
  else f x

/-- The value paired with an argument in a list, or else the value of `f`. -/
def lookupSine (known : List (B64 × B64)) (f : B64 → B64) (x : B64) : B64 :=
  (known.lookup x).getD (f x)

/-- SIN64 of this instance (40_quantizer.md R103): the known values, elsewhere the uninterpreted
constant, all bound by R103 (log 7, DESIGN CHOICE). -/
def State.sin64 (s : State) : B64 → B64 :=
  boundSine (lookupSine s.sin64Known Config.sin64Raw)

/-! ### Quantize -/

/-- The range of one SEQ element: a signed 64-bit integer (10_state.md R45). -/
def sampleInRange (n : Int) : Bool := decide (-(2 ^ 63) ≤ n ∧ n ≤ 2 ^ 63 - 1)

/-- A sample that the range check of 40_quantizer.md R104 case 2 lets pass. -/
def checkSample (n : Int) : Option Int := if sampleInRange n then some n else Option.none

/-- TWO_PI (40_quantizer.md R102). -/
def twoPi : B64 := 0x401921FB54442D18

/-- 0.5. -/
def f64Half : B64 := 0x3FE0000000000000

/-- The integer bias: 0 signed, 1 unsigned (40_quantizer.md R100). -/
def sampleBias (sg : Bool) : Int := if sg then 0 else 1

/-- The product p of the quantizer in binary64 (40_quantizer.md R102, QARITH = B64). -/
def productB64 (sin : B64 → B64) (i len : Nat) (scale : Int) (off : B64) (sg : Bool) : B64 :=
  let phase := f64Div (f64Mul (f64OfInt i) twoPi) (f64OfInt len)
  let h := f64Mul f64Half (sin phase)
  let v := f64Add (f64Add h off) (if sg then 0 else f64Half)
  f64Mul v (f64OfInt scale)

/-- `Quantize` in binary64 (40_quantizer.md R102); none is E_RANGE (R104). -/
def quantizeB64 (sin : B64 → B64) (i len : Nat) (scale : Int) (off : B64) (sg : Bool) :
    Option Int :=
  let p := productB64 sin i len scale off sg
  if f64IsFinite p then checkSample (f64Floor p + sampleBias sg) else Option.none

/-- The sample of exact real arithmetic (40_quantizer.md R102, QARITH = REAL) for a finite offset. A
negative scale turns the wave over: -sin(2πi/L) = sin(2π(L-i)/L). -/
def sampleReal (i len : Nat) (scale : Int) (off : B64) (sg : Bool) : Int :=
  sineFloor (if scale < 0 then len - i else i) len scale.natAbs
    ((f64Int off + if sg then 0 else 2 ^ 1073) * scale) f64One + sampleBias sg

/-- `Quantize` in exact real arithmetic (40_quantizer.md R102); none is E_RANGE (R104). -/
def quantizeReal (i len : Nat) (scale : Int) (off : B64) (sg : Bool) : Option Int :=
  if f64IsFinite off then checkSample (sampleReal i len scale off sg) else Option.none

/-- `Quantize(i, L, scale, off, sg)` in the arithmetic QARITH selects (40_quantizer.md R100). -/
def quantize (q : QArith) (sin : B64 → B64) (i len : Nat) (scale : Int) (off : B64) (sg : Bool) :
    Option Int :=
  match q with
  | .b64 => quantizeB64 sin i len scale off sg
  | .real => quantizeReal i len scale off sg

/-- r[0], …, r[n-1]; none if some index fails (40_quantizer.md R105). -/
def samplesUpTo (r : Nat → Option Int) : Nat → Option (List Int)
  | 0 => some []
  | n + 1 =>
    match samplesUpTo r n, r n with
    | some l, some x => some (l ++ [x])
    | _, _ => Option.none

/-- The scale GEN_SINE uses (40_quantizer.md R101, R105). -/
def State.scale (s : State) : Int := scaleOf s.width.toNat s.ampEn s.amplitude

/-- The samples of GEN_SINE from the configuration registers (40_quantizer.md R105). -/
def State.sineSamples (s : State) : Option (List Int) :=
  samplesUpTo
    (fun i => quantize s.qarith s.sin64 i s.lengthReg.toNat s.scale s.offset s.signed)
    s.lengthReg.toNat

/-! ### GEN_SINE -/

/-- The outcome of GEN_SINE, checks in the order of 60_exceptions.md R212. -/
def genSine (s : State) : Except ErrCode State :=
  if !widthLegal s.width then .error .width
  else if s.lengthReg = 0 then .error .length
  else if s.seqCapR.toNat < s.lengthReg.toNat then .error .capacity
  else match s.sineSamples with
    | Option.none => .error .range
    | some r => .ok (s.storeSeq r true s.width)

/-- GEN_SINE (40_quantizer.md R105). -/
def execGenSine (s : State) : Result := finish s (genSine s)

end Sys2Proof.Machine
end

