-- ==== Sys2Proof/Machine/Dispatch.lean ====
section
/-! DEFINITION. Which meaning each command has: `Execute(c)` of 44_control.md R181, with the error
entry of R180. -/

namespace Sys2Proof.Machine

def exec (i : Instr) (s : State) : Host.Outcome State Fault Refusal :=
  match i with
  | .nop => Sys2Proof.Machine.execNop s
  | .genSine => Sys2Proof.Machine.execGenSine s
  | .packData => Sys2Proof.Machine.execPackData s
  | .emit => Sys2Proof.Machine.execEmit s
  | .clearIn => Sys2Proof.Machine.execClearIn s
  | .clearCm => Sys2Proof.Machine.execClearCm s
  | .softReset => Sys2Proof.Machine.execSoftReset s
  | .reserved w => Sys2Proof.Machine.execReserved w s

end Sys2Proof.Machine
end

