-- ==== Sys2Proof/Machine/Flags.lean ====
section
/-! DEFINITION. The STATUS register as one word (10_state.md R39). -/

namespace Sys2Proof.Machine

/-- The number of a result code (60_exceptions.md R200). -/
def errNumber : ErrCode → BitVec 4
  | .none => 0
  | .width => 1
  | .length => 2
  | .mismatch => 3
  | .range => 4
  | .capacity => 5
  | .badCmd => 6
  | .noSeq => 7

/-- STATUS.BUSY: 1 exactly when PEND is not empty (10_state.md R51). -/
def State.busy (s : State) : Bool := s.pend.isSome

/-- What a read of STATUS returns (10_state.md R39), fields from bit 31 down to bit 0. -/
def State.statusWord (s : State) : Word :=
  0#10 ++ s.seqWidth ++ 0#6 ++ BitVec.ofBool s.cmOvf ++ BitVec.ofBool s.inOvf
    ++ BitVec.ofBool s.seqSine ++ BitVec.ofBool s.seqValid ++ BitVec.ofBool s.busy
    ++ BitVec.ofBool s.sticky ++ errNumber s.err

end Sys2Proof.Machine
end

