-- ==== Sys2Proof/Machine/HostPort.lean ====
section
/-! DEFINITION. The host's side of the block: register accesses with their protocol (20_memory.md),
the host's notation (30_encoding.md R86, R87), and hardware reset (70_reset_and_hazards.md). -/

namespace Sys2Proof.Machine

/-! ### Register accesses -/

/-- OUT_DATA as read (10_state.md R48): the next byte with VALID in bit 8, or 0. -/
def State.outDataWord (s : State) : Word :=
  match s.out[s.outRp]? with
  | some b => b.setWidth 32 ||| (1 <<< 8 : Word)
  | Option.none => 0

/-- The value a read of a register returns (20_memory.md R62). -/
def State.regValue (s : State) : Reg → Word
  | .ctrl => s.ctrlWord
  | .length => s.lengthReg
  | .amplitude => s.amplitudeReg
  | .offsetLo => s.offsetLo
  | .offsetHi => s.offsetHi
  | .cmd => 0
  | .status => s.statusWord
  | .inData => 0
  | .inLen => u32 s.inBuf.length
  | .cmData => 0
  | .cmLen => u32 s.cmBuf.length
  | .seqLen => u32 s.seq.length
  | .outData => s.outDataWord
  | .outAvail => u32 (s.out.length - s.outRp)
  | .outLen => u32 s.out.length
  | .inCapR => s.inCapR
  | .cmCapR => s.cmCapR
  | .seqCapR => s.seqCapR
  | .outCapR => s.outCapR

/-- The value read at an offset; a reserved offset reads 0 (10_state.md R24). -/
def State.readValue (s : State) (off : Nat) : Word :=
  match regAt off with
  | some r => s.regValue r
  | Option.none => 0

/-- The side effect of a read: only OUT_DATA has one (20_memory.md R66, R71). -/
def State.afterRead (s : State) (off : Nat) : State :=
  if regAt off = some .outData then s.popOut else s

/-- The effect of a write to a register; read-only registers ignore it (20_memory.md R62). -/
def State.writeReg (s : State) (v : Word) : Reg → State
  | .ctrl => s.writeCtrl v
  | .length => s.writeLength v
  | .amplitude => s.writeAmplitude v
  | .offsetLo => s.writeOffsetLo v
  | .offsetHi => s.writeOffsetHi v
  | .cmd => s.issue v
  | .status => s
  | .inData => s.appendIn (v.extractLsb' 0 8)
  | .inLen => s
  | .cmData => s.appendCm (v.extractLsb' 0 8)
  | .cmLen => s
  | .seqLen => s
  | .outData => s
  | .outAvail => s
  | .outLen => s
  | .inCapR => s
  | .cmCapR => s
  | .seqCapR => s
  | .outCapR => s

/-- The effect of a write at an offset; a reserved offset ignores it (10_state.md R24). -/
def State.afterWrite (s : State) (off : Nat) (v : Word) : State :=
  match regAt off with
  | some r => s.writeReg v r
  | Option.none => s

/-- Whether an access is a 4-byte access at a 4-byte-aligned address of the window (20_memory.md
R63). -/
def inWindow (base addr size : Nat) : Bool :=
  decide (addr % 4 = 0 ∧ size = 4 ∧ base ≤ addr ∧ addr < base + 0x100)

/-- Only reads of STATUS are allowed: a command is pending (20_memory.md R64), or the host has not yet
read BUSY = 0 since its CMD write (70_reset_and_hazards.md R235; log 16, DEDUCED). -/
def State.onlyStatus (s : State) : Bool := s.busy || s.awaitingIdle

/-- `check_protocol` of a read (20_memory.md R64). -/
def State.readFault (s : State) (addr size : Nat) : Option HostFaultReason :=
  if !inWindow s.base addr size then some .misaligned
  else if s.onlyStatus && regAt (addr - s.base) ≠ some .status then some .busy
  else Option.none

/-- `check_protocol` of a write (20_memory.md R64). -/
def State.writeFault (s : State) (addr size : Nat) : Option HostFaultReason :=
  if !inWindow s.base addr size then some .misaligned
  else if s.onlyStatus then some .busy
  else Option.none

/-- `MemRead(addr, size)` (20_memory.md R62): the value and the state after it. -/
def memRead (s : State) (addr size : Nat) : Except HostFaultReason (Word × State) :=
  match s.readFault addr size with
  | some r => .error r
  | Option.none => .ok (s.readValue (addr - s.base), s.afterRead (addr - s.base))

/-- `MemWrite(addr, size, v)` (20_memory.md R62): the state after it. -/
def memWrite (s : State) (addr size : Nat) (v : Word) : Except HostFaultReason State :=
  match s.writeFault addr size with
  | some r => .error r
  | Option.none => .ok (s.afterWrite (addr - s.base) v)

/-! ### The host's notation -/

/-- `rd REG` (30_encoding.md R86). -/
def rd (base : Nat) (r : Reg) : Input := .access (.read (base + regOffset r) 4)

/-- `wr REG, v` (30_encoding.md R86). -/
def wr (base : Nat) (r : Reg) (v : Word) : Input := .access (.write (base + regOffset r) 4 v)

/-- `cmd OP` (30_encoding.md R87), for a command word. -/
def cmd (base : Nat) (c : Word) : Input := wr base .cmd c

/-- `run OP` (30_encoding.md R87): the command, then `poll`. -/
def run (base : Nat) (c : Word) : List Input := [cmd base c, .poll]

/-- `put PORT, b0, …` (30_encoding.md R87). -/
def put (base : Nat) (port : Reg) (bytes : List Byte) : List Input :=
  bytes.map fun b => wr base port (b.setWidth 32)

/-- `puts PORT, "text"` (30_encoding.md R87): the ASCII byte of each character, in order. DESIGN CHOICE
(log 23): a character above U+007F, for which R87 gives no byte, is one write of a free byte. -/
def puts (base : Nat) (port : Reg) (text : List Char) : List Input := put base port (ascii text)

/-- The value `ctrl w, s, m, a` writes: `w | (s << 8) | (m << 9) | (a << 10)` (30_encoding.md R87). -/
def ctrlValue (w : BitVec 6) (s m a : Bool) : Word :=
  w.setWidth 32 ||| (BitVec.ofBool s).setWidth 32 <<< 8 ||| (BitVec.ofBool m).setWidth 32 <<< 9
    ||| (BitVec.ofBool a).setWidth 32 <<< 10

/-- `ctrl w, s, m, a` (30_encoding.md R87). -/
def ctrl (base : Nat) (w : BitVec 6) (s m a : Bool) : Input := wr base .ctrl (ctrlValue w s m a)

/-- `offset d` (30_encoding.md R87), for the binary64 pattern of d: the low word first. -/
def offsetWrites (base : Nat) (d : B64) : List Input :=
  [wr base .offsetLo (d.extractLsb' 0 32), wr base .offsetHi (d.extractLsb' 32 32)]

/-! ### One input -/

/-- BUSY in a value read from STATUS: bit 5 (30_encoding.md R87). -/
def busyBit (v : Word) : Bool := v.getLsbD 5

/-- VALID in a value read from OUT_DATA: bit 8 (30_encoding.md R87). -/
def validBit (v : Word) : Bool := v.getLsbD 8

/-- What the host has learned from a read of `v` at address `addr`: the read is recorded, and a read
of STATUS with BUSY = 0 ends the interval of 70_reset_and_hazards.md R235. -/
def State.observe (s : State) (addr : Nat) (v : Word) : State :=
  (if addr = s.base + regOffset .status ∧ busyBit v = false then s.seeIdle else s).noteRead addr v

/-- A read of one register, recorded, after which the input stays or is done. -/
def readInput (s : State) (addr size : Nat) (stays : Word → Bool) : Result :=
  match memRead s addr size with
  | .error r => .refused (.hostFault r)
  | .ok (v, t) =>
    .next (if stays v then t.observe addr v else (t.observe addr v).dropInput)

/-- A write of one register. -/
def writeInput (s : State) (addr size : Nat) (v : Word) : Result :=
  match memWrite s addr size v with
  | .error r => .refused (.hostFault r)
  | .ok t => .next t.dropInput

/-- What one input does. `poll` and `drain` stay the next input until the bit they wait for is
clear (30_encoding.md R87). Hardware reset drops a pending command (70_reset_and_hazards.md R231). -/
def doInput (s : State) : Input → Result
  | .access (.read addr size) => readInput s addr size fun _ => false
  | .access (.write addr size v) => writeInput s addr size v
  | .poll => readInput s (s.base + regOffset .status) 4 busyBit
  | .drain => readInput s (s.base + regOffset .outData) 4 validBit
  | .hardReset => .next s.hardReset.dropInput

/-- One input takes place. While a command is pending it is one of those that fall before the
engine step. -/
def inputStep (s : State) (i : Input) : Result :=
  doInput (if s.busy then s.countDown else s) i

/-! ### What a run leaves -/

/-- The bytes the host has taken from OUT_DATA, in order (20_memory.md R66,
70_reset_and_hazards.md R243). -/
def State.drained (s : State) : List Byte :=
  (s.reads.filter fun p => p.1 = s.base + regOffset .outData && validBit p.2).map
    fun p => p.2.setWidth 8

end Sys2Proof.Machine
end

