-- ==== Sys2Proof/Machine/Engine.lean ====
section
/-! DEFINITION. The engine step (44_control.md R180) and which agent moves next. -/

namespace Sys2Proof.Machine

/-- The agent that moves next, and with what (00_scope.md R12). -/
inductive Turn where
  /-- The engine executes the pending command word. -/
  | engine (c : Word)
  /-- The outside world acts. -/
  | outside (i : Input)
  /-- Nothing is pending and no input is left (70_reset_and_hazards.md R243). -/
  | idle
deriving DecidableEq, Repr

/-- Who moves next. A pending command lets `wait` more inputs pass before its engine step, and it is
never left pending for good (44_control.md R180, 70_reset_and_hazards.md R242; log 2,
DESIGN CHOICE). -/
def State.turn (s : State) : Turn :=
  match s.pend, s.inputs with
  | some c, [] => .engine c
  | some c, i :: _ => if s.wait = 0 then .engine c else .outside i
  | Option.none, i :: _ => .outside i
  | Option.none, [] => .idle

/-- The engine step on the pending word (44_control.md R180): decode it, execute the command with
its error entry, empty PEND. -/
def engineStep (s : State) (c : Word) : Result :=
  match exec (decode c) s with
  | .next t => .next t.retire
  | .fault r => .fault r
  | .refused r => .refused r

/-- One step of the machine: the engine's, the outside world's, or none (log 13, DESIGN CHOICE). -/
def oneStep (s : State) : Result :=
  match s.turn with
  | .engine c => engineStep s c
  | .outside i => inputStep s i
  | .idle => .next s

end Sys2Proof.Machine
end

