-- ==== Sys2Proof/Machine/Step.lean ====
section
/-! DEFINITION. One step of the machine, and where its next command comes from. -/

namespace Sys2Proof.Machine

/-- One step of the machine. -/
def step (s : State) : Host.Outcome State Fault Refusal := oneStep s

/-- The state with the command word `w` pending and its engine step due next: what a CMD write
(20_memory.md R68) leaves when no input falls before the engine step, after which the host must wait
for BUSY = 0 (70_reset_and_hazards.md R235). Bits of `w` above bit 31 do not exist in PEND
(30_encoding.md R81). -/
def State.withFetchWord (s : State) (_nbits w : Nat) : State :=
  { s with pend := some (BitVec.ofNat 32 w), wait := 0, awaitingIdle := true }

end Sys2Proof.Machine
end

