-- ==== Sys2Proof/Safety.lean ====
section
/-! DEFINITION. The terms claims use: the invariant of the state, runs, and what a run leaves. -/

namespace Sys2Proof.Machine

/-- The parameters are values 00_scope.md R8 admits. -/
structure State.ParamsOk (s : State) : Prop where
  base_aligned : s.base % 0x100 = 0
  inCap_pos : 1 ≤ s.inCapR.toNat
  seqCap_pos : 1 ≤ s.seqCapR.toNat
  outCap_pos : 1 ≤ s.outCapR.toNat

/-- The buffers are within their capacities and OUT_RP within OUT (10_state.md R40, R43, R45, R47);
an overflow flag is set only at a full buffer (20_memory.md R65, R67). -/
structure State.BuffersOk (s : State) : Prop where
  in_le : s.inBuf.length ≤ s.inCapR.toNat
  cm_le : s.cmBuf.length ≤ s.cmCapR.toNat
  seq_le : s.seq.length ≤ s.seqCapR.toNat
  out_le : s.out.length ≤ s.outCapR.toNat
  rp_le : s.outRp ≤ s.out.length
  inOvf_full : s.inOvf = true → s.inBuf.length = s.inCapR.toNat
  cmOvf_full : s.cmOvf = true → s.cmBuf.length = s.cmCapR.toNat

/-- SEQ and its flags belong together (10_state.md R39, R45): no samples without a sequence, a width
of 1..32 with one, 64-bit samples, and packed words in a data sequence. -/
structure State.SequenceOk (s : State) : Prop where
  no_seq : s.seqValid = false → s.seq = []
  width_legal : s.seqValid = true → widthLegal s.seqWidth = true
  in_range : ∀ x ∈ s.seq, sampleInRange x = true
  data_word : s.seqValid = true → s.seqSine = false →
    ∀ x ∈ s.seq, 0 ≤ x ∧ x < 2 ^ (8 * wordBytes s.seqWidth.toNat)

/-- The invariant of every state a run reaches. An error code stands only with STICKY set
(10_state.md R39, 60_exceptions.md R210), and a command is pending only while the host must wait for
it (70_reset_and_hazards.md R235). -/
structure State.Inv (s : State) : Prop where
  params : s.ParamsOk
  buffers : s.BuffersOk
  sequence : s.SequenceOk
  err_sticky : s.err ≠ .none → s.sticky = true
  pend_awaiting : s.busy = true → s.awaitingIdle = true

/-- `n` steps from a state; none once a step is a fault or a refusal. -/
def stepsFrom : Nat → State → Option State
  | 0, s => some s
  | n + 1, s =>
    match step s with
    | .next t => stepsFrom n t
    | _ => Option.none

/-- A run has ended: the host has made its last access and BUSY = 0 (70_reset_and_hazards.md R243). -/
def State.Ended (s : State) : Prop := s.inputs = [] ∧ s.busy = false

/-- The fields that are constant through every step: the capacity registers (10_state.md R50) and
the other parameters of the instance. -/
def State.sameInstance (s t : State) : Prop :=
  t.inCapR = s.inCapR ∧ t.cmCapR = s.cmCapR ∧ t.seqCapR = s.seqCapR ∧ t.outCapR = s.outCapR ∧
    t.base = s.base ∧ t.qarith = s.qarith ∧ t.sin64Known = s.sin64Known

end Sys2Proof.Machine
end

