-- ==== Sys2Proof/Certificates/Slice0/Obligations.lean ====
section
/-! DEFINITION. The statements for the provers. Each docstring names the rule of the spec it
formalises. -/

open Sys2Proof Sys2Proof.Machine

/-! ### Encoding -/

/-- 30_encoding.md R83: each of the seven command words, and no other word, selects its command. -/
def Obligations.CommandWordsSelectTheirCommands : Prop :=
  ∀ w : Word,
    (decode w = .nop ↔ w = 0x00000000) ∧ (decode w = .genSine ↔ w = 0x00000001) ∧
    (decode w = .packData ↔ w = 0x00000002) ∧ (decode w = .emit ↔ w = 0x00000003) ∧
    (decode w = .clearIn ↔ w = 0x00000004) ∧ (decode w = .clearCm ↔ w = 0x00000005) ∧
    (decode w = .softReset ↔ w = 0x00000006)

/-- 30_encoding.md R84: OP in 0x7..0xF with RSV = 0, and every word with RSV ≠ 0, is reserved; it
fails with E_BADCMD and changes nothing else. Every word is one of the seven commands or reserved. -/
def Obligations.OtherWordsAreReserved : Prop :=
  (∀ (w : Word) (s : State),
    (7 ≤ (w.extractLsb' 0 4).toNat ∧ w.extractLsb' 4 28 = 0) ∨ w.extractLsb' 4 28 ≠ 0 →
    decode w = .reserved w ∧
      exec (decode w) s = .next { s with err := .badCmd, sticky := true }) ∧
  ∀ w : Word, decode w ∈
    [.nop, .genSine, .packData, .emit, .clearIn, .clearCm, .softReset, .reserved w]

/-- A few words of 95_test_vectors.md §2.7 and §3 decode to what they stand for. -/
def Obligations.SampleWordsDecode : Prop :=
  decode 0b00000000000000000000000000000001 = .genSine ∧
  decode 0b00000000000000000000000000000011 = .emit ∧
  decode 0b00000000000000000000000000010011 = .reserved 0x13 ∧
  decode 0x80000001 = .reserved 0x80000001 ∧
  decodeTableWord 32 6 = some .softReset ∧ decodeTableWord 33 0 = none

/-- 30_encoding.md R83 and R84: decoding the word of a well-formed command gives the command back,
and every word is the word of the well-formed command it decodes to: decoding is total and drops no
bit. -/
def Obligations.DecodeAndEncodeAgree : Prop :=
  (∀ i : Instr, i.wf = true → decode (encode i) = i) ∧
  ∀ w : Word, encode (decode w) = w ∧ (decode w).wf = true

/-! ### The engine step -/

/-- 44_control.md R180: when the engine moves, the step is the pending word's command, after which
PEND is empty. The engine moves when no further input falls before it (log 2, the model's choice of
how to hold R242's open time). -/
def Obligations.StepRunsDecodedCommand : Prop :=
  ∀ (s : State) (c : Word), s.pend = some c → (s.wait = 0 ∨ s.inputs = []) →
    step s = match exec (decode c) s with
      | .next t => .next { t with pend := none }
      | .fault r => .fault r
      | .refused r => .refused r

/-- 60_exceptions.md R210: a command that ends with an error code leaves ERR and STICKY changed and
nothing else, and the engine step then clears BUSY. -/
def Obligations.ErrorsArePrecise : Prop :=
  ∀ (i : Instr) (s t : State), exec i s = .next t → t.err ≠ .none →
    t = { s with err := t.err, sticky := true } ∧
    ∀ c, decode c = i →
      engineStep s c = .next { s with err := t.err, sticky := true, pend := none } ∧
      ({ s with err := t.err, sticky := true, pend := none } : State).statusWord.getLsbD 5 = false

/-- 60_exceptions.md R211: a command that raises no error ends with ERR = E_NONE; STICKY is
unchanged, but SOFT_RESET clears it. A command that raises one ends as R210 says, so every command
ends in a next state. -/
def Obligations.SuccessKeepsSticky : Prop :=
  ∀ (i : Instr) (s : State), ∃ t, exec i s = .next t ∧
    ((∃ c, c ≠ .none ∧ t = { s with err := c, sticky := true }) ∨
      (t.err = .none ∧ t.sticky = if i = .softReset then false else s.sticky))

/-- 60_exceptions.md R212: each command reports the first check that fails, in the table's order. -/
def Obligations.FirstFailingCheckIsReported : Prop :=
  ∀ s : State,
    (∀ w, ∃ t, exec (.reserved w) s = .next t ∧ t.err = .badCmd) ∧
    (∃ t, exec .genSine s = .next t ∧ t.err =
      if ¬ (1 ≤ s.width.toNat ∧ s.width.toNat ≤ 32) then .width
      else if s.lengthReg = 0 then .length
      else if s.lengthReg.toNat > s.seqCapR.toNat then .capacity
      else if (List.range s.lengthReg.toNat).any (fun i =>
          (quantize s.qarith s.sin64 i s.lengthReg.toNat
            (scaleOf s.width.toNat s.ampEn s.amplitudeReg.toInt) (s.offsetHi ++ s.offsetLo)
            s.signed).isNone) then .range
      else .none) ∧
    (∃ t, exec .packData s = .next t ∧ t.err =
      if ¬ (1 ≤ s.width.toNat ∧ s.width.toNat ≤ 32) then .width
      else if s.inOvf then .capacity
      else if s.inBuf.length % wordBytes s.width.toNat ≠ 0 then .mismatch
      else if s.inBuf.length / wordBytes s.width.toNat > s.seqCapR.toNat then .capacity
      else .none) ∧
    (∃ t, exec .emit s = .next t ∧ t.err =
      if s.seqValid = false then .noSeq
      else if s.mif ∧ s.cmOvf then .capacity
      else if (if s.mif then mifDocument s.seq s.seqWidth.toNat s.seqSine s.cmBuf
          else binDocument s.seq s.seqWidth.toNat).length > s.outCapR.toNat then .capacity
      else .none) ∧
    (∀ i ∈ [Instr.nop, .clearIn, .clearCm, .softReset], ∃ t, exec i s = .next t ∧ t.err = .none)

/-- 30_encoding.md R82: every field a command writes depends on the operands of the rule's table
alone, for two states of the same instance of the block. A failing command writes ERR and STICKY
(60_exceptions.md R210). -/
def Obligations.CommandsReadOnlyTheirOperands : Prop :=
  ∀ s u : State, s.sameInstance u →
    (s.width = u.width → s.signed = u.signed → s.ampEn = u.ampEn → s.lengthReg = u.lengthReg →
      s.amplitudeReg = u.amplitudeReg → s.offsetHi = u.offsetHi → s.offsetLo = u.offsetLo →
      ∃ s' u', exec .genSine s = .next s' ∧ exec .genSine u = .next u' ∧ s'.err = u'.err ∧
        (s'.err ≠ .none → s'.sticky = true ∧ u'.sticky = true) ∧
        (s'.err = .none → s'.seq = u'.seq ∧ s'.seqValid = u'.seqValid ∧
          s'.seqSine = u'.seqSine ∧ s'.seqWidth = u'.seqWidth)) ∧
    (s.width = u.width → s.inBuf = u.inBuf → s.inOvf = u.inOvf →
      ∃ s' u', exec .packData s = .next s' ∧ exec .packData u = .next u' ∧ s'.err = u'.err ∧
        (s'.err ≠ .none → s'.sticky = true ∧ u'.sticky = true) ∧
        (s'.err = .none → s'.seq = u'.seq ∧ s'.seqValid = u'.seqValid ∧
          s'.seqSine = u'.seqSine ∧ s'.seqWidth = u'.seqWidth)) ∧
    (s.mif = u.mif → s.seq = u.seq → s.seqValid = u.seqValid → s.seqSine = u.seqSine →
      s.seqWidth = u.seqWidth → (s.mif = true → s.cmBuf = u.cmBuf ∧ s.cmOvf = u.cmOvf) →
      ∃ s' u', exec .emit s = .next s' ∧ exec .emit u = .next u' ∧ s'.err = u'.err ∧
        (s'.err ≠ .none → s'.sticky = true ∧ u'.sticky = true) ∧
        (s'.err = .none → s'.out = u'.out ∧ s'.outRp = u'.outRp)) ∧
    (∃ s' u', exec .nop s = .next s' ∧ exec .nop u = .next u' ∧ s'.err = u'.err) ∧
    (∃ s' u', exec .clearIn s = .next s' ∧ exec .clearIn u = .next u' ∧ s'.err = u'.err ∧
      s'.inBuf = u'.inBuf ∧ s'.inOvf = u'.inOvf) ∧
    (∃ s' u', exec .clearCm s = .next s' ∧ exec .clearCm u = .next u' ∧ s'.err = u'.err ∧
      s'.cmBuf = u'.cmBuf ∧ s'.cmOvf = u'.cmOvf) ∧
    (∃ s' u', exec .softReset s = .next s' ∧ exec .softReset u = .next u' ∧
      s'.ctrlWord = u'.ctrlWord ∧ s'.statusWord = u'.statusWord ∧ s'.err = u'.err ∧
      s'.lengthReg = u'.lengthReg ∧ s'.amplitudeReg = u'.amplitudeReg ∧
      s'.offsetLo = u'.offsetLo ∧ s'.offsetHi = u'.offsetHi ∧ s'.pend = u'.pend ∧
      s'.inBuf = u'.inBuf ∧ s'.cmBuf = u'.cmBuf ∧ s'.seq = u'.seq ∧ s'.out = u'.out ∧
      s'.outRp = u'.outRp)

/-! ### The commands -/

/-- 44_control.md R182: NOP sets ERR to E_NONE and changes nothing else, in every state. -/
def Obligations.NopClearsErr : Prop :=
  decode 0x00000000 = .nop ∧ ∀ s : State, exec .nop s = .next { s with err := .none }

/-- 41_packer.md R126: CLEAR_IN empties IN, clears IN_OVF and ERR, and changes nothing else. -/
def Obligations.ClearInEmptiesInput : Prop :=
  decode 0x00000004 = .clearIn ∧
  ∀ s : State, exec .clearIn s = .next { s with inBuf := [], inOvf := false, err := .none }

/-- 43_mif.md R161: CLEAR_CM empties CM, clears CM_OVF and ERR, and changes nothing else. A document
emitted with an empty CM starts with two dashes, a space and two line ends. -/
def Obligations.ClearCmEmptiesComment : Prop :=
  decode 0x00000005 = .clearCm ∧
  (∀ s : State, exec .clearCm s = .next { s with cmBuf := [], cmOvf := false, err := .none }) ∧
  ∀ (seq : List Int) (w : Nat) (sine : Bool),
    [0x2D, 0x2D, 0x20, 0x0A, 0x0A] <+: mifDocument seq w sine []

/-- 44_control.md R184: SOFT_RESET gives every entry of 10_state.md R53 its reset value; STATUS and CTRL
then read 0, and the capacity registers stay. No other command clears STICKY. That the other
parameters and the outside world stay too is the model's reading (log 17). -/
def Obligations.SoftResetRestoresResetValues : Prop :=
  decode 0x00000006 = .softReset ∧
  (∀ s : State, ∃ t, exec .softReset s = .next t ∧ t.statusWord = 0 ∧ t.ctrlWord = 0 ∧
    t = { s with
      width := 0, signed := false, mif := false, ampEn := false, lengthReg := 0,
      amplitudeReg := 0, offsetLo := 0, offsetHi := 0, pend := none, err := .none,
      sticky := false, seqValid := false, seqSine := false, seqWidth := 0, inOvf := false,
      cmOvf := false, inBuf := [], cmBuf := [], seq := [], out := [], outRp := 0 }) ∧
  ∀ (i : Instr) (s t : State), exec i s = .next t → s.sticky = true → t.sticky = false →
    i = .softReset

/-- 44_control.md R186: every word above 6 is the reserved command, which always raises E_BADCMD and
changes nothing else. -/
def Obligations.ReservedFailsWithBadCmd : Prop :=
  (∀ w : Word, 6 < w.toNat ↔ decode w = .reserved w) ∧
  ∀ (w : Word) (s : State),
    exec (.reserved w) s = .next { s with err := .badCmd, sticky := true }

/-- 40_quantizer.md R105: where every check passes, GEN_SINE puts the quantized samples in index
order into SEQ, records the width, and changes nothing else. -/
def Obligations.GenSineStoresEverySample : Prop :=
  ∀ (s : State) (r : Nat → Int),
    1 ≤ s.width.toNat → s.width.toNat ≤ 32 → s.lengthReg ≠ 0 →
    s.lengthReg.toNat ≤ s.seqCapR.toNat →
    (∀ i < s.lengthReg.toNat,
      quantize s.qarith s.sin64 i s.lengthReg.toNat
        (scaleOf s.width.toNat s.ampEn s.amplitudeReg.toInt) (s.offsetHi ++ s.offsetLo)
        s.signed = some (r i)) →
    exec .genSine s = .next
      { s with
        seq := (List.range s.lengthReg.toNat).map r, seqValid := true, seqSine := true,
        seqWidth := s.width, err := .none }

/-- 40_quantizer.md R105 and R106: with the default scale, offset +0.0 and a legal configuration,
GEN_SINE always succeeds, with LENGTH samples. -/
def Obligations.GenSineDefaultScaleSucceeds : Prop :=
  ∀ s : State,
    1 ≤ s.width.toNat → s.width.toNat ≤ 32 → s.lengthReg ≠ 0 →
    s.lengthReg.toNat ≤ s.seqCapR.toNat → s.ampEn = false → s.offsetHi = 0 → s.offsetLo = 0 →
    ∃ l : List Int, l.length = s.lengthReg.toNat ∧
      (∀ x ∈ l, if s.signed then
          -(2 ^ (s.width.toNat - 1) - 1) ≤ x ∧ x ≤ 2 ^ (s.width.toNat - 1) - 1
        else 1 ≤ x ∧ x ≤ 2 ^ s.width.toNat - 1) ∧
      exec .genSine s = .next
        { s with seq := l, seqValid := true, seqSine := true, seqWidth := s.width, err := .none }

/-- 41_packer.md R125 with R120 and 00_scope.md R7: PACK_DATA fails with its checks in order, and where
every check passes, word k of SEQ is the sum of its bytes, the first most significant, and nothing
else but the SEQ_* fields and ERR changes. -/
def Obligations.PackDataStoresBigEndianWords : Prop :=
  decode 0x00000002 = .packData ∧
  ∀ (s : State) (w wb : Nat), w = s.width.toNat →
    wb = (if w ≤ 8 then 1 else if w ≤ 16 then 2 else if w ≤ 24 then 3 else 4) →
    (w < 1 ∨ 32 < w → exec .packData s = .next { s with err := .width, sticky := true }) ∧
    (1 ≤ w → w ≤ 32 →
      (s.inOvf = true → exec .packData s = .next { s with err := .capacity, sticky := true }) ∧
      (s.inOvf = false → s.inBuf.length % wb ≠ 0 →
        exec .packData s = .next { s with err := .mismatch, sticky := true }) ∧
      (s.inOvf = false → s.inBuf.length % wb = 0 → s.seqCapR.toNat < s.inBuf.length / wb →
        exec .packData s = .next { s with err := .capacity, sticky := true }) ∧
      (s.inOvf = false → s.inBuf.length % wb = 0 → s.inBuf.length / wb ≤ s.seqCapR.toNat →
        exec .packData s = .next
          { s with
            seq := (List.range (s.inBuf.length / wb)).map fun k =>
              ((List.range wb).map fun j =>
                ((s.inBuf.getD (k * wb + j) 0).toNat : Int) * 2 ^ (8 * (wb - 1 - j))).sum,
            seqValid := true, seqSine := false, seqWidth := s.width, err := .none }))

/-- 44_control.md R183: where every check passes, EMIT replaces OUT with the MIF document or the raw
bytes of SEQ at the recorded width, sets OUT_RP to 0, and changes nothing else. -/
def Obligations.EmitReplacesOut : Prop :=
  ∀ (s : State) (doc : List Byte),
    s.seqValid = true →
    doc = (if s.mif then mifDocument s.seq s.seqWidth.toNat s.seqSine s.cmBuf
      else s.seq.flatMap (serializeWord s.seqWidth.toNat)) →
    (s.mif = true → s.cmOvf = false) → doc.length ≤ s.outCapR.toNat →
    exec .emit s = .next { s with out := doc, outRp := 0, err := .none }

/-! ### The quantizer -/

/-- 40_quantizer.md R101: the scale is exact, with no wrap-around, and lies in the stated ranges. -/
def Obligations.ScaleIsExact : Prop :=
  (∀ (w : Nat) (v : Word), scaleOf w true v.toInt = 2 * v.toInt ∧
    -(2 ^ 32) ≤ scaleOf w true v.toInt ∧ scaleOf w true v.toInt ≤ 2 ^ 32 - 2) ∧
  (∀ (w : Nat) (amp : Int), 1 ≤ w → w ≤ 32 → scaleOf w false amp = 2 ^ w - 2 ∧
    0 ≤ scaleOf w false amp ∧ scaleOf w false amp ≤ 2 ^ 32 - 2) ∧
  (∀ amp : Int, scaleOf 32 false amp = 4294967294)

/-- 40_quantizer.md R103: SIN64 of every instance meets (a) and (b). That every function that meets
them is left as it is says that the model's own way of binding SIN64 (log 7, DESIGN CHOICE) shuts
none out. A binary64 value is compared with ±1 in units of 2^-1074. -/
def Obligations.SineMeetsItsBounds : Prop :=
  (∀ s : State, s.sin64 0 = 0 ∧ ∀ x, f64IsFinite x = true →
    f64IsFinite (s.sin64 x) = true ∧
      -(2 ^ 1074) ≤ f64Int (s.sin64 x) ∧ f64Int (s.sin64 x) ≤ 2 ^ 1074) ∧
  ∀ f : B64 → B64, f 0 = 0 →
    (∀ x, f64IsFinite x = true → f64IsFinite (f x) = true ∧
      -(2 ^ 1074) ≤ f64Int (f x) ∧ f64Int (f x) ≤ 2 ^ 1074) →
    boundSine f = f

/-- The binary64 operations of 40_quantizer.md R102 round the exact result once. The result is a nearest
magnitude, and on a tie one with an even last bit (R102). The encoding of magnitudes, the signs of
zeros, and that the rounded magnitude is infinite exactly from half a step above the largest finite
value come from IEEE 754 (log 12, PRESUMED). -/
def Obligations.RoundingIsNearestEven : Prop :=
  (∀ num den : Nat, 0 < den →
    (roundMag num den < f64InfBits → ∀ k < f64InfBits, k ≠ roundMag num den →
      ((num : Int) - den * magUnits (roundMag num den)).natAbs <
          ((num : Int) - den * magUnits k).natAbs ∨
        (((num : Int) - den * magUnits (roundMag num den)).natAbs =
            ((num : Int) - den * magUnits k).natAbs ∧ roundMag num den % 2 = 0)) ∧
    roundMag num den ≤ f64InfBits ∧
    (roundMag num den = f64InfBits ↔ den * ((2 ^ 54 - 1) * 2 ^ 2044) ≤ num)) ∧
  (∀ (neg : Bool) (m : Nat), m < f64InfBits → f64IsFinite (f64Pack neg m) = true ∧
    f64Int (f64Pack neg m) = if neg then -(magUnits m : Int) else magUnits m) ∧
  (∀ x y : B64, f64IsFinite x = true → f64IsFinite y = true →
    f64Mul x y = f64Pack (f64Neg x != f64Neg y)
      (roundMag (f64Int x * f64Int y).natAbs f64One) ∧
    (f64Int y ≠ 0 → f64Div x y = f64Pack (f64Neg x != f64Neg y)
      (roundMag ((f64Int x).natAbs * f64One) (f64Int y).natAbs)) ∧
    (f64Int x + f64Int y ≠ 0 → f64Add x y = f64Pack (decide (f64Int x + f64Int y < 0))
      (roundMag (f64Int x + f64Int y).natAbs 1)) ∧
    (f64Int x + f64Int y = 0 → f64Add x y = f64Pack (f64Neg x && f64Neg y) 0) ∧
    f64Floor x = ⌊(f64Int x : ℚ) / f64One⌋) ∧
  ∀ n : Int, f64OfInt n = f64Pack (decide (n < 0)) (roundMag (n.natAbs * f64One) 1) ∧
    (n.natAbs ≤ 2 ^ 32 →
      f64IsFinite (f64OfInt n) = true ∧ f64Int (f64OfInt n) = n * f64One)

/-- 40_quantizer.md R102, QARITH = REAL: the quantizer GEN_SINE uses gives the floor of the exact real
value when it is in the 64-bit range, and fails otherwise (R104). -/
def Obligations.RealSampleIsExact : Prop :=
  ∀ (f : B64 → B64) (i len : Nat) (scale : Int) (off : B64) (sg : Bool) (n : Int), i < len →
    f64IsFinite off = true →
    n = ⌊(Real.sin (2 * Real.pi * i / len) / 2 + (f64Int off : ℝ) / 2 ^ 1074 +
      (if sg then 0 else 1 / 2)) * scale⌋ + (if sg then 0 else 1) →
    sampleReal i len scale off sg = n ∧
    (-(2 ^ 63) ≤ n ∧ n ≤ 2 ^ 63 - 1 → quantize .real f i len scale off sg = some n) ∧
    (n < -(2 ^ 63) ∨ 2 ^ 63 - 1 < n → quantize .real f i len scale off sg = none)

/-- 40_quantizer.md R102, QARITH = B64: the steps of the quantizer GEN_SINE uses, in their order, with
the range check of R104; and in both arithmetics a NaN or infinite offset fails, and no sample is
outside the 64-bit range. -/
def Obligations.QuantizerStepsAndFailures : Prop :=
  (∀ (sin : B64 → B64) (i len : Nat) (scale : Int) (off : B64) (sg : Bool),
    productB64 sin i len scale off sg =
      f64Mul
        (f64Add
          (f64Add
            (f64Mul 0x3FE0000000000000
              (sin (f64Div (f64Mul (f64OfInt i) 0x401921FB54442D18) (f64OfInt len))))
            off)
          (if sg then 0 else 0x3FE0000000000000))
        (f64OfInt scale) ∧
    quantize .b64 sin i len scale off sg =
      if f64IsFinite (productB64 sin i len scale off sg) = true ∧
          -(2 ^ 63) ≤ ⌊(f64Int (productB64 sin i len scale off sg) : ℚ) / f64One⌋ +
            (if sg then 0 else 1) ∧
          ⌊(f64Int (productB64 sin i len scale off sg) : ℚ) / f64One⌋ +
            (if sg then 0 else 1) ≤ 2 ^ 63 - 1 then
        some (⌊(f64Int (productB64 sin i len scale off sg) : ℚ) / f64One⌋ + if sg then 0 else 1)
      else none) ∧
  ∀ (q : QArith) (sin : B64 → B64) (i len : Nat) (scale : Int) (off : B64) (sg : Bool),
    (f64IsFinite off = false → quantize q sin i len scale off sg = none) ∧
    (∀ n, quantize q sin i len scale off sg = some n → -(2 ^ 63) ≤ n ∧ n ≤ 2 ^ 63 - 1)

/-- 40_quantizer.md R105 corner case: index 0 has phase +0.0 and sine +0.0 exactly. -/
def Obligations.PhaseZeroIsExact : Prop :=
  ∀ (s : State) (len : Nat), 0 < len → len < 2 ^ 32 →
    f64Div (f64Mul (f64OfInt 0) twoPi) (f64OfInt len) = 0 ∧
    s.sin64 (f64Div (f64Mul (f64OfInt 0) twoPi) (f64OfInt len)) = 0

/-- 40_quantizer.md R105 corner cases: scale 0 (W = 1 by default, or amplitude 0) makes every sample
the bias, for every finite offset, in both arithmetics. -/
def Obligations.ScaleZeroGivesTheBias : Prop :=
  ∀ (q : QArith) (s : State) (i len : Nat) (off : B64) (sg : Bool),
    i < len → len < 2 ^ 32 → f64IsFinite off = true →
    quantize q s.sin64 i len 0 off sg = some (if sg then 0 else 1)

/-- 40_quantizer.md R106: with the default scale and offset +0.0 every sample fits the width, in
both arithmetics and for every SIN64 that meets R103. -/
def Obligations.DefaultScaleSamplesFit : Prop :=
  ∀ (q : QArith) (f : B64 → B64) (w i len : Nat) (amp : Int) (sg : Bool),
    1 ≤ w → w ≤ 32 → i < len → len < 2 ^ 32 → f 0 = 0 →
    (∀ x, f64IsFinite x = true → f64IsFinite (f x) = true ∧
      -(2 ^ 1074) ≤ f64Int (f x) ∧ f64Int (f x) ≤ 2 ^ 1074) →
    ∃ n, quantize q f i len (scaleOf w false amp) 0 sg = some n ∧
      if sg then -(2 ^ (w - 1) - 1) ≤ n ∧ n ≤ 2 ^ (w - 1) - 1 else 1 ≤ n ∧ n ≤ 2 ^ w - 1

/-! ### The packer and the serializers -/

/-- 00_scope.md R7: the word byte count. -/
def Obligations.WordByteCount : Prop :=
  ∀ w : Nat, 1 ≤ w → w ≤ 32 →
    wordBytes w = if w ≤ 8 then 1 else if w ≤ 16 then 2 else if w ≤ 24 then 3 else 4

/-- 42_serializer.md R140 and R141: the bytes, most significant first, are the base-256 digits of
the word mod 2^W. -/
def Obligations.SerializedBytesSpellTheWord : Prop :=
  ∀ (w : Nat) (v : Int),
    (serializeWord w v).length = wordBytes w ∧
    (((serializeWord w v).foldl (fun acc b => 256 * acc + b.toNat) 0 : Nat) : Int) = v % 2 ^ w

/-- 42_serializer.md R143 (a) and (c): the output has D · ceil(W/8) bytes, and above the word's width
the top byte of every word is clear. -/
def Obligations.BinaryOutputIsMasked : Prop :=
  (∀ (seq : List Int) (w : Nat), (binDocument seq w).length = seq.length * ((w + 7) / 8)) ∧
  ∀ (w : Nat) (v : Int) (b : Byte), 1 ≤ w → (serializeWord w v).head? = some b →
    b.toNat < 2 ^ (w - 8 * (wordBytes w - 1))

/-- 42_serializer.md R143 (d): for byte-aligned widths, packing and then serializing gives the bytes
back. -/
def Obligations.PackThenSerializeIsIdentity : Prop :=
  ∀ (bytes : List Byte) (w : Nat), w ∈ [8, 16, 24, 32] → bytes.length % (w / 8) = 0 →
    binDocument (packWords bytes (w / 8)) w = bytes

/-- 43_mif.md R150: exactly W digits, each `0` or `1`, that spell v mod 2^W in binary. -/
def Obligations.BinaryDigitsSpellTheValue : Prop :=
  ∀ (v : Int) (w : Nat),
    (intToBinary v w).length = w ∧
    (∀ b ∈ intToBinary v w, b = 0x30 ∨ b = 0x31) ∧
    (((intToBinary v w).foldl (fun acc b => 2 * acc + (b.toNat - 0x30)) 0 : Nat) : Int) =
      v % 2 ^ w

/-- 43_mif.md R151: decimal digits that spell the number, with no leading zero, and a minus sign
before a negative number. -/
def Obligations.DecimalDigitsSpellTheNumber : Prop :=
  (∀ n : Nat,
    (∀ b ∈ decInt n, 0x30 ≤ b.toNat ∧ b.toNat ≤ 0x39) ∧
    (decInt n).foldl (fun acc b => 10 * acc + (b.toNat - 0x30)) 0 = n ∧
    (n ≠ 0 → (decInt n).head? ≠ some 0x30) ∧ (n = 0 → decInt n = [0x30])) ∧
  ∀ n : Nat, 0 < n → decInt (-(n : Int)) = 0x2D :: decInt n

/-- 43_mif.md R153 to R155 and R158: the fixed text of the document, byte by byte (the bytes of
vector M1 in 95_test_vectors.md). -/
def Obligations.MifFixedText : Prop :=
  (∀ cm, mifHeader cm = [0x2D, 0x2D, 0x20] ++ cm ++ [0x0A, 0x0A]) ∧
  (∀ d w, mifDeclarations d w =
    [0x44, 0x45, 0x50, 0x54, 0x48, 0x20, 0x3D, 0x20] ++ decInt d ++ [0x3B, 0x0A] ++
    [0x57, 0x49, 0x44, 0x54, 0x48, 0x20, 0x3D, 0x20] ++ decInt w ++ [0x3B, 0x0A] ++
    [0x41, 0x44, 0x44, 0x52, 0x45, 0x53, 0x53, 0x5F, 0x52, 0x41, 0x44, 0x49, 0x58, 0x20, 0x3D,
      0x20, 0x44, 0x45, 0x43, 0x3B, 0x0A] ++
    [0x44, 0x41, 0x54, 0x41, 0x5F, 0x52, 0x41, 0x44, 0x49, 0x58, 0x20, 0x3D, 0x20, 0x42, 0x49,
      0x4E, 0x3B, 0x0A] ++ [0x0A]) ∧
  mifOpener = [0x43, 0x4F, 0x4E, 0x54, 0x45, 0x4E, 0x54, 0x0A, 0x42, 0x45, 0x47, 0x49, 0x4E, 0x0A,
    0x0A] ∧
  mifTerminator = [0x45, 0x4E, 0x44, 0x3B, 0x0A]

/-- 43_mif.md R156 and R157: the data lines, each with its address, its digits, and in sine mode
seven spaces, two dashes, a space and the raw sample. -/
def Obligations.MifDataLines : Prop :=
  ∀ (seq : List Int) (w : Nat) (sine : Bool),
    mifLines w sine 0 seq =
      (List.range seq.length).flatMap fun (a : Nat) =>
        decInt a ++ [0x20, 0x3A, 0x20] ++ intToBinary (seq.getD a 0) w ++ [0x3B] ++
        (if sine then
          [0x20, 0x20, 0x20, 0x20, 0x20, 0x20, 0x20, 0x2D, 0x2D, 0x20] ++ decInt (seq.getD a 0)
        else []) ++ [0x0A]

/-- 43_mif.md R159: DEPTH is the number of data lines, which are the line ends between the opener
and the terminator. -/
def Obligations.DepthCountsTheLines : Prop :=
  ∀ (seq : List Int) (w : Nat) (sine : Bool) (cm : List Byte),
    mifDocument seq w sine cm =
      mifHeader cm ++ mifDeclarations seq.length w ++ mifOpener ++ mifLines w sine 0 seq ++
        mifTerminator ∧
    (mifLines w sine 0 seq).count 0x0A = seq.length

/-- 43_mif.md R162: the length of the document. -/
def Obligations.MifDocumentLength : Prop :=
  ∀ (seq : List Int) (w : Nat) (sine : Bool) (cm : List Byte),
    (mifDocument seq w sine cm).length =
      85 + cm.length + (decInt seq.length).length + (decInt w).length +
      ((List.range seq.length).map fun (a : Nat) =>
        (decInt a).length + w + 5 +
          if sine then 10 + (decInt (seq.getD a 0)).length else 0).sum

/-! ### The host's accesses -/

/-- 20_memory.md R63 and R64: an access that is not 4 bytes, aligned and in the window is refused. While
a command is pending, and after a CMD write until a read of STATUS has shown BUSY = 0
(70_reset_and_hazards.md R235), so is every access but a read of STATUS. Every other access is done,
and a read of STATUS always gives STATUS. How the model holds R235's interval is log 16, that the
reason is misaligned where both hold is log 20, the model's choice. -/
def Obligations.ProtocolIsChecked : Prop :=
  ∀ (s : State) (addr size : Nat) (v : Word),
    (¬ (addr % 4 = 0 ∧ size = 4 ∧ s.base ≤ addr ∧ addr < s.base + 0x100) →
      memRead s addr size = .error .misaligned ∧ memWrite s addr size v = .error .misaligned) ∧
    (addr % 4 = 0 ∧ size = 4 ∧ s.base ≤ addr ∧ addr < s.base + 0x100 →
      s.pend.isSome ∨ s.awaitingIdle = true →
      memWrite s addr size v = .error .busy ∧
      (addr ≠ s.base + 0x18 → memRead s addr size = .error .busy)) ∧
    (addr % 4 = 0 ∧ size = 4 ∧ s.base ≤ addr ∧ addr < s.base + 0x100 →
      s.pend = none → s.awaitingIdle = false →
      (∃ t, memWrite s addr size v = .ok t) ∧ ∃ x t, memRead s addr size = .ok (x, t)) ∧
    (s.base % 0x100 = 0 → memRead s (s.base + 0x18) 4 = .ok (s.statusWord, s))

/-- 20_memory.md R64 and 70_reset_and_hazards.md R235: the machine refuses an access that breaks the
protocol, and only then. When an
input comes, and that R64's case ends in a refusal, is the model's choice (logs 2 and 3). -/
def Obligations.BrokenProtocolIsRefused : Prop :=
  ∀ (s : State) (a : Access) (rest : List Input) (r : HostFaultReason),
    s.inputs = .access a :: rest → (s.pend = none ∨ s.wait ≠ 0) →
    (step s = .refused (.hostFault r) ↔
      match a with
      | .read addr size => memRead s addr size = .error r
      | .write addr size v => memWrite s addr size v = .error r)

/-- 10_state.md R42 to R50: what reads of the count and capacity registers return. -/
def Obligations.CountRegistersRead : Prop :=
  ∀ s : State, s.base % 0x100 = 0 → s.pend = none → s.awaitingIdle = false →
    memRead s (s.base + 0x20) 4 = .ok (BitVec.ofNat 32 s.inBuf.length, s) ∧
    memRead s (s.base + 0x28) 4 = .ok (BitVec.ofNat 32 s.cmBuf.length, s) ∧
    memRead s (s.base + 0x2C) 4 = .ok (BitVec.ofNat 32 s.seq.length, s) ∧
    memRead s (s.base + 0x34) 4 = .ok (BitVec.ofNat 32 (s.out.length - s.outRp), s) ∧
    memRead s (s.base + 0x38) 4 = .ok (BitVec.ofNat 32 s.out.length, s) ∧
    memRead s (s.base + 0x3C) 4 = .ok (s.inCapR, s) ∧
    memRead s (s.base + 0x40) 4 = .ok (s.cmCapR, s) ∧
    memRead s (s.base + 0x44) 4 = .ok (s.seqCapR, s) ∧
    memRead s (s.base + 0x48) 4 = .ok (s.outCapR, s)

/-- 10_state.md R24: reserved offsets read 0 and ignore writes, with no side effect. -/
def Obligations.ReservedOffsetsDoNothing : Prop :=
  ∀ (s : State) (off : Nat) (v : Word),
    s.base % 0x100 = 0 → s.pend = none → s.awaitingIdle = false →
    0x4C ≤ off → off ≤ 0xFC → off % 4 = 0 →
    memRead s (s.base + off) 4 = .ok (0, s) ∧ memWrite s (s.base + off) 4 v = .ok s

/-- 10_state.md R30: CTRL stores bits 5:0, 8, 9 and 10 and reads zeros elsewhere; the write changes
nothing else. -/
def Obligations.CtrlStoresItsFields : Prop :=
  ∀ (s : State) (v : Word), s.base % 0x100 = 0 → s.pend = none → s.awaitingIdle = false →
    ∃ t, memWrite s s.base 4 v = .ok t ∧
      t = { s with
        width := v.extractLsb' 0 6, signed := v.getLsbD 8, mif := v.getLsbD 9,
        ampEn := v.getLsbD 10 } ∧
      memRead t t.base 4 = .ok (v &&& 0x73F, t)

/-- 10_state.md R35 to R37: LENGTH, AMPLITUDE and the OFFSET registers hold all bits as written. -/
def Obligations.ConfigRegistersHoldTheirBits : Prop :=
  ∀ (s : State) (v : Word), s.base % 0x100 = 0 → s.pend = none → s.awaitingIdle = false →
    (memWrite s (s.base + 0x04) 4 v = .ok { s with lengthReg := v } ∧
      memRead { s with lengthReg := v } (s.base + 0x04) 4 = .ok (v, { s with lengthReg := v })) ∧
    (memWrite s (s.base + 0x08) 4 v = .ok { s with amplitudeReg := v } ∧
      memRead { s with amplitudeReg := v } (s.base + 0x08) 4 =
        .ok (v, { s with amplitudeReg := v })) ∧
    (memWrite s (s.base + 0x0C) 4 v = .ok { s with offsetLo := v } ∧
      memRead { s with offsetLo := v } (s.base + 0x0C) 4 = .ok (v, { s with offsetLo := v })) ∧
    (memWrite s (s.base + 0x10) 4 v = .ok { s with offsetHi := v } ∧
      memRead { s with offsetHi := v } (s.base + 0x10) 4 = .ok (v, { s with offsetHi := v }))

/-- 10_state.md R39: where the fields of STATUS stand, and that a read of STATUS gives them, pending
command or not, and changes nothing. -/
def Obligations.StatusFieldPositions : Prop :=
  ∀ (s : State) (x : Word), x = s.statusWord →
    (s.base % 0x100 = 0 → memRead s (s.base + 0x18) 4 = .ok (x, s)) ∧
    x.extractLsb' 0 4 =
      (match s.err with
      | .none => 0 | .width => 1 | .length => 2 | .mismatch => 3 | .range => 4 | .capacity => 5
      | .badCmd => 6 | .noSeq => 7) ∧
    x.getLsbD 4 = s.sticky ∧ x.getLsbD 5 = s.pend.isSome ∧
    x.getLsbD 6 = s.seqValid ∧ x.getLsbD 7 = s.seqSine ∧
    x.getLsbD 8 = s.inOvf ∧ x.getLsbD 9 = s.cmOvf ∧
    x.extractLsb' 10 6 = 0 ∧ x.extractLsb' 16 6 = s.seqWidth ∧ x.extractLsb' 22 10 = 0

/-- 20_memory.md R65 and R67: a write of IN_DATA or CM_DATA appends one byte, or drops it and sets
the overflow flag. -/
def Obligations.DataPortsAppend : Prop :=
  ∀ (s : State) (v : Word), s.base % 0x100 = 0 → s.pend = none → s.awaitingIdle = false →
    memWrite s (s.base + 0x1C) 4 v = .ok
      (if s.inBuf.length < s.inCapR.toNat then { s with inBuf := s.inBuf ++ [v.extractLsb' 0 8] }
      else { s with inOvf := true }) ∧
    memWrite s (s.base + 0x24) 4 v = .ok
      (if s.cmBuf.length < s.cmCapR.toNat then { s with cmBuf := s.cmBuf ++ [v.extractLsb' 0 8] }
      else { s with cmOvf := true })

/-- 20_memory.md R68: a write of CMD fills PEND and so sets BUSY; it changes nothing else of the
block. The two scheduling fields are the model's own (log 2), and from here on the host must wait for
BUSY = 0 (R235, log 16). -/
def Obligations.CmdWriteFillsPend : Prop :=
  ∀ (s : State) (v : Word), s.base % 0x100 = 0 → s.pend = none → s.awaitingIdle = false →
    ∃ t, memWrite s (s.base + 0x14) 4 v = .ok t ∧ t.statusWord.getLsbD 5 = true ∧
      t = { s with pend := some v, wait := t.wait, latency := t.latency, awaitingIdle := true }

/-- 20_memory.md R71 and R62: reads other than of OUT_DATA change nothing; writes to read-only
registers and reserved offsets change nothing; write-only registers read 0. -/
def Obligations.OtherAccessesHaveNoEffect : Prop :=
  ∀ (s t : State) (addr size : Nat) (x v : Word),
    (memRead s addr size = .ok (x, t) → addr ≠ s.base + 0x30 → t = s) ∧
    (memWrite s addr size v = .ok t →
      addr - s.base ∉ [0x00, 0x04, 0x08, 0x0C, 0x10, 0x14, 0x1C, 0x24] → t = s) ∧
    (memRead s addr size = .ok (x, t) →
      addr = s.base + 0x14 ∨ addr = s.base + 0x1C ∨ addr = s.base + 0x24 → x = 0)

/-- 10_state.md R48 and 20_memory.md R66, one read: the next byte with VALID, and OUT_RP moves; at
the end it reads 0 and nothing changes. -/
def Obligations.OutDataPopsOneByte : Prop :=
  ∀ s : State, s.base % 0x100 = 0 → s.pend = none → s.awaitingIdle = false →
    s.outRp ≤ s.out.length →
    (∀ b, s.out[s.outRp]? = some b →
      memRead s (s.base + 0x30) 4 =
        .ok (BitVec.ofNat 32 (b.toNat + 256), { s with outRp := s.outRp + 1 })) ∧
    (s.outRp = s.out.length → memRead s (s.base + 0x30) 4 = .ok (0, s))

/-- 20_memory.md R66: `drain` takes the unread bytes of OUT in order, and ends. The inputs and the
record of reads are the model's choice (logs 2 and 8). -/
def Obligations.DrainTakesEveryByte : Prop :=
  ∀ (s : State) (rest : List Input),
    s.base % 0x100 = 0 → s.pend = none → s.awaitingIdle = false →
    s.outRp ≤ s.out.length → s.inputs = .drain :: rest →
    ∃ t, stepsFrom (s.out.length - s.outRp + 1) s = some t ∧
      t = { s with outRp := s.out.length, inputs := rest, reads := t.reads } ∧
      t.drained = s.drained ++ s.out.drop s.outRp

/-- 41_packer.md R124: the bytes of the segments, written one after another, stand in IN in that
order. The list of inputs is the model's choice (log 2). -/
def Obligations.SegmentsAreConcatenated : Prop :=
  ∀ (s : State) (segments : List (List Byte)) (rest : List Input),
    s.base % 0x100 = 0 → s.pend = none → s.awaitingIdle = false →
    s.inputs = (segments.map (put s.base .inData)).flatten ++ rest →
    s.inBuf.length + segments.flatten.length ≤ s.inCapR.toNat →
    stepsFrom segments.flatten.length s =
      some { s with inBuf := s.inBuf ++ segments.flatten, inputs := rest }

/-- 70_reset_and_hazards.md R242: a pending command completes and a `poll` loop ends, after the
inputs that the schedule lets pass, the engine step, and one last read. The schedule is the model's
choice (log 2). -/
def Obligations.PollEnds : Prop :=
  ∀ (s : State) (c : Word) (rest : List Input), s.base % 0x100 = 0 → s.pend = some c →
    s.inputs = .poll :: rest →
    ∃ t, stepsFrom (s.wait + 2) s = some t ∧ t.pend = none ∧ t.awaitingIdle = false ∧
      t.inputs = rest

/-- 95_test_vectors.md §3 and 70_reset_and_hazards.md R242: what `run OP` leaves does not depend on
how many polls fall before the engine step, but for the values the polls read. The schedule and the
record of reads are the model's choice (logs 2 and 8). -/
def Obligations.RunDoesNotDependOnLatency : Prop :=
  ∀ (s : State) (c : Word) (m n : Nat) (l : List Nat) (rest : List Input),
    s.base % 0x100 = 0 → s.pend = none → s.awaitingIdle = false →
    s.inputs = run s.base c ++ rest →
    ∃ t u, stepsFrom (m + 3) { s with latency := m :: l } = some t ∧
      stepsFrom (n + 3) { s with latency := n :: l } = some u ∧
      t.pend = none ∧ t.awaitingIdle = false ∧ t.inputs = rest ∧ { t with reads := u.reads } = u

/-- 70_reset_and_hazards.md R230 and R231: hardware reset gives every entry of 10_state.md R53 its
reset value, and a pending command is dropped with none of its effects. When the reset comes, and what
it leaves alone, is the model's choice (logs 2, 16 and 17). -/
def Obligations.HardResetDropsThePendingCommand : Prop :=
  ∀ (s : State) (rest : List Input), s.inputs = .hardReset :: rest →
    (s.pend = none ∨ s.wait ≠ 0) →
    ∃ t, step s = .next t ∧ t.pend = none ∧ t.inputs = rest ∧
      t = { s with
        width := 0, signed := false, mif := false, ampEn := false, lengthReg := 0,
        amplitudeReg := 0, offsetLo := 0, offsetHi := 0, pend := none, err := .none,
        sticky := false, seqValid := false, seqSine := false, seqWidth := 0, inOvf := false,
        cmOvf := false, inBuf := [], cmBuf := [], seq := [], out := [], outRp := 0,
        inputs := rest, wait := t.wait, awaitingIdle := false }

/-! ### Reset and the whole machine -/

/-- 10_state.md R53: the values after reset. The capacity registers hold the parameters. -/
def Obligations.ResetValues : Prop :=
  State.reset.ctrlWord = 0 ∧ State.reset.lengthReg = 0 ∧ State.reset.amplitudeReg = 0 ∧
  State.reset.offsetLo = 0 ∧ State.reset.offsetHi = 0 ∧ State.reset.pend = none ∧
  State.reset.statusWord = 0 ∧ State.reset.inBuf = [] ∧ State.reset.cmBuf = [] ∧
  State.reset.seq = [] ∧ State.reset.out = [] ∧ State.reset.outRp = 0 ∧
  State.reset.inCapR = Config.inCap ∧ State.reset.cmCapR = Config.cmCap ∧
  State.reset.seqCapR = Config.seqCap ∧ State.reset.outCapR = Config.outCap

/-- The invariant holds after reset. -/
def Obligations.InvHoldsAtReset : Prop := State.reset.Inv

/-- Every step keeps the invariant: the buffers stay within their capacities, SEQ and its flags
belong together with 64-bit samples, an error stands only with STICKY (10_state.md R39, R40, R43,
R45, R47), and the host must wait while a command is pending (70_reset_and_hazards.md R235). -/
def Obligations.InvKeptByEveryStep : Prop :=
  ∀ s t : State, s.Inv → step s = .next t → t.Inv

/-- 10_state.md R50: the capacity registers never change, and neither do the other parameters of
the instance (the model's own fields, logs 4, 6 and 7). -/
def Obligations.ParametersNeverChange : Prop :=
  ∀ s t : State, step s = .next t → s.sameInstance t

/-- 10_state.md R39: STICKY is cleared by reset and SOFT_RESET only. -/
def Obligations.OnlyResetsClearSticky : Prop :=
  ∀ s t : State, step s = .next t → s.sticky = true → t.sticky = false →
    (∃ c, s.pend = some c ∧ c = 0x00000006) ∨ ∃ rest, s.inputs = .hardReset :: rest

/-- 10_state.md R40 and R43, with R39 for the overflow flags: only IN_DATA writes, CLEAR_IN and the
resets change IN and IN_OVF; only CM_DATA writes, CLEAR_CM and the resets change CM and CM_OVF. -/
def Obligations.OnlyTheirPortsAndClearsChangeInAndCm : Prop :=
  ∀ s t : State, step s = .next t →
    (t.inBuf ≠ s.inBuf ∨ t.inOvf ≠ s.inOvf →
      (∃ c, s.pend = some c ∧ (c = 0x00000004 ∨ c = 0x00000006)) ∨
      ∃ i rest, s.inputs = i :: rest ∧
        (i = .hardReset ∨ ∃ v, i = .access (.write (s.base + 0x1C) 4 v))) ∧
    (t.cmBuf ≠ s.cmBuf ∨ t.cmOvf ≠ s.cmOvf →
      (∃ c, s.pend = some c ∧ (c = 0x00000005 ∨ c = 0x00000006)) ∨
      ∃ i rest, s.inputs = i :: rest ∧
        (i = .hardReset ∨ ∃ v, i = .access (.write (s.base + 0x24) 4 v)))

/-- 10_state.md R47: OUT changes only at a successful EMIT or a reset; OUT_RP changes only there and
at a read of OUT_DATA. R39 and R45: SEQ and its flags change only at a successful GEN_SINE or
PACK_DATA or a reset. -/
def Obligations.OnlyTheirCommandsChangeSeqAndOut : Prop :=
  ∀ s t : State, step s = .next t →
    (t.seq ≠ s.seq ∨ t.seqValid ≠ s.seqValid ∨ t.seqSine ≠ s.seqSine ∨ t.seqWidth ≠ s.seqWidth →
      (∃ c, s.pend = some c ∧
        (((c = 0x00000001 ∨ c = 0x00000002) ∧ t.err = .none) ∨ c = 0x00000006)) ∨
      ∃ rest, s.inputs = .hardReset :: rest) ∧
    (t.out ≠ s.out →
      (∃ c, s.pend = some c ∧ ((c = 0x00000003 ∧ t.err = .none) ∨ c = 0x00000006)) ∨
      ∃ rest, s.inputs = .hardReset :: rest) ∧
    (t.outRp ≠ s.outRp →
      (∃ c, s.pend = some c ∧ ((c = 0x00000003 ∧ t.err = .none) ∨ c = 0x00000006)) ∨
      ∃ i rest, s.inputs = i :: rest ∧
        (i = .hardReset ∨ i = .drain ∨ i = .access (.read (s.base + 0x30) 4)))

/-- The steps that have no next state are host accesses that break the protocol (20_memory.md R64,
70_reset_and_hazards.md R235): no command word and no data stops the block. That such an access is
refused is the model's choice (log 3). -/
def Obligations.OnlyBrokenProtocolStopsTheMachine : Prop :=
  ∀ s : State, (∃ t, step s = .next t) ∨
    ((∃ r, step s = .refused (.hostFault r)) ∧
      ∃ i rest, s.inputs = i :: rest ∧ i ≠ .hardReset ∧ (s.pend = none ∨ s.wait ≠ 0))
end

