-- ==== Sys2Proof/Laws/Float64.lean ====
section
/-! SUPPORT. The binary64 magnitudes and their rounding, once: later proofs use the order of the
magnitudes and the two bounds on `roundMag`, and do not unfold it. -/

namespace Sys2Proof.Machine

/-! ### Magnitudes -/

/-- A magnitude in the form `roundMag` builds it: step 2^t, n steps, with the carry into the next
binade included. -/
theorem magUnits_steps (t n : Nat) (hn : n ≤ 2 ^ 53) (ht : t = 0 ∨ 2 ^ 52 ≤ n) :
    magUnits (t * 2 ^ 52 + n) = n * 2 ^ t := by
  unfold magUnits
  by_cases h53 : n = 2 ^ 53
  · subst h53
    have h1 : (t * 2 ^ 52 + 2 ^ 53) / 2 ^ 52 = t + 2 := by omega
    have h2 : (t * 2 ^ 52 + 2 ^ 53) % 2 ^ 52 = 0 := by omega
    rw [h1, h2, if_neg (by omega), show t + 2 - 1 = t + 1 by omega, pow_succ]
    ring
  · by_cases h52 : 2 ^ 52 ≤ n
    · have h1 : (t * 2 ^ 52 + n) / 2 ^ 52 = t + 1 := by omega
      have h2 : (t * 2 ^ 52 + n) % 2 ^ 52 = n - 2 ^ 52 := by omega
      rw [h1, h2, if_neg (by omega), show t + 1 - 1 = t by omega,
        show 2 ^ 52 + (n - 2 ^ 52) = n by omega]
    · have h0 : t = 0 := ht.resolve_right h52
      subst h0
      have h1 : (0 * 2 ^ 52 + n) / 2 ^ 52 = 0 := by omega
      rw [if_pos h1]
      ring

theorem magUnits_lt_succ (m : Nat) : magUnits m < magUnits (m + 1) := by
  by_cases h : m / 2 ^ 52 = 0
  · have h1 := magUnits_steps 0 m (by omega) (.inl rfl)
    have h2 := magUnits_steps 0 (m + 1) (by omega) (.inl rfl)
    simp only [Nat.zero_mul, Nat.zero_add, pow_zero, Nat.mul_one] at h1 h2
    omega
  · have e : m = (m / 2 ^ 52 - 1) * 2 ^ 52 + (2 ^ 52 + m % 2 ^ 52) := by omega
    have h1 := magUnits_steps (m / 2 ^ 52 - 1) (2 ^ 52 + m % 2 ^ 52) (by omega) (.inr (by omega))
    have h2 := magUnits_steps (m / 2 ^ 52 - 1) (2 ^ 52 + m % 2 ^ 52 + 1) (by omega)
      (.inr (by omega))
    rw [← e] at h1
    rw [← Nat.add_assoc, ← e] at h2
    rw [h1, h2]
    exact Nat.mul_lt_mul_of_pos_right (by omega) (by positivity)

/-- A larger number of magnitude bits is a larger magnitude. -/
theorem magUnits_strictMono : StrictMono magUnits := strictMono_nat_of_lt_succ magUnits_lt_succ

theorem magUnits_lt_iff {m k : Nat} : magUnits m < magUnits k ↔ m < k :=
  magUnits_strictMono.lt_iff_lt

theorem magUnits_le_iff {m k : Nat} : magUnits m ≤ magUnits k ↔ m ≤ k :=
  magUnits_strictMono.le_iff_le

/-! ### Rounding -/

/-- What `roundMag` computes: the value lies from n to n + 1 steps of 2^t, and the result is n or
n + 1 steps by the rule of nearest and even, but never past the infinity. -/
theorem roundMag_spec (num den : Nat) (hd : 0 < den) :
    ∃ t n up : Nat, n < 2 ^ 53 ∧ (t = 0 ∨ 2 ^ 52 ≤ n) ∧
      den * (n * 2 ^ t) ≤ num ∧ num < den * ((n + 1) * 2 ^ t) ∧
      (up = 0 ∧ 2 * num ≤ den * ((2 * n + 1) * 2 ^ t) ∧
          (2 * num = den * ((2 * n + 1) * 2 ^ t) → n % 2 = 0) ∨
        up = 1 ∧ den * ((2 * n + 1) * 2 ^ t) ≤ 2 * num ∧
          (2 * num = den * ((2 * n + 1) * 2 ^ t) → n % 2 = 1)) ∧
      roundMag num den = min (t * 2 ^ 52 + n + up) f64InfBits := by
  have hdt : 0 < den * 2 ^ (Nat.log2 (num / den) - 52) := by positivity
  have hdiv := Nat.div_add_mod num (den * 2 ^ (Nat.log2 (num / den) - 52))
  have hmod := Nat.mod_lt num hdt
  have hq : num / (den * 2 ^ (Nat.log2 (num / den) - 52)) =
      num / den / 2 ^ (Nat.log2 (num / den) - 52) := (Nat.div_div_eq_div_mul _ _ _).symm
  have hbound : num / (den * 2 ^ (Nat.log2 (num / den) - 52)) < 2 ^ 53 ∧
      (Nat.log2 (num / den) - 52 = 0 ∨
        2 ^ 52 ≤ num / (den * 2 ^ (Nat.log2 (num / den) - 52))) := by
    rw [hq]
    generalize num / den = q
    have hlt : q < 2 ^ (Nat.log2 q + 1) := Nat.lt_log2_self
    constructor
    · rw [Nat.div_lt_iff_lt_mul (by positivity), ← pow_add]
      exact hlt.trans_le (Nat.pow_le_pow_right (by norm_num) (by omega))
    · by_cases h : Nat.log2 q - 52 = 0
      · exact .inl h
      · refine .inr ((Nat.le_div_iff_mul_le (by positivity)).mpr ?_)
        rw [← pow_add, show 52 + (Nat.log2 q - 52) = Nat.log2 q by omega]
        refine Nat.log2_self_le fun h0 => h ?_
        simp [h0]
  refine ⟨Nat.log2 (num / den) - 52, num / (den * 2 ^ (Nat.log2 (num / den) - 52)),
    if den * 2 ^ (Nat.log2 (num / den) - 52) < 2 * (num % (den * 2 ^ (Nat.log2 (num / den) - 52))) ∨
      (2 * (num % (den * 2 ^ (Nat.log2 (num / den) - 52))) =
          den * 2 ^ (Nat.log2 (num / den) - 52) ∧
        num / (den * 2 ^ (Nat.log2 (num / den) - 52)) % 2 = 1) then 1 else 0,
    hbound.1, hbound.2, ?_, ?_, ?_, rfl⟩
  all_goals
    generalize num / (den * 2 ^ (Nat.log2 (num / den) - 52)) = n at *
    generalize num % (den * 2 ^ (Nat.log2 (num / den) - 52)) = r at *
    generalize 2 ^ (Nat.log2 (num / den) - 52) = w at *
    have e0 : den * (n * w) = den * w * n := by ring
    have e1 : den * ((n + 1) * w) = den * w * n + den * w := by ring
    have e2 : den * ((2 * n + 1) * w) = 2 * (den * w * n) + den * w := by ring
  · omega
  · omega
  · split <;> omega

/-- A value not above a magnitude rounds to no more than it. -/
theorem roundMag_le {num den k : Nat} (hd : 0 < den) (h : num ≤ den * magUnits k) :
    roundMag num den ≤ k := by
  obtain ⟨t, n, up, hn, ht, hlo, hhi, hup, hr⟩ := roundMag_spec num den hd
  rw [hr]
  refine (min_le_left _ _).trans ?_
  obtain ⟨rfl, h1, _⟩ | ⟨rfl, h1, _⟩ := hup
  · rw [← magUnits_le_iff, Nat.add_zero, magUnits_steps t n hn.le ht]
    exact Nat.le_of_mul_le_mul_left (hlo.trans h) hd
  · rw [Nat.succ_le_iff, ← magUnits_lt_iff, magUnits_steps t n hn.le ht]
    have hlt : den * (n * 2 ^ t) < num := by
      have hp : 0 < den * 2 ^ t := by positivity
      have e1 : den * ((2 * n + 1) * 2 ^ t) = 2 * (den * (n * 2 ^ t)) + den * 2 ^ t := by ring
      omega
    exact Nat.lt_of_mul_lt_mul_left (hlt.trans_le h)

/-- A value not below a magnitude rounds to no less than it. -/
theorem le_roundMag {num den k : Nat} (hd : 0 < den) (hk : k ≤ f64InfBits)
    (h : den * magUnits k ≤ num) : k ≤ roundMag num den := by
  obtain ⟨t, n, up, hn, ht, hlo, hhi, hup, hr⟩ := roundMag_spec num den hd
  rw [hr]
  refine le_min ?_ hk
  have hk' : k < t * 2 ^ 52 + (n + 1) := by
    rw [← magUnits_lt_iff, magUnits_steps t (n + 1) (by omega) (ht.imp_right (by omega))]
    exact Nat.lt_of_mul_lt_mul_left (h.trans_lt hhi)
  omega

/-- A value that is a magnitude rounds to itself. -/
theorem roundMag_exact {num den k : Nat} (hd : 0 < den) (hk : k ≤ f64InfBits)
    (h : num = den * magUnits k) : roundMag num den = k :=
  le_antisymm (roundMag_le hd h.le) (le_roundMag hd hk h.ge)

theorem roundMag_le_inf (num den : Nat) : roundMag num den ≤ f64InfBits := min_le_right _ _

/-! ### Patterns -/

theorem f64MagBits_pack (neg : Bool) {m : Nat} (h : m < 2 ^ 63) : f64MagBits (f64Pack neg m) = m := by
  unfold f64MagBits f64Pack
  rw [BitVec.toNat_ofNat]
  split <;> omega

theorem f64Neg_pack (neg : Bool) {m : Nat} (h : m < 2 ^ 63) : f64Neg (f64Pack neg m) = neg := by
  unfold f64Neg f64Pack
  rw [BitVec.toNat_ofNat]
  cases neg <;> simp <;> omega

/-- A pattern is its sign and its magnitude bits. -/
theorem f64Pack_eta (x : B64) : f64Pack (f64Neg x) (f64MagBits x) = x := by
  apply BitVec.eq_of_toNat_eq
  have hx := x.isLt
  unfold f64Pack f64Neg f64MagBits
  rw [BitVec.toNat_ofNat]
  simp only [decide_eq_true_eq]
  split <;> omega

theorem f64Int_natAbs (x : B64) : (f64Int x).natAbs = magUnits (f64MagBits x) := by
  unfold f64Int
  split <;> simp

/-! ### Values and operations on finite patterns -/

theorem f64IsFinite_iff (x : B64) : f64IsFinite x = true ↔ f64MagBits x < f64InfBits := by
  simp [f64IsFinite]

theorem f64_not_nan_inf {x : B64} (h : f64IsFinite x = true) :
    f64IsNaN x = false ∧ f64IsInf x = false := by
  rw [f64IsFinite_iff] at h
  simp only [f64IsNaN, f64IsInf, decide_eq_false_iff_not]
  omega

theorem f64InfBits_lt : f64InfBits < 2 ^ 63 := by decide

/-- The value of a pattern built from a sign and magnitude bits. -/
theorem f64Int_pack (neg : Bool) {m : Nat} (h : m ≤ f64InfBits) :
    f64Int (f64Pack neg m) = if neg then -(magUnits m : Int) else magUnits m := by
  have h' : m < 2 ^ 63 := h.trans_lt f64InfBits_lt
  rw [f64Int, f64Neg_pack neg h', f64MagBits_pack neg h']

theorem f64IsFinite_pack (neg : Bool) {m : Nat} (h : m < f64InfBits) :
    f64IsFinite (f64Pack neg m) = true := by
  rw [f64IsFinite_iff, f64MagBits_pack neg (h.trans f64InfBits_lt)]
  exact h

/-- The product of finite numbers, rounded once. -/
theorem f64Mul_finite {x y : B64} (hx : f64IsFinite x = true) (hy : f64IsFinite y = true) :
    f64Mul x y = f64Pack (f64Neg x != f64Neg y)
      (roundMag (magUnits (f64MagBits x) * magUnits (f64MagBits y)) f64One) := by
  simp only [f64Mul, f64_not_nan_inf hx, f64_not_nan_inf hy, Bool.or_self, Bool.false_eq_true,
    if_false]

/-- The sum of finite numbers, rounded once. -/
theorem f64Add_finite {x y : B64} (hx : f64IsFinite x = true) (hy : f64IsFinite y = true) :
    f64Add x y = if f64Int x + f64Int y = 0 then f64Pack (f64Neg x && f64Neg y) 0
      else f64Pack (decide (f64Int x + f64Int y < 0))
        (roundMag (f64Int x + f64Int y).natAbs 1) := by
  simp only [f64Add, f64_not_nan_inf hx, f64_not_nan_inf hy, Bool.or_self, Bool.false_eq_true,
    if_false]

theorem magUnits_zero : magUnits 0 = 0 := by decide

/-- A sum stays between magnitudes that the exact sum lies between. -/
theorem f64Add_bounds {x y : B64} {lo hi : Nat} (hx : f64IsFinite x = true)
    (hy : f64IsFinite y = true) (hlo : lo < f64InfBits) (hhi : hi < f64InfBits)
    (h1 : -(magUnits lo : Int) ≤ f64Int x + f64Int y) (h2 : f64Int x + f64Int y ≤ magUnits hi) :
    f64IsFinite (f64Add x y) = true ∧ -(magUnits lo : Int) ≤ f64Int (f64Add x y) ∧
      f64Int (f64Add x y) ≤ magUnits hi := by
  rw [f64Add_finite hx hy]
  generalize f64Int x + f64Int y = z at *
  split
  · rw [f64Int_pack _ (Nat.zero_le _), magUnits_zero]
    exact ⟨f64IsFinite_pack _ (by decide), by split <;> omega, by split <;> omega⟩
  · by_cases hz : z < 0
    · have hr : roundMag z.natAbs 1 ≤ lo := roundMag_le one_pos (by omega)
      have := magUnits_le_iff.mpr hr
      rw [f64Int_pack _ (by omega), decide_eq_true hz, if_pos rfl]
      exact ⟨f64IsFinite_pack _ (by omega), by omega, by omega⟩
    · have hr : roundMag z.natAbs 1 ≤ hi := roundMag_le one_pos (by omega)
      have := magUnits_le_iff.mpr hr
      rw [f64Int_pack _ (by omega), decide_eq_false hz, if_neg (by decide)]
      exact ⟨f64IsFinite_pack _ (by omega), by omega, by omega⟩

/-- The magnitude of a product stays within a magnitude that the exact product is within. -/
theorem f64Mul_bound {x y : B64} {k : Nat} (hx : f64IsFinite x = true) (hy : f64IsFinite y = true)
    (hk : k < f64InfBits)
    (h : magUnits (f64MagBits x) * magUnits (f64MagBits y) ≤ f64One * magUnits k) :
    f64IsFinite (f64Mul x y) = true ∧ f64MagBits (f64Mul x y) ≤ k ∧
      f64Neg (f64Mul x y) = (f64Neg x != f64Neg y) := by
  have hr := roundMag_le (show 0 < f64One by unfold f64One; positivity) h
  have hi := f64InfBits_lt
  rw [f64Mul_finite hx hy]
  exact ⟨f64IsFinite_pack _ (by omega), by rw [f64MagBits_pack _ (by omega)]; exact hr,
    f64Neg_pack _ (by omega)⟩

/-- The magnitude bits of a positive integer below 2^53. -/
theorem exists_magUnits_nat {n : Nat} (hn : n < 2 ^ 53) :
    ∃ k < f64InfBits, magUnits k = n * f64One := by
  by_cases h0 : n = 0
  · exact ⟨0, by decide, by rw [h0, magUnits_zero, Nat.zero_mul]⟩
  · have h1 := Nat.log2_self_le h0
    have h2 : n < 2 ^ (Nat.log2 n + 1) := Nat.lt_log2_self
    have he : Nat.log2 n < 53 := (Nat.log2_lt h0).mpr hn
    generalize Nat.log2 n = e at *
    have hm1 : 2 ^ 52 ≤ n * 2 ^ (52 - e) := by
      rw [show 52 = e + (52 - e) by omega, pow_add, Nat.add_sub_cancel_left]
      exact Nat.mul_le_mul_right _ h1
    have hm2 : n * 2 ^ (52 - e) < 2 ^ 53 := by
      rw [show 53 = e + 1 + (52 - e) by omega, pow_add]
      exact Nat.mul_lt_mul_of_pos_right h2 (by positivity)
    refine ⟨(1022 + e) * 2 ^ 52 + n * 2 ^ (52 - e), ?_, ?_⟩
    · unfold f64InfBits
      omega
    · rw [magUnits_steps _ _ hm2.le (.inr hm1), f64One, Nat.mul_assoc, ← pow_add,
        show 52 - e + (1022 + e) = 1074 by omega]

/-- An integer of magnitude below 2^53 is converted exactly (40_quantizer.md R102). -/
theorem f64OfInt_exact {n : Int} (hn : n.natAbs < 2 ^ 53) :
    f64IsFinite (f64OfInt n) = true ∧ magUnits (f64MagBits (f64OfInt n)) = n.natAbs * f64One ∧
      f64Neg (f64OfInt n) = decide (n < 0) := by
  obtain ⟨k, hk, hu⟩ := exists_magUnits_nat hn
  have hr : roundMag (n.natAbs * f64One) 1 = k :=
    roundMag_exact one_pos hk.le (by rw [hu, Nat.one_mul])
  have hi := f64InfBits_lt
  rw [f64OfInt, hr, f64MagBits_pack _ (by omega), f64Neg_pack _ (by omega)]
  exact ⟨f64IsFinite_pack _ hk, hu, rfl⟩

end Sys2Proof.Machine
end

