-- ==== Sys2Proof/Laws/State.lean ====
section
/-! SUPPORT. One lemma per field per named update of the state: what the update leaves in the field.
Generated by a script from the list of fields; true by unfolding the update once. -/

namespace Sys2Proof.Machine

variable (s : State)

/-! ### raiseError -/

@[simp] theorem State.raiseError_width (c : ErrCode) : (s.raiseError c).width = s.width := rfl
@[simp] theorem State.raiseError_signed (c : ErrCode) : (s.raiseError c).signed = s.signed := rfl
@[simp] theorem State.raiseError_mif (c : ErrCode) : (s.raiseError c).mif = s.mif := rfl
@[simp] theorem State.raiseError_ampEn (c : ErrCode) : (s.raiseError c).ampEn = s.ampEn := rfl
@[simp] theorem State.raiseError_lengthReg (c : ErrCode) : (s.raiseError c).lengthReg = s.lengthReg := rfl
@[simp] theorem State.raiseError_amplitudeReg (c : ErrCode) : (s.raiseError c).amplitudeReg = s.amplitudeReg := rfl
@[simp] theorem State.raiseError_offsetLo (c : ErrCode) : (s.raiseError c).offsetLo = s.offsetLo := rfl
@[simp] theorem State.raiseError_offsetHi (c : ErrCode) : (s.raiseError c).offsetHi = s.offsetHi := rfl
@[simp] theorem State.raiseError_pend (c : ErrCode) : (s.raiseError c).pend = s.pend := rfl
@[simp] theorem State.raiseError_err (c : ErrCode) : (s.raiseError c).err = c := rfl
@[simp] theorem State.raiseError_sticky (c : ErrCode) : (s.raiseError c).sticky = true := rfl
@[simp] theorem State.raiseError_seqValid (c : ErrCode) : (s.raiseError c).seqValid = s.seqValid := rfl
@[simp] theorem State.raiseError_seqSine (c : ErrCode) : (s.raiseError c).seqSine = s.seqSine := rfl
@[simp] theorem State.raiseError_seqWidth (c : ErrCode) : (s.raiseError c).seqWidth = s.seqWidth := rfl
@[simp] theorem State.raiseError_inOvf (c : ErrCode) : (s.raiseError c).inOvf = s.inOvf := rfl
@[simp] theorem State.raiseError_cmOvf (c : ErrCode) : (s.raiseError c).cmOvf = s.cmOvf := rfl
@[simp] theorem State.raiseError_inBuf (c : ErrCode) : (s.raiseError c).inBuf = s.inBuf := rfl
@[simp] theorem State.raiseError_cmBuf (c : ErrCode) : (s.raiseError c).cmBuf = s.cmBuf := rfl
@[simp] theorem State.raiseError_seq (c : ErrCode) : (s.raiseError c).seq = s.seq := rfl
@[simp] theorem State.raiseError_out (c : ErrCode) : (s.raiseError c).out = s.out := rfl
@[simp] theorem State.raiseError_outRp (c : ErrCode) : (s.raiseError c).outRp = s.outRp := rfl
@[simp] theorem State.raiseError_inCapR (c : ErrCode) : (s.raiseError c).inCapR = s.inCapR := rfl
@[simp] theorem State.raiseError_cmCapR (c : ErrCode) : (s.raiseError c).cmCapR = s.cmCapR := rfl
@[simp] theorem State.raiseError_seqCapR (c : ErrCode) : (s.raiseError c).seqCapR = s.seqCapR := rfl
@[simp] theorem State.raiseError_outCapR (c : ErrCode) : (s.raiseError c).outCapR = s.outCapR := rfl
@[simp] theorem State.raiseError_base (c : ErrCode) : (s.raiseError c).base = s.base := rfl
@[simp] theorem State.raiseError_qarith (c : ErrCode) : (s.raiseError c).qarith = s.qarith := rfl
@[simp] theorem State.raiseError_sin64Known (c : ErrCode) : (s.raiseError c).sin64Known = s.sin64Known := rfl
@[simp] theorem State.raiseError_inputs (c : ErrCode) : (s.raiseError c).inputs = s.inputs := rfl
@[simp] theorem State.raiseError_latency (c : ErrCode) : (s.raiseError c).latency = s.latency := rfl
@[simp] theorem State.raiseError_wait (c : ErrCode) : (s.raiseError c).wait = s.wait := rfl
@[simp] theorem State.raiseError_awaitingIdle (c : ErrCode) : (s.raiseError c).awaitingIdle = s.awaitingIdle := rfl
@[simp] theorem State.raiseError_reads (c : ErrCode) : (s.raiseError c).reads = s.reads := rfl

/-! ### succeed -/

@[simp] theorem State.succeed_width : s.succeed.width = s.width := rfl
@[simp] theorem State.succeed_signed : s.succeed.signed = s.signed := rfl
@[simp] theorem State.succeed_mif : s.succeed.mif = s.mif := rfl
@[simp] theorem State.succeed_ampEn : s.succeed.ampEn = s.ampEn := rfl
@[simp] theorem State.succeed_lengthReg : s.succeed.lengthReg = s.lengthReg := rfl
@[simp] theorem State.succeed_amplitudeReg : s.succeed.amplitudeReg = s.amplitudeReg := rfl
@[simp] theorem State.succeed_offsetLo : s.succeed.offsetLo = s.offsetLo := rfl
@[simp] theorem State.succeed_offsetHi : s.succeed.offsetHi = s.offsetHi := rfl
@[simp] theorem State.succeed_pend : s.succeed.pend = s.pend := rfl
@[simp] theorem State.succeed_err : s.succeed.err = .none := rfl
@[simp] theorem State.succeed_sticky : s.succeed.sticky = s.sticky := rfl
@[simp] theorem State.succeed_seqValid : s.succeed.seqValid = s.seqValid := rfl
@[simp] theorem State.succeed_seqSine : s.succeed.seqSine = s.seqSine := rfl
@[simp] theorem State.succeed_seqWidth : s.succeed.seqWidth = s.seqWidth := rfl
@[simp] theorem State.succeed_inOvf : s.succeed.inOvf = s.inOvf := rfl
@[simp] theorem State.succeed_cmOvf : s.succeed.cmOvf = s.cmOvf := rfl
@[simp] theorem State.succeed_inBuf : s.succeed.inBuf = s.inBuf := rfl
@[simp] theorem State.succeed_cmBuf : s.succeed.cmBuf = s.cmBuf := rfl
@[simp] theorem State.succeed_seq : s.succeed.seq = s.seq := rfl
@[simp] theorem State.succeed_out : s.succeed.out = s.out := rfl
@[simp] theorem State.succeed_outRp : s.succeed.outRp = s.outRp := rfl
@[simp] theorem State.succeed_inCapR : s.succeed.inCapR = s.inCapR := rfl
@[simp] theorem State.succeed_cmCapR : s.succeed.cmCapR = s.cmCapR := rfl
@[simp] theorem State.succeed_seqCapR : s.succeed.seqCapR = s.seqCapR := rfl
@[simp] theorem State.succeed_outCapR : s.succeed.outCapR = s.outCapR := rfl
@[simp] theorem State.succeed_base : s.succeed.base = s.base := rfl
@[simp] theorem State.succeed_qarith : s.succeed.qarith = s.qarith := rfl
@[simp] theorem State.succeed_sin64Known : s.succeed.sin64Known = s.sin64Known := rfl
@[simp] theorem State.succeed_inputs : s.succeed.inputs = s.inputs := rfl
@[simp] theorem State.succeed_latency : s.succeed.latency = s.latency := rfl
@[simp] theorem State.succeed_wait : s.succeed.wait = s.wait := rfl
@[simp] theorem State.succeed_awaitingIdle : s.succeed.awaitingIdle = s.awaitingIdle := rfl
@[simp] theorem State.succeed_reads : s.succeed.reads = s.reads := rfl

/-! ### retire -/

@[simp] theorem State.retire_width : s.retire.width = s.width := rfl
@[simp] theorem State.retire_signed : s.retire.signed = s.signed := rfl
@[simp] theorem State.retire_mif : s.retire.mif = s.mif := rfl
@[simp] theorem State.retire_ampEn : s.retire.ampEn = s.ampEn := rfl
@[simp] theorem State.retire_lengthReg : s.retire.lengthReg = s.lengthReg := rfl
@[simp] theorem State.retire_amplitudeReg : s.retire.amplitudeReg = s.amplitudeReg := rfl
@[simp] theorem State.retire_offsetLo : s.retire.offsetLo = s.offsetLo := rfl
@[simp] theorem State.retire_offsetHi : s.retire.offsetHi = s.offsetHi := rfl
@[simp] theorem State.retire_pend : s.retire.pend = Option.none := rfl
@[simp] theorem State.retire_err : s.retire.err = s.err := rfl
@[simp] theorem State.retire_sticky : s.retire.sticky = s.sticky := rfl
@[simp] theorem State.retire_seqValid : s.retire.seqValid = s.seqValid := rfl
@[simp] theorem State.retire_seqSine : s.retire.seqSine = s.seqSine := rfl
@[simp] theorem State.retire_seqWidth : s.retire.seqWidth = s.seqWidth := rfl
@[simp] theorem State.retire_inOvf : s.retire.inOvf = s.inOvf := rfl
@[simp] theorem State.retire_cmOvf : s.retire.cmOvf = s.cmOvf := rfl
@[simp] theorem State.retire_inBuf : s.retire.inBuf = s.inBuf := rfl
@[simp] theorem State.retire_cmBuf : s.retire.cmBuf = s.cmBuf := rfl
@[simp] theorem State.retire_seq : s.retire.seq = s.seq := rfl
@[simp] theorem State.retire_out : s.retire.out = s.out := rfl
@[simp] theorem State.retire_outRp : s.retire.outRp = s.outRp := rfl
@[simp] theorem State.retire_inCapR : s.retire.inCapR = s.inCapR := rfl
@[simp] theorem State.retire_cmCapR : s.retire.cmCapR = s.cmCapR := rfl
@[simp] theorem State.retire_seqCapR : s.retire.seqCapR = s.seqCapR := rfl
@[simp] theorem State.retire_outCapR : s.retire.outCapR = s.outCapR := rfl
@[simp] theorem State.retire_base : s.retire.base = s.base := rfl
@[simp] theorem State.retire_qarith : s.retire.qarith = s.qarith := rfl
@[simp] theorem State.retire_sin64Known : s.retire.sin64Known = s.sin64Known := rfl
@[simp] theorem State.retire_inputs : s.retire.inputs = s.inputs := rfl
@[simp] theorem State.retire_latency : s.retire.latency = s.latency := rfl
@[simp] theorem State.retire_wait : s.retire.wait = s.wait := rfl
@[simp] theorem State.retire_awaitingIdle : s.retire.awaitingIdle = s.awaitingIdle := rfl
@[simp] theorem State.retire_reads : s.retire.reads = s.reads := rfl

/-! ### storeSeq -/

@[simp] theorem State.storeSeq_width (l : List Int) (b : Bool) (w : BitVec 6) : (s.storeSeq l b w).width = s.width := rfl
@[simp] theorem State.storeSeq_signed (l : List Int) (b : Bool) (w : BitVec 6) : (s.storeSeq l b w).signed = s.signed := rfl
@[simp] theorem State.storeSeq_mif (l : List Int) (b : Bool) (w : BitVec 6) : (s.storeSeq l b w).mif = s.mif := rfl
@[simp] theorem State.storeSeq_ampEn (l : List Int) (b : Bool) (w : BitVec 6) : (s.storeSeq l b w).ampEn = s.ampEn := rfl
@[simp] theorem State.storeSeq_lengthReg (l : List Int) (b : Bool) (w : BitVec 6) : (s.storeSeq l b w).lengthReg = s.lengthReg := rfl
@[simp] theorem State.storeSeq_amplitudeReg (l : List Int) (b : Bool) (w : BitVec 6) : (s.storeSeq l b w).amplitudeReg = s.amplitudeReg := rfl
@[simp] theorem State.storeSeq_offsetLo (l : List Int) (b : Bool) (w : BitVec 6) : (s.storeSeq l b w).offsetLo = s.offsetLo := rfl
@[simp] theorem State.storeSeq_offsetHi (l : List Int) (b : Bool) (w : BitVec 6) : (s.storeSeq l b w).offsetHi = s.offsetHi := rfl
@[simp] theorem State.storeSeq_pend (l : List Int) (b : Bool) (w : BitVec 6) : (s.storeSeq l b w).pend = s.pend := rfl
@[simp] theorem State.storeSeq_err (l : List Int) (b : Bool) (w : BitVec 6) : (s.storeSeq l b w).err = s.err := rfl
@[simp] theorem State.storeSeq_sticky (l : List Int) (b : Bool) (w : BitVec 6) : (s.storeSeq l b w).sticky = s.sticky := rfl
@[simp] theorem State.storeSeq_seqValid (l : List Int) (b : Bool) (w : BitVec 6) : (s.storeSeq l b w).seqValid = true := rfl
@[simp] theorem State.storeSeq_seqSine (l : List Int) (b : Bool) (w : BitVec 6) : (s.storeSeq l b w).seqSine = b := rfl
@[simp] theorem State.storeSeq_seqWidth (l : List Int) (b : Bool) (w : BitVec 6) : (s.storeSeq l b w).seqWidth = w := rfl
@[simp] theorem State.storeSeq_inOvf (l : List Int) (b : Bool) (w : BitVec 6) : (s.storeSeq l b w).inOvf = s.inOvf := rfl
@[simp] theorem State.storeSeq_cmOvf (l : List Int) (b : Bool) (w : BitVec 6) : (s.storeSeq l b w).cmOvf = s.cmOvf := rfl
@[simp] theorem State.storeSeq_inBuf (l : List Int) (b : Bool) (w : BitVec 6) : (s.storeSeq l b w).inBuf = s.inBuf := rfl
@[simp] theorem State.storeSeq_cmBuf (l : List Int) (b : Bool) (w : BitVec 6) : (s.storeSeq l b w).cmBuf = s.cmBuf := rfl
@[simp] theorem State.storeSeq_seq (l : List Int) (b : Bool) (w : BitVec 6) : (s.storeSeq l b w).seq = l := rfl
@[simp] theorem State.storeSeq_out (l : List Int) (b : Bool) (w : BitVec 6) : (s.storeSeq l b w).out = s.out := rfl
@[simp] theorem State.storeSeq_outRp (l : List Int) (b : Bool) (w : BitVec 6) : (s.storeSeq l b w).outRp = s.outRp := rfl
@[simp] theorem State.storeSeq_inCapR (l : List Int) (b : Bool) (w : BitVec 6) : (s.storeSeq l b w).inCapR = s.inCapR := rfl
@[simp] theorem State.storeSeq_cmCapR (l : List Int) (b : Bool) (w : BitVec 6) : (s.storeSeq l b w).cmCapR = s.cmCapR := rfl
@[simp] theorem State.storeSeq_seqCapR (l : List Int) (b : Bool) (w : BitVec 6) : (s.storeSeq l b w).seqCapR = s.seqCapR := rfl
@[simp] theorem State.storeSeq_outCapR (l : List Int) (b : Bool) (w : BitVec 6) : (s.storeSeq l b w).outCapR = s.outCapR := rfl
@[simp] theorem State.storeSeq_base (l : List Int) (b : Bool) (w : BitVec 6) : (s.storeSeq l b w).base = s.base := rfl
@[simp] theorem State.storeSeq_qarith (l : List Int) (b : Bool) (w : BitVec 6) : (s.storeSeq l b w).qarith = s.qarith := rfl
@[simp] theorem State.storeSeq_sin64Known (l : List Int) (b : Bool) (w : BitVec 6) : (s.storeSeq l b w).sin64Known = s.sin64Known := rfl
@[simp] theorem State.storeSeq_inputs (l : List Int) (b : Bool) (w : BitVec 6) : (s.storeSeq l b w).inputs = s.inputs := rfl
@[simp] theorem State.storeSeq_latency (l : List Int) (b : Bool) (w : BitVec 6) : (s.storeSeq l b w).latency = s.latency := rfl
@[simp] theorem State.storeSeq_wait (l : List Int) (b : Bool) (w : BitVec 6) : (s.storeSeq l b w).wait = s.wait := rfl
@[simp] theorem State.storeSeq_awaitingIdle (l : List Int) (b : Bool) (w : BitVec 6) : (s.storeSeq l b w).awaitingIdle = s.awaitingIdle := rfl
@[simp] theorem State.storeSeq_reads (l : List Int) (b : Bool) (w : BitVec 6) : (s.storeSeq l b w).reads = s.reads := rfl

/-! ### storeOut -/

@[simp] theorem State.storeOut_width (d : List Byte) : (s.storeOut d).width = s.width := rfl
@[simp] theorem State.storeOut_signed (d : List Byte) : (s.storeOut d).signed = s.signed := rfl
@[simp] theorem State.storeOut_mif (d : List Byte) : (s.storeOut d).mif = s.mif := rfl
@[simp] theorem State.storeOut_ampEn (d : List Byte) : (s.storeOut d).ampEn = s.ampEn := rfl
@[simp] theorem State.storeOut_lengthReg (d : List Byte) : (s.storeOut d).lengthReg = s.lengthReg := rfl
@[simp] theorem State.storeOut_amplitudeReg (d : List Byte) : (s.storeOut d).amplitudeReg = s.amplitudeReg := rfl
@[simp] theorem State.storeOut_offsetLo (d : List Byte) : (s.storeOut d).offsetLo = s.offsetLo := rfl
@[simp] theorem State.storeOut_offsetHi (d : List Byte) : (s.storeOut d).offsetHi = s.offsetHi := rfl
@[simp] theorem State.storeOut_pend (d : List Byte) : (s.storeOut d).pend = s.pend := rfl
@[simp] theorem State.storeOut_err (d : List Byte) : (s.storeOut d).err = s.err := rfl
@[simp] theorem State.storeOut_sticky (d : List Byte) : (s.storeOut d).sticky = s.sticky := rfl
@[simp] theorem State.storeOut_seqValid (d : List Byte) : (s.storeOut d).seqValid = s.seqValid := rfl
@[simp] theorem State.storeOut_seqSine (d : List Byte) : (s.storeOut d).seqSine = s.seqSine := rfl
@[simp] theorem State.storeOut_seqWidth (d : List Byte) : (s.storeOut d).seqWidth = s.seqWidth := rfl
@[simp] theorem State.storeOut_inOvf (d : List Byte) : (s.storeOut d).inOvf = s.inOvf := rfl
@[simp] theorem State.storeOut_cmOvf (d : List Byte) : (s.storeOut d).cmOvf = s.cmOvf := rfl
@[simp] theorem State.storeOut_inBuf (d : List Byte) : (s.storeOut d).inBuf = s.inBuf := rfl
@[simp] theorem State.storeOut_cmBuf (d : List Byte) : (s.storeOut d).cmBuf = s.cmBuf := rfl
@[simp] theorem State.storeOut_seq (d : List Byte) : (s.storeOut d).seq = s.seq := rfl
@[simp] theorem State.storeOut_out (d : List Byte) : (s.storeOut d).out = d := rfl
@[simp] theorem State.storeOut_outRp (d : List Byte) : (s.storeOut d).outRp = 0 := rfl
@[simp] theorem State.storeOut_inCapR (d : List Byte) : (s.storeOut d).inCapR = s.inCapR := rfl
@[simp] theorem State.storeOut_cmCapR (d : List Byte) : (s.storeOut d).cmCapR = s.cmCapR := rfl
@[simp] theorem State.storeOut_seqCapR (d : List Byte) : (s.storeOut d).seqCapR = s.seqCapR := rfl
@[simp] theorem State.storeOut_outCapR (d : List Byte) : (s.storeOut d).outCapR = s.outCapR := rfl
@[simp] theorem State.storeOut_base (d : List Byte) : (s.storeOut d).base = s.base := rfl
@[simp] theorem State.storeOut_qarith (d : List Byte) : (s.storeOut d).qarith = s.qarith := rfl
@[simp] theorem State.storeOut_sin64Known (d : List Byte) : (s.storeOut d).sin64Known = s.sin64Known := rfl
@[simp] theorem State.storeOut_inputs (d : List Byte) : (s.storeOut d).inputs = s.inputs := rfl
@[simp] theorem State.storeOut_latency (d : List Byte) : (s.storeOut d).latency = s.latency := rfl
@[simp] theorem State.storeOut_wait (d : List Byte) : (s.storeOut d).wait = s.wait := rfl
@[simp] theorem State.storeOut_awaitingIdle (d : List Byte) : (s.storeOut d).awaitingIdle = s.awaitingIdle := rfl
@[simp] theorem State.storeOut_reads (d : List Byte) : (s.storeOut d).reads = s.reads := rfl

/-! ### emptyIn -/

@[simp] theorem State.emptyIn_width : s.emptyIn.width = s.width := rfl
@[simp] theorem State.emptyIn_signed : s.emptyIn.signed = s.signed := rfl
@[simp] theorem State.emptyIn_mif : s.emptyIn.mif = s.mif := rfl
@[simp] theorem State.emptyIn_ampEn : s.emptyIn.ampEn = s.ampEn := rfl
@[simp] theorem State.emptyIn_lengthReg : s.emptyIn.lengthReg = s.lengthReg := rfl
@[simp] theorem State.emptyIn_amplitudeReg : s.emptyIn.amplitudeReg = s.amplitudeReg := rfl
@[simp] theorem State.emptyIn_offsetLo : s.emptyIn.offsetLo = s.offsetLo := rfl
@[simp] theorem State.emptyIn_offsetHi : s.emptyIn.offsetHi = s.offsetHi := rfl
@[simp] theorem State.emptyIn_pend : s.emptyIn.pend = s.pend := rfl
@[simp] theorem State.emptyIn_err : s.emptyIn.err = s.err := rfl
@[simp] theorem State.emptyIn_sticky : s.emptyIn.sticky = s.sticky := rfl
@[simp] theorem State.emptyIn_seqValid : s.emptyIn.seqValid = s.seqValid := rfl
@[simp] theorem State.emptyIn_seqSine : s.emptyIn.seqSine = s.seqSine := rfl
@[simp] theorem State.emptyIn_seqWidth : s.emptyIn.seqWidth = s.seqWidth := rfl
@[simp] theorem State.emptyIn_inOvf : s.emptyIn.inOvf = false := rfl
@[simp] theorem State.emptyIn_cmOvf : s.emptyIn.cmOvf = s.cmOvf := rfl
@[simp] theorem State.emptyIn_inBuf : s.emptyIn.inBuf = [] := rfl
@[simp] theorem State.emptyIn_cmBuf : s.emptyIn.cmBuf = s.cmBuf := rfl
@[simp] theorem State.emptyIn_seq : s.emptyIn.seq = s.seq := rfl
@[simp] theorem State.emptyIn_out : s.emptyIn.out = s.out := rfl
@[simp] theorem State.emptyIn_outRp : s.emptyIn.outRp = s.outRp := rfl
@[simp] theorem State.emptyIn_inCapR : s.emptyIn.inCapR = s.inCapR := rfl
@[simp] theorem State.emptyIn_cmCapR : s.emptyIn.cmCapR = s.cmCapR := rfl
@[simp] theorem State.emptyIn_seqCapR : s.emptyIn.seqCapR = s.seqCapR := rfl
@[simp] theorem State.emptyIn_outCapR : s.emptyIn.outCapR = s.outCapR := rfl
@[simp] theorem State.emptyIn_base : s.emptyIn.base = s.base := rfl
@[simp] theorem State.emptyIn_qarith : s.emptyIn.qarith = s.qarith := rfl
@[simp] theorem State.emptyIn_sin64Known : s.emptyIn.sin64Known = s.sin64Known := rfl
@[simp] theorem State.emptyIn_inputs : s.emptyIn.inputs = s.inputs := rfl
@[simp] theorem State.emptyIn_latency : s.emptyIn.latency = s.latency := rfl
@[simp] theorem State.emptyIn_wait : s.emptyIn.wait = s.wait := rfl
@[simp] theorem State.emptyIn_awaitingIdle : s.emptyIn.awaitingIdle = s.awaitingIdle := rfl
@[simp] theorem State.emptyIn_reads : s.emptyIn.reads = s.reads := rfl

/-! ### emptyCm -/

@[simp] theorem State.emptyCm_width : s.emptyCm.width = s.width := rfl
@[simp] theorem State.emptyCm_signed : s.emptyCm.signed = s.signed := rfl
@[simp] theorem State.emptyCm_mif : s.emptyCm.mif = s.mif := rfl
@[simp] theorem State.emptyCm_ampEn : s.emptyCm.ampEn = s.ampEn := rfl
@[simp] theorem State.emptyCm_lengthReg : s.emptyCm.lengthReg = s.lengthReg := rfl
@[simp] theorem State.emptyCm_amplitudeReg : s.emptyCm.amplitudeReg = s.amplitudeReg := rfl
@[simp] theorem State.emptyCm_offsetLo : s.emptyCm.offsetLo = s.offsetLo := rfl
@[simp] theorem State.emptyCm_offsetHi : s.emptyCm.offsetHi = s.offsetHi := rfl
@[simp] theorem State.emptyCm_pend : s.emptyCm.pend = s.pend := rfl
@[simp] theorem State.emptyCm_err : s.emptyCm.err = s.err := rfl
@[simp] theorem State.emptyCm_sticky : s.emptyCm.sticky = s.sticky := rfl
@[simp] theorem State.emptyCm_seqValid : s.emptyCm.seqValid = s.seqValid := rfl
@[simp] theorem State.emptyCm_seqSine : s.emptyCm.seqSine = s.seqSine := rfl
@[simp] theorem State.emptyCm_seqWidth : s.emptyCm.seqWidth = s.seqWidth := rfl
@[simp] theorem State.emptyCm_inOvf : s.emptyCm.inOvf = s.inOvf := rfl
@[simp] theorem State.emptyCm_cmOvf : s.emptyCm.cmOvf = false := rfl
@[simp] theorem State.emptyCm_inBuf : s.emptyCm.inBuf = s.inBuf := rfl
@[simp] theorem State.emptyCm_cmBuf : s.emptyCm.cmBuf = [] := rfl
@[simp] theorem State.emptyCm_seq : s.emptyCm.seq = s.seq := rfl
@[simp] theorem State.emptyCm_out : s.emptyCm.out = s.out := rfl
@[simp] theorem State.emptyCm_outRp : s.emptyCm.outRp = s.outRp := rfl
@[simp] theorem State.emptyCm_inCapR : s.emptyCm.inCapR = s.inCapR := rfl
@[simp] theorem State.emptyCm_cmCapR : s.emptyCm.cmCapR = s.cmCapR := rfl
@[simp] theorem State.emptyCm_seqCapR : s.emptyCm.seqCapR = s.seqCapR := rfl
@[simp] theorem State.emptyCm_outCapR : s.emptyCm.outCapR = s.outCapR := rfl
@[simp] theorem State.emptyCm_base : s.emptyCm.base = s.base := rfl
@[simp] theorem State.emptyCm_qarith : s.emptyCm.qarith = s.qarith := rfl
@[simp] theorem State.emptyCm_sin64Known : s.emptyCm.sin64Known = s.sin64Known := rfl
@[simp] theorem State.emptyCm_inputs : s.emptyCm.inputs = s.inputs := rfl
@[simp] theorem State.emptyCm_latency : s.emptyCm.latency = s.latency := rfl
@[simp] theorem State.emptyCm_wait : s.emptyCm.wait = s.wait := rfl
@[simp] theorem State.emptyCm_awaitingIdle : s.emptyCm.awaitingIdle = s.awaitingIdle := rfl
@[simp] theorem State.emptyCm_reads : s.emptyCm.reads = s.reads := rfl

/-! ### popOut -/

@[simp] theorem State.popOut_width : s.popOut.width = s.width := rfl
@[simp] theorem State.popOut_signed : s.popOut.signed = s.signed := rfl
@[simp] theorem State.popOut_mif : s.popOut.mif = s.mif := rfl
@[simp] theorem State.popOut_ampEn : s.popOut.ampEn = s.ampEn := rfl
@[simp] theorem State.popOut_lengthReg : s.popOut.lengthReg = s.lengthReg := rfl
@[simp] theorem State.popOut_amplitudeReg : s.popOut.amplitudeReg = s.amplitudeReg := rfl
@[simp] theorem State.popOut_offsetLo : s.popOut.offsetLo = s.offsetLo := rfl
@[simp] theorem State.popOut_offsetHi : s.popOut.offsetHi = s.offsetHi := rfl
@[simp] theorem State.popOut_pend : s.popOut.pend = s.pend := rfl
@[simp] theorem State.popOut_err : s.popOut.err = s.err := rfl
@[simp] theorem State.popOut_sticky : s.popOut.sticky = s.sticky := rfl
@[simp] theorem State.popOut_seqValid : s.popOut.seqValid = s.seqValid := rfl
@[simp] theorem State.popOut_seqSine : s.popOut.seqSine = s.seqSine := rfl
@[simp] theorem State.popOut_seqWidth : s.popOut.seqWidth = s.seqWidth := rfl
@[simp] theorem State.popOut_inOvf : s.popOut.inOvf = s.inOvf := rfl
@[simp] theorem State.popOut_cmOvf : s.popOut.cmOvf = s.cmOvf := rfl
@[simp] theorem State.popOut_inBuf : s.popOut.inBuf = s.inBuf := rfl
@[simp] theorem State.popOut_cmBuf : s.popOut.cmBuf = s.cmBuf := rfl
@[simp] theorem State.popOut_seq : s.popOut.seq = s.seq := rfl
@[simp] theorem State.popOut_out : s.popOut.out = s.out := rfl
@[simp] theorem State.popOut_outRp : s.popOut.outRp = if s.outRp < s.out.length then s.outRp + 1 else s.outRp := rfl
@[simp] theorem State.popOut_inCapR : s.popOut.inCapR = s.inCapR := rfl
@[simp] theorem State.popOut_cmCapR : s.popOut.cmCapR = s.cmCapR := rfl
@[simp] theorem State.popOut_seqCapR : s.popOut.seqCapR = s.seqCapR := rfl
@[simp] theorem State.popOut_outCapR : s.popOut.outCapR = s.outCapR := rfl
@[simp] theorem State.popOut_base : s.popOut.base = s.base := rfl
@[simp] theorem State.popOut_qarith : s.popOut.qarith = s.qarith := rfl
@[simp] theorem State.popOut_sin64Known : s.popOut.sin64Known = s.sin64Known := rfl
@[simp] theorem State.popOut_inputs : s.popOut.inputs = s.inputs := rfl
@[simp] theorem State.popOut_latency : s.popOut.latency = s.latency := rfl
@[simp] theorem State.popOut_wait : s.popOut.wait = s.wait := rfl
@[simp] theorem State.popOut_awaitingIdle : s.popOut.awaitingIdle = s.awaitingIdle := rfl
@[simp] theorem State.popOut_reads : s.popOut.reads = s.reads := rfl

/-! ### toReset -/

@[simp] theorem State.toReset_width : s.toReset.width = 0 := rfl
@[simp] theorem State.toReset_signed : s.toReset.signed = false := rfl
@[simp] theorem State.toReset_mif : s.toReset.mif = false := rfl
@[simp] theorem State.toReset_ampEn : s.toReset.ampEn = false := rfl
@[simp] theorem State.toReset_lengthReg : s.toReset.lengthReg = 0 := rfl
@[simp] theorem State.toReset_amplitudeReg : s.toReset.amplitudeReg = 0 := rfl
@[simp] theorem State.toReset_offsetLo : s.toReset.offsetLo = 0 := rfl
@[simp] theorem State.toReset_offsetHi : s.toReset.offsetHi = 0 := rfl
@[simp] theorem State.toReset_pend : s.toReset.pend = Option.none := rfl
@[simp] theorem State.toReset_err : s.toReset.err = .none := rfl
@[simp] theorem State.toReset_sticky : s.toReset.sticky = false := rfl
@[simp] theorem State.toReset_seqValid : s.toReset.seqValid = false := rfl
@[simp] theorem State.toReset_seqSine : s.toReset.seqSine = false := rfl
@[simp] theorem State.toReset_seqWidth : s.toReset.seqWidth = 0 := rfl
@[simp] theorem State.toReset_inOvf : s.toReset.inOvf = false := rfl
@[simp] theorem State.toReset_cmOvf : s.toReset.cmOvf = false := rfl
@[simp] theorem State.toReset_inBuf : s.toReset.inBuf = [] := rfl
@[simp] theorem State.toReset_cmBuf : s.toReset.cmBuf = [] := rfl
@[simp] theorem State.toReset_seq : s.toReset.seq = [] := rfl
@[simp] theorem State.toReset_out : s.toReset.out = [] := rfl
@[simp] theorem State.toReset_outRp : s.toReset.outRp = 0 := rfl
@[simp] theorem State.toReset_inCapR : s.toReset.inCapR = s.inCapR := rfl
@[simp] theorem State.toReset_cmCapR : s.toReset.cmCapR = s.cmCapR := rfl
@[simp] theorem State.toReset_seqCapR : s.toReset.seqCapR = s.seqCapR := rfl
@[simp] theorem State.toReset_outCapR : s.toReset.outCapR = s.outCapR := rfl
@[simp] theorem State.toReset_base : s.toReset.base = s.base := rfl
@[simp] theorem State.toReset_qarith : s.toReset.qarith = s.qarith := rfl
@[simp] theorem State.toReset_sin64Known : s.toReset.sin64Known = s.sin64Known := rfl
@[simp] theorem State.toReset_inputs : s.toReset.inputs = s.inputs := rfl
@[simp] theorem State.toReset_latency : s.toReset.latency = s.latency := rfl
@[simp] theorem State.toReset_wait : s.toReset.wait = s.wait := rfl
@[simp] theorem State.toReset_awaitingIdle : s.toReset.awaitingIdle = s.awaitingIdle := rfl
@[simp] theorem State.toReset_reads : s.toReset.reads = s.reads := rfl

/-! ### issue -/

@[simp] theorem State.issue_width (v : Word) : (s.issue v).width = s.width := rfl
@[simp] theorem State.issue_signed (v : Word) : (s.issue v).signed = s.signed := rfl
@[simp] theorem State.issue_mif (v : Word) : (s.issue v).mif = s.mif := rfl
@[simp] theorem State.issue_ampEn (v : Word) : (s.issue v).ampEn = s.ampEn := rfl
@[simp] theorem State.issue_lengthReg (v : Word) : (s.issue v).lengthReg = s.lengthReg := rfl
@[simp] theorem State.issue_amplitudeReg (v : Word) : (s.issue v).amplitudeReg = s.amplitudeReg := rfl
@[simp] theorem State.issue_offsetLo (v : Word) : (s.issue v).offsetLo = s.offsetLo := rfl
@[simp] theorem State.issue_offsetHi (v : Word) : (s.issue v).offsetHi = s.offsetHi := rfl
@[simp] theorem State.issue_pend (v : Word) : (s.issue v).pend = some v := rfl
@[simp] theorem State.issue_err (v : Word) : (s.issue v).err = s.err := rfl
@[simp] theorem State.issue_sticky (v : Word) : (s.issue v).sticky = s.sticky := rfl
@[simp] theorem State.issue_seqValid (v : Word) : (s.issue v).seqValid = s.seqValid := rfl
@[simp] theorem State.issue_seqSine (v : Word) : (s.issue v).seqSine = s.seqSine := rfl
@[simp] theorem State.issue_seqWidth (v : Word) : (s.issue v).seqWidth = s.seqWidth := rfl
@[simp] theorem State.issue_inOvf (v : Word) : (s.issue v).inOvf = s.inOvf := rfl
@[simp] theorem State.issue_cmOvf (v : Word) : (s.issue v).cmOvf = s.cmOvf := rfl
@[simp] theorem State.issue_inBuf (v : Word) : (s.issue v).inBuf = s.inBuf := rfl
@[simp] theorem State.issue_cmBuf (v : Word) : (s.issue v).cmBuf = s.cmBuf := rfl
@[simp] theorem State.issue_seq (v : Word) : (s.issue v).seq = s.seq := rfl
@[simp] theorem State.issue_out (v : Word) : (s.issue v).out = s.out := rfl
@[simp] theorem State.issue_outRp (v : Word) : (s.issue v).outRp = s.outRp := rfl
@[simp] theorem State.issue_inCapR (v : Word) : (s.issue v).inCapR = s.inCapR := rfl
@[simp] theorem State.issue_cmCapR (v : Word) : (s.issue v).cmCapR = s.cmCapR := rfl
@[simp] theorem State.issue_seqCapR (v : Word) : (s.issue v).seqCapR = s.seqCapR := rfl
@[simp] theorem State.issue_outCapR (v : Word) : (s.issue v).outCapR = s.outCapR := rfl
@[simp] theorem State.issue_base (v : Word) : (s.issue v).base = s.base := rfl
@[simp] theorem State.issue_qarith (v : Word) : (s.issue v).qarith = s.qarith := rfl
@[simp] theorem State.issue_sin64Known (v : Word) : (s.issue v).sin64Known = s.sin64Known := rfl
@[simp] theorem State.issue_inputs (v : Word) : (s.issue v).inputs = s.inputs := rfl
@[simp] theorem State.issue_latency (v : Word) : (s.issue v).latency = s.latency.tail := rfl
@[simp] theorem State.issue_wait (v : Word) : (s.issue v).wait = s.latency.headD 0 := rfl
@[simp] theorem State.issue_awaitingIdle (v : Word) : (s.issue v).awaitingIdle = true := rfl
@[simp] theorem State.issue_reads (v : Word) : (s.issue v).reads = s.reads := rfl

/-! ### noteRead -/

@[simp] theorem State.noteRead_width (a : Nat) (v : Word) : (s.noteRead a v).width = s.width := rfl
@[simp] theorem State.noteRead_signed (a : Nat) (v : Word) : (s.noteRead a v).signed = s.signed := rfl
@[simp] theorem State.noteRead_mif (a : Nat) (v : Word) : (s.noteRead a v).mif = s.mif := rfl
@[simp] theorem State.noteRead_ampEn (a : Nat) (v : Word) : (s.noteRead a v).ampEn = s.ampEn := rfl
@[simp] theorem State.noteRead_lengthReg (a : Nat) (v : Word) : (s.noteRead a v).lengthReg = s.lengthReg := rfl
@[simp] theorem State.noteRead_amplitudeReg (a : Nat) (v : Word) : (s.noteRead a v).amplitudeReg = s.amplitudeReg := rfl
@[simp] theorem State.noteRead_offsetLo (a : Nat) (v : Word) : (s.noteRead a v).offsetLo = s.offsetLo := rfl
@[simp] theorem State.noteRead_offsetHi (a : Nat) (v : Word) : (s.noteRead a v).offsetHi = s.offsetHi := rfl
@[simp] theorem State.noteRead_pend (a : Nat) (v : Word) : (s.noteRead a v).pend = s.pend := rfl
@[simp] theorem State.noteRead_err (a : Nat) (v : Word) : (s.noteRead a v).err = s.err := rfl
@[simp] theorem State.noteRead_sticky (a : Nat) (v : Word) : (s.noteRead a v).sticky = s.sticky := rfl
@[simp] theorem State.noteRead_seqValid (a : Nat) (v : Word) : (s.noteRead a v).seqValid = s.seqValid := rfl
@[simp] theorem State.noteRead_seqSine (a : Nat) (v : Word) : (s.noteRead a v).seqSine = s.seqSine := rfl
@[simp] theorem State.noteRead_seqWidth (a : Nat) (v : Word) : (s.noteRead a v).seqWidth = s.seqWidth := rfl
@[simp] theorem State.noteRead_inOvf (a : Nat) (v : Word) : (s.noteRead a v).inOvf = s.inOvf := rfl
@[simp] theorem State.noteRead_cmOvf (a : Nat) (v : Word) : (s.noteRead a v).cmOvf = s.cmOvf := rfl
@[simp] theorem State.noteRead_inBuf (a : Nat) (v : Word) : (s.noteRead a v).inBuf = s.inBuf := rfl
@[simp] theorem State.noteRead_cmBuf (a : Nat) (v : Word) : (s.noteRead a v).cmBuf = s.cmBuf := rfl
@[simp] theorem State.noteRead_seq (a : Nat) (v : Word) : (s.noteRead a v).seq = s.seq := rfl
@[simp] theorem State.noteRead_out (a : Nat) (v : Word) : (s.noteRead a v).out = s.out := rfl
@[simp] theorem State.noteRead_outRp (a : Nat) (v : Word) : (s.noteRead a v).outRp = s.outRp := rfl
@[simp] theorem State.noteRead_inCapR (a : Nat) (v : Word) : (s.noteRead a v).inCapR = s.inCapR := rfl
@[simp] theorem State.noteRead_cmCapR (a : Nat) (v : Word) : (s.noteRead a v).cmCapR = s.cmCapR := rfl
@[simp] theorem State.noteRead_seqCapR (a : Nat) (v : Word) : (s.noteRead a v).seqCapR = s.seqCapR := rfl
@[simp] theorem State.noteRead_outCapR (a : Nat) (v : Word) : (s.noteRead a v).outCapR = s.outCapR := rfl
@[simp] theorem State.noteRead_base (a : Nat) (v : Word) : (s.noteRead a v).base = s.base := rfl
@[simp] theorem State.noteRead_qarith (a : Nat) (v : Word) : (s.noteRead a v).qarith = s.qarith := rfl
@[simp] theorem State.noteRead_sin64Known (a : Nat) (v : Word) : (s.noteRead a v).sin64Known = s.sin64Known := rfl
@[simp] theorem State.noteRead_inputs (a : Nat) (v : Word) : (s.noteRead a v).inputs = s.inputs := rfl
@[simp] theorem State.noteRead_latency (a : Nat) (v : Word) : (s.noteRead a v).latency = s.latency := rfl
@[simp] theorem State.noteRead_wait (a : Nat) (v : Word) : (s.noteRead a v).wait = s.wait := rfl
@[simp] theorem State.noteRead_awaitingIdle (a : Nat) (v : Word) : (s.noteRead a v).awaitingIdle = s.awaitingIdle := rfl
@[simp] theorem State.noteRead_reads (a : Nat) (v : Word) : (s.noteRead a v).reads = s.reads ++ [(a, v)] := rfl

/-! ### seeIdle -/

@[simp] theorem State.seeIdle_width : s.seeIdle.width = s.width := rfl
@[simp] theorem State.seeIdle_signed : s.seeIdle.signed = s.signed := rfl
@[simp] theorem State.seeIdle_mif : s.seeIdle.mif = s.mif := rfl
@[simp] theorem State.seeIdle_ampEn : s.seeIdle.ampEn = s.ampEn := rfl
@[simp] theorem State.seeIdle_lengthReg : s.seeIdle.lengthReg = s.lengthReg := rfl
@[simp] theorem State.seeIdle_amplitudeReg : s.seeIdle.amplitudeReg = s.amplitudeReg := rfl
@[simp] theorem State.seeIdle_offsetLo : s.seeIdle.offsetLo = s.offsetLo := rfl
@[simp] theorem State.seeIdle_offsetHi : s.seeIdle.offsetHi = s.offsetHi := rfl
@[simp] theorem State.seeIdle_pend : s.seeIdle.pend = s.pend := rfl
@[simp] theorem State.seeIdle_err : s.seeIdle.err = s.err := rfl
@[simp] theorem State.seeIdle_sticky : s.seeIdle.sticky = s.sticky := rfl
@[simp] theorem State.seeIdle_seqValid : s.seeIdle.seqValid = s.seqValid := rfl
@[simp] theorem State.seeIdle_seqSine : s.seeIdle.seqSine = s.seqSine := rfl
@[simp] theorem State.seeIdle_seqWidth : s.seeIdle.seqWidth = s.seqWidth := rfl
@[simp] theorem State.seeIdle_inOvf : s.seeIdle.inOvf = s.inOvf := rfl
@[simp] theorem State.seeIdle_cmOvf : s.seeIdle.cmOvf = s.cmOvf := rfl
@[simp] theorem State.seeIdle_inBuf : s.seeIdle.inBuf = s.inBuf := rfl
@[simp] theorem State.seeIdle_cmBuf : s.seeIdle.cmBuf = s.cmBuf := rfl
@[simp] theorem State.seeIdle_seq : s.seeIdle.seq = s.seq := rfl
@[simp] theorem State.seeIdle_out : s.seeIdle.out = s.out := rfl
@[simp] theorem State.seeIdle_outRp : s.seeIdle.outRp = s.outRp := rfl
@[simp] theorem State.seeIdle_inCapR : s.seeIdle.inCapR = s.inCapR := rfl
@[simp] theorem State.seeIdle_cmCapR : s.seeIdle.cmCapR = s.cmCapR := rfl
@[simp] theorem State.seeIdle_seqCapR : s.seeIdle.seqCapR = s.seqCapR := rfl
@[simp] theorem State.seeIdle_outCapR : s.seeIdle.outCapR = s.outCapR := rfl
@[simp] theorem State.seeIdle_base : s.seeIdle.base = s.base := rfl
@[simp] theorem State.seeIdle_qarith : s.seeIdle.qarith = s.qarith := rfl
@[simp] theorem State.seeIdle_sin64Known : s.seeIdle.sin64Known = s.sin64Known := rfl
@[simp] theorem State.seeIdle_inputs : s.seeIdle.inputs = s.inputs := rfl
@[simp] theorem State.seeIdle_latency : s.seeIdle.latency = s.latency := rfl
@[simp] theorem State.seeIdle_wait : s.seeIdle.wait = s.wait := rfl
@[simp] theorem State.seeIdle_awaitingIdle : s.seeIdle.awaitingIdle = false := rfl
@[simp] theorem State.seeIdle_reads : s.seeIdle.reads = s.reads := rfl

/-! ### hardReset -/

@[simp] theorem State.hardReset_width : s.hardReset.width = 0 := rfl
@[simp] theorem State.hardReset_signed : s.hardReset.signed = false := rfl
@[simp] theorem State.hardReset_mif : s.hardReset.mif = false := rfl
@[simp] theorem State.hardReset_ampEn : s.hardReset.ampEn = false := rfl
@[simp] theorem State.hardReset_lengthReg : s.hardReset.lengthReg = 0 := rfl
@[simp] theorem State.hardReset_amplitudeReg : s.hardReset.amplitudeReg = 0 := rfl
@[simp] theorem State.hardReset_offsetLo : s.hardReset.offsetLo = 0 := rfl
@[simp] theorem State.hardReset_offsetHi : s.hardReset.offsetHi = 0 := rfl
@[simp] theorem State.hardReset_pend : s.hardReset.pend = Option.none := rfl
@[simp] theorem State.hardReset_err : s.hardReset.err = .none := rfl
@[simp] theorem State.hardReset_sticky : s.hardReset.sticky = false := rfl
@[simp] theorem State.hardReset_seqValid : s.hardReset.seqValid = false := rfl
@[simp] theorem State.hardReset_seqSine : s.hardReset.seqSine = false := rfl
@[simp] theorem State.hardReset_seqWidth : s.hardReset.seqWidth = 0 := rfl
@[simp] theorem State.hardReset_inOvf : s.hardReset.inOvf = false := rfl
@[simp] theorem State.hardReset_cmOvf : s.hardReset.cmOvf = false := rfl
@[simp] theorem State.hardReset_inBuf : s.hardReset.inBuf = [] := rfl
@[simp] theorem State.hardReset_cmBuf : s.hardReset.cmBuf = [] := rfl
@[simp] theorem State.hardReset_seq : s.hardReset.seq = [] := rfl
@[simp] theorem State.hardReset_out : s.hardReset.out = [] := rfl
@[simp] theorem State.hardReset_outRp : s.hardReset.outRp = 0 := rfl
@[simp] theorem State.hardReset_inCapR : s.hardReset.inCapR = s.inCapR := rfl
@[simp] theorem State.hardReset_cmCapR : s.hardReset.cmCapR = s.cmCapR := rfl
@[simp] theorem State.hardReset_seqCapR : s.hardReset.seqCapR = s.seqCapR := rfl
@[simp] theorem State.hardReset_outCapR : s.hardReset.outCapR = s.outCapR := rfl
@[simp] theorem State.hardReset_base : s.hardReset.base = s.base := rfl
@[simp] theorem State.hardReset_qarith : s.hardReset.qarith = s.qarith := rfl
@[simp] theorem State.hardReset_sin64Known : s.hardReset.sin64Known = s.sin64Known := rfl
@[simp] theorem State.hardReset_inputs : s.hardReset.inputs = s.inputs := rfl
@[simp] theorem State.hardReset_latency : s.hardReset.latency = s.latency := rfl
@[simp] theorem State.hardReset_wait : s.hardReset.wait = s.wait := rfl
@[simp] theorem State.hardReset_awaitingIdle : s.hardReset.awaitingIdle = false := rfl
@[simp] theorem State.hardReset_reads : s.hardReset.reads = s.reads := rfl

/-! ### dropInput -/

@[simp] theorem State.dropInput_width : s.dropInput.width = s.width := rfl
@[simp] theorem State.dropInput_signed : s.dropInput.signed = s.signed := rfl
@[simp] theorem State.dropInput_mif : s.dropInput.mif = s.mif := rfl
@[simp] theorem State.dropInput_ampEn : s.dropInput.ampEn = s.ampEn := rfl
@[simp] theorem State.dropInput_lengthReg : s.dropInput.lengthReg = s.lengthReg := rfl
@[simp] theorem State.dropInput_amplitudeReg : s.dropInput.amplitudeReg = s.amplitudeReg := rfl
@[simp] theorem State.dropInput_offsetLo : s.dropInput.offsetLo = s.offsetLo := rfl
@[simp] theorem State.dropInput_offsetHi : s.dropInput.offsetHi = s.offsetHi := rfl
@[simp] theorem State.dropInput_pend : s.dropInput.pend = s.pend := rfl
@[simp] theorem State.dropInput_err : s.dropInput.err = s.err := rfl
@[simp] theorem State.dropInput_sticky : s.dropInput.sticky = s.sticky := rfl
@[simp] theorem State.dropInput_seqValid : s.dropInput.seqValid = s.seqValid := rfl
@[simp] theorem State.dropInput_seqSine : s.dropInput.seqSine = s.seqSine := rfl
@[simp] theorem State.dropInput_seqWidth : s.dropInput.seqWidth = s.seqWidth := rfl
@[simp] theorem State.dropInput_inOvf : s.dropInput.inOvf = s.inOvf := rfl
@[simp] theorem State.dropInput_cmOvf : s.dropInput.cmOvf = s.cmOvf := rfl
@[simp] theorem State.dropInput_inBuf : s.dropInput.inBuf = s.inBuf := rfl
@[simp] theorem State.dropInput_cmBuf : s.dropInput.cmBuf = s.cmBuf := rfl
@[simp] theorem State.dropInput_seq : s.dropInput.seq = s.seq := rfl
@[simp] theorem State.dropInput_out : s.dropInput.out = s.out := rfl
@[simp] theorem State.dropInput_outRp : s.dropInput.outRp = s.outRp := rfl
@[simp] theorem State.dropInput_inCapR : s.dropInput.inCapR = s.inCapR := rfl
@[simp] theorem State.dropInput_cmCapR : s.dropInput.cmCapR = s.cmCapR := rfl
@[simp] theorem State.dropInput_seqCapR : s.dropInput.seqCapR = s.seqCapR := rfl
@[simp] theorem State.dropInput_outCapR : s.dropInput.outCapR = s.outCapR := rfl
@[simp] theorem State.dropInput_base : s.dropInput.base = s.base := rfl
@[simp] theorem State.dropInput_qarith : s.dropInput.qarith = s.qarith := rfl
@[simp] theorem State.dropInput_sin64Known : s.dropInput.sin64Known = s.sin64Known := rfl
@[simp] theorem State.dropInput_inputs : s.dropInput.inputs = s.inputs.tail := rfl
@[simp] theorem State.dropInput_latency : s.dropInput.latency = s.latency := rfl
@[simp] theorem State.dropInput_wait : s.dropInput.wait = s.wait := rfl
@[simp] theorem State.dropInput_awaitingIdle : s.dropInput.awaitingIdle = s.awaitingIdle := rfl
@[simp] theorem State.dropInput_reads : s.dropInput.reads = s.reads := rfl

/-! ### countDown -/

@[simp] theorem State.countDown_width : s.countDown.width = s.width := rfl
@[simp] theorem State.countDown_signed : s.countDown.signed = s.signed := rfl
@[simp] theorem State.countDown_mif : s.countDown.mif = s.mif := rfl
@[simp] theorem State.countDown_ampEn : s.countDown.ampEn = s.ampEn := rfl
@[simp] theorem State.countDown_lengthReg : s.countDown.lengthReg = s.lengthReg := rfl
@[simp] theorem State.countDown_amplitudeReg : s.countDown.amplitudeReg = s.amplitudeReg := rfl
@[simp] theorem State.countDown_offsetLo : s.countDown.offsetLo = s.offsetLo := rfl
@[simp] theorem State.countDown_offsetHi : s.countDown.offsetHi = s.offsetHi := rfl
@[simp] theorem State.countDown_pend : s.countDown.pend = s.pend := rfl
@[simp] theorem State.countDown_err : s.countDown.err = s.err := rfl
@[simp] theorem State.countDown_sticky : s.countDown.sticky = s.sticky := rfl
@[simp] theorem State.countDown_seqValid : s.countDown.seqValid = s.seqValid := rfl
@[simp] theorem State.countDown_seqSine : s.countDown.seqSine = s.seqSine := rfl
@[simp] theorem State.countDown_seqWidth : s.countDown.seqWidth = s.seqWidth := rfl
@[simp] theorem State.countDown_inOvf : s.countDown.inOvf = s.inOvf := rfl
@[simp] theorem State.countDown_cmOvf : s.countDown.cmOvf = s.cmOvf := rfl
@[simp] theorem State.countDown_inBuf : s.countDown.inBuf = s.inBuf := rfl
@[simp] theorem State.countDown_cmBuf : s.countDown.cmBuf = s.cmBuf := rfl
@[simp] theorem State.countDown_seq : s.countDown.seq = s.seq := rfl
@[simp] theorem State.countDown_out : s.countDown.out = s.out := rfl
@[simp] theorem State.countDown_outRp : s.countDown.outRp = s.outRp := rfl
@[simp] theorem State.countDown_inCapR : s.countDown.inCapR = s.inCapR := rfl
@[simp] theorem State.countDown_cmCapR : s.countDown.cmCapR = s.cmCapR := rfl
@[simp] theorem State.countDown_seqCapR : s.countDown.seqCapR = s.seqCapR := rfl
@[simp] theorem State.countDown_outCapR : s.countDown.outCapR = s.outCapR := rfl
@[simp] theorem State.countDown_base : s.countDown.base = s.base := rfl
@[simp] theorem State.countDown_qarith : s.countDown.qarith = s.qarith := rfl
@[simp] theorem State.countDown_sin64Known : s.countDown.sin64Known = s.sin64Known := rfl
@[simp] theorem State.countDown_inputs : s.countDown.inputs = s.inputs := rfl
@[simp] theorem State.countDown_latency : s.countDown.latency = s.latency := rfl
@[simp] theorem State.countDown_wait : s.countDown.wait = s.wait - 1 := rfl
@[simp] theorem State.countDown_awaitingIdle : s.countDown.awaitingIdle = s.awaitingIdle := rfl
@[simp] theorem State.countDown_reads : s.countDown.reads = s.reads := rfl

/-! ### writeCtrl -/

@[simp] theorem State.writeCtrl_width (v : Word) : (s.writeCtrl v).width = v.extractLsb' 0 6 := rfl
@[simp] theorem State.writeCtrl_signed (v : Word) : (s.writeCtrl v).signed = v.getLsbD 8 := rfl
@[simp] theorem State.writeCtrl_mif (v : Word) : (s.writeCtrl v).mif = v.getLsbD 9 := rfl
@[simp] theorem State.writeCtrl_ampEn (v : Word) : (s.writeCtrl v).ampEn = v.getLsbD 10 := rfl
@[simp] theorem State.writeCtrl_lengthReg (v : Word) : (s.writeCtrl v).lengthReg = s.lengthReg := rfl
@[simp] theorem State.writeCtrl_amplitudeReg (v : Word) : (s.writeCtrl v).amplitudeReg = s.amplitudeReg := rfl
@[simp] theorem State.writeCtrl_offsetLo (v : Word) : (s.writeCtrl v).offsetLo = s.offsetLo := rfl
@[simp] theorem State.writeCtrl_offsetHi (v : Word) : (s.writeCtrl v).offsetHi = s.offsetHi := rfl
@[simp] theorem State.writeCtrl_pend (v : Word) : (s.writeCtrl v).pend = s.pend := rfl
@[simp] theorem State.writeCtrl_err (v : Word) : (s.writeCtrl v).err = s.err := rfl
@[simp] theorem State.writeCtrl_sticky (v : Word) : (s.writeCtrl v).sticky = s.sticky := rfl
@[simp] theorem State.writeCtrl_seqValid (v : Word) : (s.writeCtrl v).seqValid = s.seqValid := rfl
@[simp] theorem State.writeCtrl_seqSine (v : Word) : (s.writeCtrl v).seqSine = s.seqSine := rfl
@[simp] theorem State.writeCtrl_seqWidth (v : Word) : (s.writeCtrl v).seqWidth = s.seqWidth := rfl
@[simp] theorem State.writeCtrl_inOvf (v : Word) : (s.writeCtrl v).inOvf = s.inOvf := rfl
@[simp] theorem State.writeCtrl_cmOvf (v : Word) : (s.writeCtrl v).cmOvf = s.cmOvf := rfl
@[simp] theorem State.writeCtrl_inBuf (v : Word) : (s.writeCtrl v).inBuf = s.inBuf := rfl
@[simp] theorem State.writeCtrl_cmBuf (v : Word) : (s.writeCtrl v).cmBuf = s.cmBuf := rfl
@[simp] theorem State.writeCtrl_seq (v : Word) : (s.writeCtrl v).seq = s.seq := rfl
@[simp] theorem State.writeCtrl_out (v : Word) : (s.writeCtrl v).out = s.out := rfl
@[simp] theorem State.writeCtrl_outRp (v : Word) : (s.writeCtrl v).outRp = s.outRp := rfl
@[simp] theorem State.writeCtrl_inCapR (v : Word) : (s.writeCtrl v).inCapR = s.inCapR := rfl
@[simp] theorem State.writeCtrl_cmCapR (v : Word) : (s.writeCtrl v).cmCapR = s.cmCapR := rfl
@[simp] theorem State.writeCtrl_seqCapR (v : Word) : (s.writeCtrl v).seqCapR = s.seqCapR := rfl
@[simp] theorem State.writeCtrl_outCapR (v : Word) : (s.writeCtrl v).outCapR = s.outCapR := rfl
@[simp] theorem State.writeCtrl_base (v : Word) : (s.writeCtrl v).base = s.base := rfl
@[simp] theorem State.writeCtrl_qarith (v : Word) : (s.writeCtrl v).qarith = s.qarith := rfl
@[simp] theorem State.writeCtrl_sin64Known (v : Word) : (s.writeCtrl v).sin64Known = s.sin64Known := rfl
@[simp] theorem State.writeCtrl_inputs (v : Word) : (s.writeCtrl v).inputs = s.inputs := rfl
@[simp] theorem State.writeCtrl_latency (v : Word) : (s.writeCtrl v).latency = s.latency := rfl
@[simp] theorem State.writeCtrl_wait (v : Word) : (s.writeCtrl v).wait = s.wait := rfl
@[simp] theorem State.writeCtrl_awaitingIdle (v : Word) : (s.writeCtrl v).awaitingIdle = s.awaitingIdle := rfl
@[simp] theorem State.writeCtrl_reads (v : Word) : (s.writeCtrl v).reads = s.reads := rfl

/-! ### writeLength -/

@[simp] theorem State.writeLength_width (v : Word) : (s.writeLength v).width = s.width := rfl
@[simp] theorem State.writeLength_signed (v : Word) : (s.writeLength v).signed = s.signed := rfl
@[simp] theorem State.writeLength_mif (v : Word) : (s.writeLength v).mif = s.mif := rfl
@[simp] theorem State.writeLength_ampEn (v : Word) : (s.writeLength v).ampEn = s.ampEn := rfl
@[simp] theorem State.writeLength_lengthReg (v : Word) : (s.writeLength v).lengthReg = v := rfl
@[simp] theorem State.writeLength_amplitudeReg (v : Word) : (s.writeLength v).amplitudeReg = s.amplitudeReg := rfl
@[simp] theorem State.writeLength_offsetLo (v : Word) : (s.writeLength v).offsetLo = s.offsetLo := rfl
@[simp] theorem State.writeLength_offsetHi (v : Word) : (s.writeLength v).offsetHi = s.offsetHi := rfl
@[simp] theorem State.writeLength_pend (v : Word) : (s.writeLength v).pend = s.pend := rfl
@[simp] theorem State.writeLength_err (v : Word) : (s.writeLength v).err = s.err := rfl
@[simp] theorem State.writeLength_sticky (v : Word) : (s.writeLength v).sticky = s.sticky := rfl
@[simp] theorem State.writeLength_seqValid (v : Word) : (s.writeLength v).seqValid = s.seqValid := rfl
@[simp] theorem State.writeLength_seqSine (v : Word) : (s.writeLength v).seqSine = s.seqSine := rfl
@[simp] theorem State.writeLength_seqWidth (v : Word) : (s.writeLength v).seqWidth = s.seqWidth := rfl
@[simp] theorem State.writeLength_inOvf (v : Word) : (s.writeLength v).inOvf = s.inOvf := rfl
@[simp] theorem State.writeLength_cmOvf (v : Word) : (s.writeLength v).cmOvf = s.cmOvf := rfl
@[simp] theorem State.writeLength_inBuf (v : Word) : (s.writeLength v).inBuf = s.inBuf := rfl
@[simp] theorem State.writeLength_cmBuf (v : Word) : (s.writeLength v).cmBuf = s.cmBuf := rfl
@[simp] theorem State.writeLength_seq (v : Word) : (s.writeLength v).seq = s.seq := rfl
@[simp] theorem State.writeLength_out (v : Word) : (s.writeLength v).out = s.out := rfl
@[simp] theorem State.writeLength_outRp (v : Word) : (s.writeLength v).outRp = s.outRp := rfl
@[simp] theorem State.writeLength_inCapR (v : Word) : (s.writeLength v).inCapR = s.inCapR := rfl
@[simp] theorem State.writeLength_cmCapR (v : Word) : (s.writeLength v).cmCapR = s.cmCapR := rfl
@[simp] theorem State.writeLength_seqCapR (v : Word) : (s.writeLength v).seqCapR = s.seqCapR := rfl
@[simp] theorem State.writeLength_outCapR (v : Word) : (s.writeLength v).outCapR = s.outCapR := rfl
@[simp] theorem State.writeLength_base (v : Word) : (s.writeLength v).base = s.base := rfl
@[simp] theorem State.writeLength_qarith (v : Word) : (s.writeLength v).qarith = s.qarith := rfl
@[simp] theorem State.writeLength_sin64Known (v : Word) : (s.writeLength v).sin64Known = s.sin64Known := rfl
@[simp] theorem State.writeLength_inputs (v : Word) : (s.writeLength v).inputs = s.inputs := rfl
@[simp] theorem State.writeLength_latency (v : Word) : (s.writeLength v).latency = s.latency := rfl
@[simp] theorem State.writeLength_wait (v : Word) : (s.writeLength v).wait = s.wait := rfl
@[simp] theorem State.writeLength_awaitingIdle (v : Word) : (s.writeLength v).awaitingIdle = s.awaitingIdle := rfl
@[simp] theorem State.writeLength_reads (v : Word) : (s.writeLength v).reads = s.reads := rfl

/-! ### writeAmplitude -/

@[simp] theorem State.writeAmplitude_width (v : Word) : (s.writeAmplitude v).width = s.width := rfl
@[simp] theorem State.writeAmplitude_signed (v : Word) : (s.writeAmplitude v).signed = s.signed := rfl
@[simp] theorem State.writeAmplitude_mif (v : Word) : (s.writeAmplitude v).mif = s.mif := rfl
@[simp] theorem State.writeAmplitude_ampEn (v : Word) : (s.writeAmplitude v).ampEn = s.ampEn := rfl
@[simp] theorem State.writeAmplitude_lengthReg (v : Word) : (s.writeAmplitude v).lengthReg = s.lengthReg := rfl
@[simp] theorem State.writeAmplitude_amplitudeReg (v : Word) : (s.writeAmplitude v).amplitudeReg = v := rfl
@[simp] theorem State.writeAmplitude_offsetLo (v : Word) : (s.writeAmplitude v).offsetLo = s.offsetLo := rfl
@[simp] theorem State.writeAmplitude_offsetHi (v : Word) : (s.writeAmplitude v).offsetHi = s.offsetHi := rfl
@[simp] theorem State.writeAmplitude_pend (v : Word) : (s.writeAmplitude v).pend = s.pend := rfl
@[simp] theorem State.writeAmplitude_err (v : Word) : (s.writeAmplitude v).err = s.err := rfl
@[simp] theorem State.writeAmplitude_sticky (v : Word) : (s.writeAmplitude v).sticky = s.sticky := rfl
@[simp] theorem State.writeAmplitude_seqValid (v : Word) : (s.writeAmplitude v).seqValid = s.seqValid := rfl
@[simp] theorem State.writeAmplitude_seqSine (v : Word) : (s.writeAmplitude v).seqSine = s.seqSine := rfl
@[simp] theorem State.writeAmplitude_seqWidth (v : Word) : (s.writeAmplitude v).seqWidth = s.seqWidth := rfl
@[simp] theorem State.writeAmplitude_inOvf (v : Word) : (s.writeAmplitude v).inOvf = s.inOvf := rfl
@[simp] theorem State.writeAmplitude_cmOvf (v : Word) : (s.writeAmplitude v).cmOvf = s.cmOvf := rfl
@[simp] theorem State.writeAmplitude_inBuf (v : Word) : (s.writeAmplitude v).inBuf = s.inBuf := rfl
@[simp] theorem State.writeAmplitude_cmBuf (v : Word) : (s.writeAmplitude v).cmBuf = s.cmBuf := rfl
@[simp] theorem State.writeAmplitude_seq (v : Word) : (s.writeAmplitude v).seq = s.seq := rfl
@[simp] theorem State.writeAmplitude_out (v : Word) : (s.writeAmplitude v).out = s.out := rfl
@[simp] theorem State.writeAmplitude_outRp (v : Word) : (s.writeAmplitude v).outRp = s.outRp := rfl
@[simp] theorem State.writeAmplitude_inCapR (v : Word) : (s.writeAmplitude v).inCapR = s.inCapR := rfl
@[simp] theorem State.writeAmplitude_cmCapR (v : Word) : (s.writeAmplitude v).cmCapR = s.cmCapR := rfl
@[simp] theorem State.writeAmplitude_seqCapR (v : Word) : (s.writeAmplitude v).seqCapR = s.seqCapR := rfl
@[simp] theorem State.writeAmplitude_outCapR (v : Word) : (s.writeAmplitude v).outCapR = s.outCapR := rfl
@[simp] theorem State.writeAmplitude_base (v : Word) : (s.writeAmplitude v).base = s.base := rfl
@[simp] theorem State.writeAmplitude_qarith (v : Word) : (s.writeAmplitude v).qarith = s.qarith := rfl
@[simp] theorem State.writeAmplitude_sin64Known (v : Word) : (s.writeAmplitude v).sin64Known = s.sin64Known := rfl
@[simp] theorem State.writeAmplitude_inputs (v : Word) : (s.writeAmplitude v).inputs = s.inputs := rfl
@[simp] theorem State.writeAmplitude_latency (v : Word) : (s.writeAmplitude v).latency = s.latency := rfl
@[simp] theorem State.writeAmplitude_wait (v : Word) : (s.writeAmplitude v).wait = s.wait := rfl
@[simp] theorem State.writeAmplitude_awaitingIdle (v : Word) : (s.writeAmplitude v).awaitingIdle = s.awaitingIdle := rfl
@[simp] theorem State.writeAmplitude_reads (v : Word) : (s.writeAmplitude v).reads = s.reads := rfl

/-! ### writeOffsetLo -/

@[simp] theorem State.writeOffsetLo_width (v : Word) : (s.writeOffsetLo v).width = s.width := rfl
@[simp] theorem State.writeOffsetLo_signed (v : Word) : (s.writeOffsetLo v).signed = s.signed := rfl
@[simp] theorem State.writeOffsetLo_mif (v : Word) : (s.writeOffsetLo v).mif = s.mif := rfl
@[simp] theorem State.writeOffsetLo_ampEn (v : Word) : (s.writeOffsetLo v).ampEn = s.ampEn := rfl
@[simp] theorem State.writeOffsetLo_lengthReg (v : Word) : (s.writeOffsetLo v).lengthReg = s.lengthReg := rfl
@[simp] theorem State.writeOffsetLo_amplitudeReg (v : Word) : (s.writeOffsetLo v).amplitudeReg = s.amplitudeReg := rfl
@[simp] theorem State.writeOffsetLo_offsetLo (v : Word) : (s.writeOffsetLo v).offsetLo = v := rfl
@[simp] theorem State.writeOffsetLo_offsetHi (v : Word) : (s.writeOffsetLo v).offsetHi = s.offsetHi := rfl
@[simp] theorem State.writeOffsetLo_pend (v : Word) : (s.writeOffsetLo v).pend = s.pend := rfl
@[simp] theorem State.writeOffsetLo_err (v : Word) : (s.writeOffsetLo v).err = s.err := rfl
@[simp] theorem State.writeOffsetLo_sticky (v : Word) : (s.writeOffsetLo v).sticky = s.sticky := rfl
@[simp] theorem State.writeOffsetLo_seqValid (v : Word) : (s.writeOffsetLo v).seqValid = s.seqValid := rfl
@[simp] theorem State.writeOffsetLo_seqSine (v : Word) : (s.writeOffsetLo v).seqSine = s.seqSine := rfl
@[simp] theorem State.writeOffsetLo_seqWidth (v : Word) : (s.writeOffsetLo v).seqWidth = s.seqWidth := rfl
@[simp] theorem State.writeOffsetLo_inOvf (v : Word) : (s.writeOffsetLo v).inOvf = s.inOvf := rfl
@[simp] theorem State.writeOffsetLo_cmOvf (v : Word) : (s.writeOffsetLo v).cmOvf = s.cmOvf := rfl
@[simp] theorem State.writeOffsetLo_inBuf (v : Word) : (s.writeOffsetLo v).inBuf = s.inBuf := rfl
@[simp] theorem State.writeOffsetLo_cmBuf (v : Word) : (s.writeOffsetLo v).cmBuf = s.cmBuf := rfl
@[simp] theorem State.writeOffsetLo_seq (v : Word) : (s.writeOffsetLo v).seq = s.seq := rfl
@[simp] theorem State.writeOffsetLo_out (v : Word) : (s.writeOffsetLo v).out = s.out := rfl
@[simp] theorem State.writeOffsetLo_outRp (v : Word) : (s.writeOffsetLo v).outRp = s.outRp := rfl
@[simp] theorem State.writeOffsetLo_inCapR (v : Word) : (s.writeOffsetLo v).inCapR = s.inCapR := rfl
@[simp] theorem State.writeOffsetLo_cmCapR (v : Word) : (s.writeOffsetLo v).cmCapR = s.cmCapR := rfl
@[simp] theorem State.writeOffsetLo_seqCapR (v : Word) : (s.writeOffsetLo v).seqCapR = s.seqCapR := rfl
@[simp] theorem State.writeOffsetLo_outCapR (v : Word) : (s.writeOffsetLo v).outCapR = s.outCapR := rfl
@[simp] theorem State.writeOffsetLo_base (v : Word) : (s.writeOffsetLo v).base = s.base := rfl
@[simp] theorem State.writeOffsetLo_qarith (v : Word) : (s.writeOffsetLo v).qarith = s.qarith := rfl
@[simp] theorem State.writeOffsetLo_sin64Known (v : Word) : (s.writeOffsetLo v).sin64Known = s.sin64Known := rfl
@[simp] theorem State.writeOffsetLo_inputs (v : Word) : (s.writeOffsetLo v).inputs = s.inputs := rfl
@[simp] theorem State.writeOffsetLo_latency (v : Word) : (s.writeOffsetLo v).latency = s.latency := rfl
@[simp] theorem State.writeOffsetLo_wait (v : Word) : (s.writeOffsetLo v).wait = s.wait := rfl
@[simp] theorem State.writeOffsetLo_awaitingIdle (v : Word) : (s.writeOffsetLo v).awaitingIdle = s.awaitingIdle := rfl
@[simp] theorem State.writeOffsetLo_reads (v : Word) : (s.writeOffsetLo v).reads = s.reads := rfl

/-! ### writeOffsetHi -/

@[simp] theorem State.writeOffsetHi_width (v : Word) : (s.writeOffsetHi v).width = s.width := rfl
@[simp] theorem State.writeOffsetHi_signed (v : Word) : (s.writeOffsetHi v).signed = s.signed := rfl
@[simp] theorem State.writeOffsetHi_mif (v : Word) : (s.writeOffsetHi v).mif = s.mif := rfl
@[simp] theorem State.writeOffsetHi_ampEn (v : Word) : (s.writeOffsetHi v).ampEn = s.ampEn := rfl
@[simp] theorem State.writeOffsetHi_lengthReg (v : Word) : (s.writeOffsetHi v).lengthReg = s.lengthReg := rfl
@[simp] theorem State.writeOffsetHi_amplitudeReg (v : Word) : (s.writeOffsetHi v).amplitudeReg = s.amplitudeReg := rfl
@[simp] theorem State.writeOffsetHi_offsetLo (v : Word) : (s.writeOffsetHi v).offsetLo = s.offsetLo := rfl
@[simp] theorem State.writeOffsetHi_offsetHi (v : Word) : (s.writeOffsetHi v).offsetHi = v := rfl
@[simp] theorem State.writeOffsetHi_pend (v : Word) : (s.writeOffsetHi v).pend = s.pend := rfl
@[simp] theorem State.writeOffsetHi_err (v : Word) : (s.writeOffsetHi v).err = s.err := rfl
@[simp] theorem State.writeOffsetHi_sticky (v : Word) : (s.writeOffsetHi v).sticky = s.sticky := rfl
@[simp] theorem State.writeOffsetHi_seqValid (v : Word) : (s.writeOffsetHi v).seqValid = s.seqValid := rfl
@[simp] theorem State.writeOffsetHi_seqSine (v : Word) : (s.writeOffsetHi v).seqSine = s.seqSine := rfl
@[simp] theorem State.writeOffsetHi_seqWidth (v : Word) : (s.writeOffsetHi v).seqWidth = s.seqWidth := rfl
@[simp] theorem State.writeOffsetHi_inOvf (v : Word) : (s.writeOffsetHi v).inOvf = s.inOvf := rfl
@[simp] theorem State.writeOffsetHi_cmOvf (v : Word) : (s.writeOffsetHi v).cmOvf = s.cmOvf := rfl
@[simp] theorem State.writeOffsetHi_inBuf (v : Word) : (s.writeOffsetHi v).inBuf = s.inBuf := rfl
@[simp] theorem State.writeOffsetHi_cmBuf (v : Word) : (s.writeOffsetHi v).cmBuf = s.cmBuf := rfl
@[simp] theorem State.writeOffsetHi_seq (v : Word) : (s.writeOffsetHi v).seq = s.seq := rfl
@[simp] theorem State.writeOffsetHi_out (v : Word) : (s.writeOffsetHi v).out = s.out := rfl
@[simp] theorem State.writeOffsetHi_outRp (v : Word) : (s.writeOffsetHi v).outRp = s.outRp := rfl
@[simp] theorem State.writeOffsetHi_inCapR (v : Word) : (s.writeOffsetHi v).inCapR = s.inCapR := rfl
@[simp] theorem State.writeOffsetHi_cmCapR (v : Word) : (s.writeOffsetHi v).cmCapR = s.cmCapR := rfl
@[simp] theorem State.writeOffsetHi_seqCapR (v : Word) : (s.writeOffsetHi v).seqCapR = s.seqCapR := rfl
@[simp] theorem State.writeOffsetHi_outCapR (v : Word) : (s.writeOffsetHi v).outCapR = s.outCapR := rfl
@[simp] theorem State.writeOffsetHi_base (v : Word) : (s.writeOffsetHi v).base = s.base := rfl
@[simp] theorem State.writeOffsetHi_qarith (v : Word) : (s.writeOffsetHi v).qarith = s.qarith := rfl
@[simp] theorem State.writeOffsetHi_sin64Known (v : Word) : (s.writeOffsetHi v).sin64Known = s.sin64Known := rfl
@[simp] theorem State.writeOffsetHi_inputs (v : Word) : (s.writeOffsetHi v).inputs = s.inputs := rfl
@[simp] theorem State.writeOffsetHi_latency (v : Word) : (s.writeOffsetHi v).latency = s.latency := rfl
@[simp] theorem State.writeOffsetHi_wait (v : Word) : (s.writeOffsetHi v).wait = s.wait := rfl
@[simp] theorem State.writeOffsetHi_awaitingIdle (v : Word) : (s.writeOffsetHi v).awaitingIdle = s.awaitingIdle := rfl
@[simp] theorem State.writeOffsetHi_reads (v : Word) : (s.writeOffsetHi v).reads = s.reads := rfl

/-! ### appendIn -/

theorem State.appendIn_room (b : Byte) (h : s.inBuf.length < s.inCapR.toNat) :
    s.appendIn b = { s with inBuf := s.inBuf ++ [b] } := if_pos h

theorem State.appendIn_full (b : Byte) (h : ¬ s.inBuf.length < s.inCapR.toNat) :
    s.appendIn b = { s with inOvf := true } := if_neg h

@[simp] theorem State.appendIn_width (b : Byte) : (s.appendIn b).width = s.width := by
  unfold State.appendIn; split <;> rfl
@[simp] theorem State.appendIn_signed (b : Byte) : (s.appendIn b).signed = s.signed := by
  unfold State.appendIn; split <;> rfl
@[simp] theorem State.appendIn_mif (b : Byte) : (s.appendIn b).mif = s.mif := by
  unfold State.appendIn; split <;> rfl
@[simp] theorem State.appendIn_ampEn (b : Byte) : (s.appendIn b).ampEn = s.ampEn := by
  unfold State.appendIn; split <;> rfl
@[simp] theorem State.appendIn_lengthReg (b : Byte) : (s.appendIn b).lengthReg = s.lengthReg := by
  unfold State.appendIn; split <;> rfl
@[simp] theorem State.appendIn_amplitudeReg (b : Byte) : (s.appendIn b).amplitudeReg = s.amplitudeReg := by
  unfold State.appendIn; split <;> rfl
@[simp] theorem State.appendIn_offsetLo (b : Byte) : (s.appendIn b).offsetLo = s.offsetLo := by
  unfold State.appendIn; split <;> rfl
@[simp] theorem State.appendIn_offsetHi (b : Byte) : (s.appendIn b).offsetHi = s.offsetHi := by
  unfold State.appendIn; split <;> rfl
@[simp] theorem State.appendIn_pend (b : Byte) : (s.appendIn b).pend = s.pend := by
  unfold State.appendIn; split <;> rfl
@[simp] theorem State.appendIn_err (b : Byte) : (s.appendIn b).err = s.err := by
  unfold State.appendIn; split <;> rfl
@[simp] theorem State.appendIn_sticky (b : Byte) : (s.appendIn b).sticky = s.sticky := by
  unfold State.appendIn; split <;> rfl
@[simp] theorem State.appendIn_seqValid (b : Byte) : (s.appendIn b).seqValid = s.seqValid := by
  unfold State.appendIn; split <;> rfl
@[simp] theorem State.appendIn_seqSine (b : Byte) : (s.appendIn b).seqSine = s.seqSine := by
  unfold State.appendIn; split <;> rfl
@[simp] theorem State.appendIn_seqWidth (b : Byte) : (s.appendIn b).seqWidth = s.seqWidth := by
  unfold State.appendIn; split <;> rfl
@[simp] theorem State.appendIn_cmOvf (b : Byte) : (s.appendIn b).cmOvf = s.cmOvf := by
  unfold State.appendIn; split <;> rfl
@[simp] theorem State.appendIn_cmBuf (b : Byte) : (s.appendIn b).cmBuf = s.cmBuf := by
  unfold State.appendIn; split <;> rfl
@[simp] theorem State.appendIn_seq (b : Byte) : (s.appendIn b).seq = s.seq := by
  unfold State.appendIn; split <;> rfl
@[simp] theorem State.appendIn_out (b : Byte) : (s.appendIn b).out = s.out := by
  unfold State.appendIn; split <;> rfl
@[simp] theorem State.appendIn_outRp (b : Byte) : (s.appendIn b).outRp = s.outRp := by
  unfold State.appendIn; split <;> rfl
@[simp] theorem State.appendIn_inCapR (b : Byte) : (s.appendIn b).inCapR = s.inCapR := by
  unfold State.appendIn; split <;> rfl
@[simp] theorem State.appendIn_cmCapR (b : Byte) : (s.appendIn b).cmCapR = s.cmCapR := by
  unfold State.appendIn; split <;> rfl
@[simp] theorem State.appendIn_seqCapR (b : Byte) : (s.appendIn b).seqCapR = s.seqCapR := by
  unfold State.appendIn; split <;> rfl
@[simp] theorem State.appendIn_outCapR (b : Byte) : (s.appendIn b).outCapR = s.outCapR := by
  unfold State.appendIn; split <;> rfl
@[simp] theorem State.appendIn_base (b : Byte) : (s.appendIn b).base = s.base := by
  unfold State.appendIn; split <;> rfl
@[simp] theorem State.appendIn_qarith (b : Byte) : (s.appendIn b).qarith = s.qarith := by
  unfold State.appendIn; split <;> rfl
@[simp] theorem State.appendIn_sin64Known (b : Byte) : (s.appendIn b).sin64Known = s.sin64Known := by
  unfold State.appendIn; split <;> rfl
@[simp] theorem State.appendIn_inputs (b : Byte) : (s.appendIn b).inputs = s.inputs := by
  unfold State.appendIn; split <;> rfl
@[simp] theorem State.appendIn_latency (b : Byte) : (s.appendIn b).latency = s.latency := by
  unfold State.appendIn; split <;> rfl
@[simp] theorem State.appendIn_wait (b : Byte) : (s.appendIn b).wait = s.wait := by
  unfold State.appendIn; split <;> rfl
@[simp] theorem State.appendIn_awaitingIdle (b : Byte) : (s.appendIn b).awaitingIdle = s.awaitingIdle := by
  unfold State.appendIn; split <;> rfl
@[simp] theorem State.appendIn_reads (b : Byte) : (s.appendIn b).reads = s.reads := by
  unfold State.appendIn; split <;> rfl

/-! ### appendCm -/

theorem State.appendCm_room (b : Byte) (h : s.cmBuf.length < s.cmCapR.toNat) :
    s.appendCm b = { s with cmBuf := s.cmBuf ++ [b] } := if_pos h

theorem State.appendCm_full (b : Byte) (h : ¬ s.cmBuf.length < s.cmCapR.toNat) :
    s.appendCm b = { s with cmOvf := true } := if_neg h

@[simp] theorem State.appendCm_width (b : Byte) : (s.appendCm b).width = s.width := by
  unfold State.appendCm; split <;> rfl
@[simp] theorem State.appendCm_signed (b : Byte) : (s.appendCm b).signed = s.signed := by
  unfold State.appendCm; split <;> rfl
@[simp] theorem State.appendCm_mif (b : Byte) : (s.appendCm b).mif = s.mif := by
  unfold State.appendCm; split <;> rfl
@[simp] theorem State.appendCm_ampEn (b : Byte) : (s.appendCm b).ampEn = s.ampEn := by
  unfold State.appendCm; split <;> rfl
@[simp] theorem State.appendCm_lengthReg (b : Byte) : (s.appendCm b).lengthReg = s.lengthReg := by
  unfold State.appendCm; split <;> rfl
@[simp] theorem State.appendCm_amplitudeReg (b : Byte) : (s.appendCm b).amplitudeReg = s.amplitudeReg := by
  unfold State.appendCm; split <;> rfl
@[simp] theorem State.appendCm_offsetLo (b : Byte) : (s.appendCm b).offsetLo = s.offsetLo := by
  unfold State.appendCm; split <;> rfl
@[simp] theorem State.appendCm_offsetHi (b : Byte) : (s.appendCm b).offsetHi = s.offsetHi := by
  unfold State.appendCm; split <;> rfl
@[simp] theorem State.appendCm_pend (b : Byte) : (s.appendCm b).pend = s.pend := by
  unfold State.appendCm; split <;> rfl
@[simp] theorem State.appendCm_err (b : Byte) : (s.appendCm b).err = s.err := by
  unfold State.appendCm; split <;> rfl
@[simp] theorem State.appendCm_sticky (b : Byte) : (s.appendCm b).sticky = s.sticky := by
  unfold State.appendCm; split <;> rfl
@[simp] theorem State.appendCm_seqValid (b : Byte) : (s.appendCm b).seqValid = s.seqValid := by
  unfold State.appendCm; split <;> rfl
@[simp] theorem State.appendCm_seqSine (b : Byte) : (s.appendCm b).seqSine = s.seqSine := by
  unfold State.appendCm; split <;> rfl
@[simp] theorem State.appendCm_seqWidth (b : Byte) : (s.appendCm b).seqWidth = s.seqWidth := by
  unfold State.appendCm; split <;> rfl
@[simp] theorem State.appendCm_inOvf (b : Byte) : (s.appendCm b).inOvf = s.inOvf := by
  unfold State.appendCm; split <;> rfl
@[simp] theorem State.appendCm_inBuf (b : Byte) : (s.appendCm b).inBuf = s.inBuf := by
  unfold State.appendCm; split <;> rfl
@[simp] theorem State.appendCm_seq (b : Byte) : (s.appendCm b).seq = s.seq := by
  unfold State.appendCm; split <;> rfl
@[simp] theorem State.appendCm_out (b : Byte) : (s.appendCm b).out = s.out := by
  unfold State.appendCm; split <;> rfl
@[simp] theorem State.appendCm_outRp (b : Byte) : (s.appendCm b).outRp = s.outRp := by
  unfold State.appendCm; split <;> rfl
@[simp] theorem State.appendCm_inCapR (b : Byte) : (s.appendCm b).inCapR = s.inCapR := by
  unfold State.appendCm; split <;> rfl
@[simp] theorem State.appendCm_cmCapR (b : Byte) : (s.appendCm b).cmCapR = s.cmCapR := by
  unfold State.appendCm; split <;> rfl
@[simp] theorem State.appendCm_seqCapR (b : Byte) : (s.appendCm b).seqCapR = s.seqCapR := by
  unfold State.appendCm; split <;> rfl
@[simp] theorem State.appendCm_outCapR (b : Byte) : (s.appendCm b).outCapR = s.outCapR := by
  unfold State.appendCm; split <;> rfl
@[simp] theorem State.appendCm_base (b : Byte) : (s.appendCm b).base = s.base := by
  unfold State.appendCm; split <;> rfl
@[simp] theorem State.appendCm_qarith (b : Byte) : (s.appendCm b).qarith = s.qarith := by
  unfold State.appendCm; split <;> rfl
@[simp] theorem State.appendCm_sin64Known (b : Byte) : (s.appendCm b).sin64Known = s.sin64Known := by
  unfold State.appendCm; split <;> rfl
@[simp] theorem State.appendCm_inputs (b : Byte) : (s.appendCm b).inputs = s.inputs := by
  unfold State.appendCm; split <;> rfl
@[simp] theorem State.appendCm_latency (b : Byte) : (s.appendCm b).latency = s.latency := by
  unfold State.appendCm; split <;> rfl
@[simp] theorem State.appendCm_wait (b : Byte) : (s.appendCm b).wait = s.wait := by
  unfold State.appendCm; split <;> rfl
@[simp] theorem State.appendCm_awaitingIdle (b : Byte) : (s.appendCm b).awaitingIdle = s.awaitingIdle := by
  unfold State.appendCm; split <;> rfl
@[simp] theorem State.appendCm_reads (b : Byte) : (s.appendCm b).reads = s.reads := by
  unfold State.appendCm; split <;> rfl

/-! ### observe -/

@[simp] theorem State.observe_width (a : Nat) (v : Word) :
    (s.observe a v).width = s.width := by
  unfold State.observe; split <;> rfl
@[simp] theorem State.observe_signed (a : Nat) (v : Word) :
    (s.observe a v).signed = s.signed := by
  unfold State.observe; split <;> rfl
@[simp] theorem State.observe_mif (a : Nat) (v : Word) :
    (s.observe a v).mif = s.mif := by
  unfold State.observe; split <;> rfl
@[simp] theorem State.observe_ampEn (a : Nat) (v : Word) :
    (s.observe a v).ampEn = s.ampEn := by
  unfold State.observe; split <;> rfl
@[simp] theorem State.observe_lengthReg (a : Nat) (v : Word) :
    (s.observe a v).lengthReg = s.lengthReg := by
  unfold State.observe; split <;> rfl
@[simp] theorem State.observe_amplitudeReg (a : Nat) (v : Word) :
    (s.observe a v).amplitudeReg = s.amplitudeReg := by
  unfold State.observe; split <;> rfl
@[simp] theorem State.observe_offsetLo (a : Nat) (v : Word) :
    (s.observe a v).offsetLo = s.offsetLo := by
  unfold State.observe; split <;> rfl
@[simp] theorem State.observe_offsetHi (a : Nat) (v : Word) :
    (s.observe a v).offsetHi = s.offsetHi := by
  unfold State.observe; split <;> rfl
@[simp] theorem State.observe_pend (a : Nat) (v : Word) :
    (s.observe a v).pend = s.pend := by
  unfold State.observe; split <;> rfl
@[simp] theorem State.observe_err (a : Nat) (v : Word) :
    (s.observe a v).err = s.err := by
  unfold State.observe; split <;> rfl
@[simp] theorem State.observe_sticky (a : Nat) (v : Word) :
    (s.observe a v).sticky = s.sticky := by
  unfold State.observe; split <;> rfl
@[simp] theorem State.observe_seqValid (a : Nat) (v : Word) :
    (s.observe a v).seqValid = s.seqValid := by
  unfold State.observe; split <;> rfl
@[simp] theorem State.observe_seqSine (a : Nat) (v : Word) :
    (s.observe a v).seqSine = s.seqSine := by
  unfold State.observe; split <;> rfl
@[simp] theorem State.observe_seqWidth (a : Nat) (v : Word) :
    (s.observe a v).seqWidth = s.seqWidth := by
  unfold State.observe; split <;> rfl
@[simp] theorem State.observe_inOvf (a : Nat) (v : Word) :
    (s.observe a v).inOvf = s.inOvf := by
  unfold State.observe; split <;> rfl
@[simp] theorem State.observe_cmOvf (a : Nat) (v : Word) :
    (s.observe a v).cmOvf = s.cmOvf := by
  unfold State.observe; split <;> rfl
@[simp] theorem State.observe_inBuf (a : Nat) (v : Word) :
    (s.observe a v).inBuf = s.inBuf := by
  unfold State.observe; split <;> rfl
@[simp] theorem State.observe_cmBuf (a : Nat) (v : Word) :
    (s.observe a v).cmBuf = s.cmBuf := by
  unfold State.observe; split <;> rfl
@[simp] theorem State.observe_seq (a : Nat) (v : Word) :
    (s.observe a v).seq = s.seq := by
  unfold State.observe; split <;> rfl
@[simp] theorem State.observe_out (a : Nat) (v : Word) :
    (s.observe a v).out = s.out := by
  unfold State.observe; split <;> rfl
@[simp] theorem State.observe_outRp (a : Nat) (v : Word) :
    (s.observe a v).outRp = s.outRp := by
  unfold State.observe; split <;> rfl
@[simp] theorem State.observe_inCapR (a : Nat) (v : Word) :
    (s.observe a v).inCapR = s.inCapR := by
  unfold State.observe; split <;> rfl
@[simp] theorem State.observe_cmCapR (a : Nat) (v : Word) :
    (s.observe a v).cmCapR = s.cmCapR := by
  unfold State.observe; split <;> rfl
@[simp] theorem State.observe_seqCapR (a : Nat) (v : Word) :
    (s.observe a v).seqCapR = s.seqCapR := by
  unfold State.observe; split <;> rfl
@[simp] theorem State.observe_outCapR (a : Nat) (v : Word) :
    (s.observe a v).outCapR = s.outCapR := by
  unfold State.observe; split <;> rfl
@[simp] theorem State.observe_base (a : Nat) (v : Word) :
    (s.observe a v).base = s.base := by
  unfold State.observe; split <;> rfl
@[simp] theorem State.observe_qarith (a : Nat) (v : Word) :
    (s.observe a v).qarith = s.qarith := by
  unfold State.observe; split <;> rfl
@[simp] theorem State.observe_sin64Known (a : Nat) (v : Word) :
    (s.observe a v).sin64Known = s.sin64Known := by
  unfold State.observe; split <;> rfl
@[simp] theorem State.observe_inputs (a : Nat) (v : Word) :
    (s.observe a v).inputs = s.inputs := by
  unfold State.observe; split <;> rfl
@[simp] theorem State.observe_latency (a : Nat) (v : Word) :
    (s.observe a v).latency = s.latency := by
  unfold State.observe; split <;> rfl
@[simp] theorem State.observe_wait (a : Nat) (v : Word) :
    (s.observe a v).wait = s.wait := by
  unfold State.observe; split <;> rfl
@[simp] theorem State.observe_reads (a : Nat) (v : Word) :
    (s.observe a v).reads = s.reads ++ [(a, v)] := by
  unfold State.observe; split <;> rfl

end Sys2Proof.Machine
end

