-- ==== Sys2Proof/Laws/Ops.lean ====
section
/-! SUPPORT. For each shared operation, once: everything it can do. Later proofs cite these lemmas
and do not unfold the operations. -/

namespace Sys2Proof.Machine

/-! ### How a command ends -/

theorem finish_ok (s t : State) : finish s (.ok t) = .next t.succeed := rfl

theorem finish_error (s : State) (c : ErrCode) : finish s (.error c) = .next (s.raiseError c) := rfl

/-- A command either succeeds in the state its outcome gives, or enters its error. -/
theorem finish_eq_next {s t : State} {o : Except ErrCode State} :
    finish s o = .next t ↔
      (∃ u, o = .ok u ∧ t = u.succeed) ∨ ∃ c, o = .error c ∧ t = s.raiseError c := by
  cases o <;> simp [finish, eq_comm]

theorem finish_isNext (s : State) (o : Except ErrCode State) : ∃ t, finish s o = .next t := by
  cases o <;> simp [finish]

/-! ### The checks of the commands -/

theorem widthLegal_iff (w : BitVec 6) : widthLegal w = true ↔ 1 ≤ w.toNat ∧ w.toNat ≤ 32 := by
  simp [widthLegal]

/-- GEN_SINE either fails with one of its four codes or stores the samples of a legal
configuration. -/
theorem genSine_cases (s : State) :
    (∃ c, c ≠ .none ∧ genSine s = .error c) ∨
      ∃ r, widthLegal s.width = true ∧ s.lengthReg ≠ 0 ∧
        s.lengthReg.toNat ≤ s.seqCapR.toNat ∧ s.sineSamples = some r ∧
        genSine s = .ok (s.storeSeq r true s.width) := by
  unfold genSine
  split
  · exact .inl ⟨_, by decide, rfl⟩
  split
  · exact .inl ⟨_, by decide, rfl⟩
  split
  · exact .inl ⟨_, by decide, rfl⟩
  split
  · exact .inl ⟨_, by decide, rfl⟩
  · rename_i hw hl hc _ r hr
    exact .inr ⟨r, by simpa using hw, hl, by omega, hr, rfl⟩

/-- PACK_DATA either fails with one of its three codes or stores the packed words. -/
theorem packData_cases (s : State) :
    (∃ c, c ≠ .none ∧ packData s = .error c) ∨
      (widthLegal s.width = true ∧ s.inOvf = false ∧
        s.inBuf.length % wordBytes s.width.toNat = 0 ∧
        s.inBuf.length / wordBytes s.width.toNat ≤ s.seqCapR.toNat ∧
        packData s = .ok (s.storeSeq (packWords s.inBuf (wordBytes s.width.toNat)) false s.width))
    := by
  unfold packData
  split
  · exact .inl ⟨_, by decide, rfl⟩
  split
  · exact .inl ⟨_, by decide, rfl⟩
  split
  · exact .inl ⟨_, by decide, rfl⟩
  split
  · exact .inl ⟨_, by decide, rfl⟩
  · rename_i hw ho hm hc
    exact .inr ⟨by simpa using hw, by simpa using ho, by simpa using hm, by omega, rfl⟩

/-- EMIT either fails with one of its two codes or stores the document. -/
theorem emit_cases (s : State) :
    (∃ c, c ≠ .none ∧ emit s = .error c) ∨
      (s.seqValid = true ∧ (s.mif = true → s.cmOvf = false) ∧
        s.document.length ≤ s.outCapR.toNat ∧ emit s = .ok (s.storeOut s.document)) := by
  unfold emit
  split
  · exact .inl ⟨_, by decide, rfl⟩
  split
  · exact .inl ⟨_, by decide, rfl⟩
  split
  · exact .inl ⟨_, by decide, rfl⟩
  · rename_i hv ho hc
    exact .inr ⟨by simpa using hv, by simpa using ho, by omega, rfl⟩

/-! ### One command -/

/-- What a command can leave: its error and nothing else, or its own effect with ERR = E_NONE. -/
inductive CommandResult (i : Instr) (s : State) : State → Prop where
  | error (c : ErrCode) (h : c ≠ .none) : CommandResult i s (s.raiseError c)
  | nop (h : i = .nop) : CommandResult i s s.succeed
  | genSine (h : i = .genSine) (r : List Int) (hw : widthLegal s.width = true)
      (hl : s.lengthReg ≠ 0) (hc : s.lengthReg.toNat ≤ s.seqCapR.toNat)
      (hr : s.sineSamples = some r) : CommandResult i s (s.storeSeq r true s.width).succeed
  | packData (h : i = .packData) (hw : widthLegal s.width = true) (ho : s.inOvf = false)
      (hm : s.inBuf.length % wordBytes s.width.toNat = 0)
      (hc : s.inBuf.length / wordBytes s.width.toNat ≤ s.seqCapR.toNat) :
      CommandResult i s
        (s.storeSeq (packWords s.inBuf (wordBytes s.width.toNat)) false s.width).succeed
  | emit (h : i = .emit) (hv : s.seqValid = true) (ho : s.mif = true → s.cmOvf = false)
      (hc : s.document.length ≤ s.outCapR.toNat) :
      CommandResult i s (s.storeOut s.document).succeed
  | clearIn (h : i = .clearIn) : CommandResult i s s.emptyIn.succeed
  | clearCm (h : i = .clearCm) : CommandResult i s s.emptyCm.succeed
  | softReset (h : i = .softReset) : CommandResult i s s.toReset.succeed

/-- Every command ends in a next state, and in one `CommandResult` lists. -/
theorem exec_result (i : Instr) (s : State) : ∃ t, exec i s = .next t ∧ CommandResult i s t := by
  cases i with
  | nop => exact ⟨_, rfl, .nop rfl⟩
  | genSine =>
    obtain ⟨c, hc, h⟩ | ⟨r, hw, hl, hc, hr, h⟩ := genSine_cases s
    · exact ⟨_, by rw [exec, execGenSine, h]; rfl, .error c hc⟩
    · exact ⟨_, by rw [exec, execGenSine, h]; rfl, .genSine rfl r hw hl hc hr⟩
  | packData =>
    obtain ⟨c, hc, h⟩ | ⟨hw, ho, hm, hc, h⟩ := packData_cases s
    · exact ⟨_, by rw [exec, execPackData, h]; rfl, .error c hc⟩
    · exact ⟨_, by rw [exec, execPackData, h]; rfl, .packData rfl hw ho hm hc⟩
  | emit =>
    obtain ⟨c, hc, h⟩ | ⟨hv, ho, hc, h⟩ := emit_cases s
    · exact ⟨_, by rw [exec, execEmit, h]; rfl, .error c hc⟩
    · exact ⟨_, by rw [exec, execEmit, h]; rfl, .emit rfl hv ho hc⟩
  | clearIn => exact ⟨_, rfl, .clearIn rfl⟩
  | clearCm => exact ⟨_, rfl, .clearCm rfl⟩
  | softReset => exact ⟨_, rfl, .softReset rfl⟩
  | reserved w => exact ⟨_, rfl, .error .badCmd (by decide)⟩

/-- The inversion of `exec`. -/
theorem exec_next {i : Instr} {s t : State} (h : exec i s = .next t) : CommandResult i s t := by
  obtain ⟨u, hu, hr⟩ := exec_result i s
  rw [hu] at h
  cases h
  exact hr

/-! ### Text -/

theorem asciiByte_of_ascii {c : Char} (h : c.toNat < 128) : asciiByte c = BitVec.ofNat 8 c.toNat :=
  if_pos h

theorem asciiByte_of_not_ascii {c : Char} (h : 128 ≤ c.toNat) :
    asciiByte c = Config.nonAsciiByte c :=
  if_neg (Nat.not_lt.mpr h)

@[simp] theorem ascii_nil : ascii [] = [] := rfl

@[simp] theorem ascii_cons (c : Char) (cs : List Char) :
    ascii (c :: cs) = asciiByte c :: ascii cs := rfl

/-- A text of ASCII characters never meets the free byte of log 23: its bytes are the code points. -/
theorem ascii_of_ascii {cs : List Char} (h : ∀ c ∈ cs, c.toNat < 128) :
    ascii cs = cs.map fun c => BitVec.ofNat 8 c.toNat :=
  List.map_congr_left fun c hc => asciiByte_of_ascii (h c hc)

/-! ### Register accesses -/

theorem inWindow_iff (base addr size : Nat) :
    inWindow base addr size = true ↔
      addr % 4 = 0 ∧ size = 4 ∧ base ≤ addr ∧ addr < base + 0x100 := by
  simp [inWindow]

/-- A read that the protocol allows, and what it gives. -/
theorem memRead_eq_ok {s t : State} {addr size : Nat} {v : Word} :
    memRead s addr size = .ok (v, t) ↔
      inWindow s.base addr size = true ∧
      (s.onlyStatus = true → regAt (addr - s.base) = some .status) ∧
      v = s.readValue (addr - s.base) ∧ t = s.afterRead (addr - s.base) := by
  unfold memRead State.readFault
  constructor
  · intro h
    split at h
    · cases h
    · rename_i hf
      cases h
      split at hf
      · cases hf
      split at hf
      · cases hf
      · rename_i hw hb
        exact ⟨by simpa using hw, by simpa using hb, rfl, rfl⟩
  · rintro ⟨hw, hb, rfl, rfl⟩
    rw [if_neg (by simp [hw]), if_neg (by simpa using hb)]

/-- A write that the protocol allows, and what it gives. -/
theorem memWrite_eq_ok {s t : State} {addr size : Nat} {v : Word} :
    memWrite s addr size v = .ok t ↔
      inWindow s.base addr size = true ∧ s.onlyStatus = false ∧
      t = s.afterWrite (addr - s.base) v := by
  unfold memWrite State.writeFault
  by_cases hw : inWindow s.base addr size = true <;>
    by_cases hb : s.onlyStatus = true <;> simp [hw, hb]
  exact ⟨Eq.symm, Eq.symm⟩

/-- The offset finds the register, and only its own offset does (10_state.md R23). -/
theorem regAt_eq_some {off : Nat} {r : Reg} : regAt off = some r ↔ off = regOffset r := by
  constructor
  · intro h
    unfold regAt at h
    split at h <;> cases h <;> rfl
  · rintro rfl
    cases r <;> rfl

theorem afterRead_cases (s : State) (off : Nat) :
    s.afterRead off = s ∨ (off = 0x30 ∧ s.afterRead off = s.popOut) := by
  unfold State.afterRead
  split
  · rename_i h
    exact .inr ⟨by simpa [regOffset] using regAt_eq_some.mp h, rfl⟩
  · exact .inl rfl

/-- What a write can leave. -/
inductive WriteResult (s : State) (off : Nat) (v : Word) : State → Prop where
  | ctrl (h : off = 0x00) : WriteResult s off v (s.writeCtrl v)
  | length (h : off = 0x04) : WriteResult s off v (s.writeLength v)
  | amplitude (h : off = 0x08) : WriteResult s off v (s.writeAmplitude v)
  | offsetLo (h : off = 0x0C) : WriteResult s off v (s.writeOffsetLo v)
  | offsetHi (h : off = 0x10) : WriteResult s off v (s.writeOffsetHi v)
  | cmd (h : off = 0x14) : WriteResult s off v (s.issue v)
  | inData (h : off = 0x1C) : WriteResult s off v (s.appendIn (v.extractLsb' 0 8))
  | cmData (h : off = 0x24) : WriteResult s off v (s.appendCm (v.extractLsb' 0 8))
  | ignored (h : off ∉ [0x00, 0x04, 0x08, 0x0C, 0x10, 0x14, 0x1C, 0x24]) : WriteResult s off v s

theorem afterWrite_result (s : State) (off : Nat) (v : Word) :
    WriteResult s off v (s.afterWrite off v) := by
  unfold State.afterWrite
  split
  · rename_i r h
    obtain rfl := regAt_eq_some.mp h
    cases r
    case ctrl => exact .ctrl rfl
    case length => exact .length rfl
    case amplitude => exact .amplitude rfl
    case offsetLo => exact .offsetLo rfl
    case offsetHi => exact .offsetHi rfl
    case cmd => exact .cmd rfl
    case inData => exact .inData rfl
    case cmData => exact .cmData rfl
    all_goals exact .ignored (by decide)
  · rename_i h
    refine .ignored fun hm => ?_
    simp only [List.mem_cons, List.not_mem_nil, or_false] at hm
    obtain rfl | rfl | rfl | rfl | rfl | rfl | rfl | rfl := hm <;> cases h

/-! ### One input -/

/-- A read of STATUS with BUSY = 0 ends the host's waiting; every read is recorded. -/
theorem observe_cases (s : State) (addr : Nat) (v : Word) :
    (addr = s.base + 0x18 ∧ busyBit v = false ∧ s.observe addr v = s.seeIdle.noteRead addr v) ∨
      (¬ (addr = s.base + 0x18 ∧ busyBit v = false) ∧ s.observe addr v = s.noteRead addr v) := by
  unfold State.observe
  split
  · rename_i h
    exact .inl ⟨h.1, h.2, rfl⟩
  · rename_i h
    exact .inr ⟨h, rfl⟩

theorem onlyStatus_eq_false (s : State) :
    s.onlyStatus = false ↔ s.pend = none ∧ s.awaitingIdle = false := by
  simp [State.onlyStatus, State.busy]

/-- A read input ends in the state after the read with the value recorded, and is done or stays. -/
theorem readInput_next {s t : State} {addr size : Nat} {stays : Word → Bool}
    (h : readInput s addr size stays = .next t) :
    ∃ v u, memRead s addr size = .ok (v, u) ∧
      t = if stays v then u.observe addr v else (u.observe addr v).dropInput := by
  unfold readInput at h
  split at h
  · cases h
  · rename_i v u hm
    cases h
    exact ⟨v, u, hm, rfl⟩

theorem writeInput_next {s t : State} {addr size : Nat} {v : Word}
    (h : writeInput s addr size v = .next t) :
    ∃ u, memWrite s addr size v = .ok u ∧ t = u.dropInput := by
  unfold writeInput at h
  split at h
  · cases h
  · rename_i u hm
    cases h
    exact ⟨u, hm, rfl⟩

theorem readInput_cases (s : State) (addr size : Nat) (stays : Word → Bool) :
    (∃ t, readInput s addr size stays = .next t) ∨
      ∃ r, memRead s addr size = .error r ∧
        readInput s addr size stays = .refused (.hostFault r) := by
  unfold readInput
  split
  · rename_i r hm
    exact .inr ⟨r, hm, rfl⟩
  · exact .inl ⟨_, rfl⟩

theorem writeInput_cases (s : State) (addr size : Nat) (v : Word) :
    (∃ t, writeInput s addr size v = .next t) ∨
      ∃ r, memWrite s addr size v = .error r ∧
        writeInput s addr size v = .refused (.hostFault r) := by
  unfold writeInput
  split
  · rename_i r hm
    exact .inr ⟨r, hm, rfl⟩
  · exact .inl ⟨_, rfl⟩

/-- What an input that takes place can leave: the state after a read, in which the input stays or is
done, the state after a write, or the state after reset. -/
inductive InputResult (s : State) : Input → State → Prop where
  | read (i : Input) (addr size : Nat) (v : Word) (stays : Bool)
      (hi : (i = .poll ∧ addr = s.base + 0x18) ∨ (i = .drain ∧ addr = s.base + 0x30) ∨
        i = .access (.read addr size))
      (hw : inWindow s.base addr size = true)
      (hs : s.onlyStatus = true → regAt (addr - s.base) = some .status)
      (hv : v = s.readValue (addr - s.base)) (u : State)
      (hu : u = (s.afterRead (addr - s.base)).observe addr v) :
      InputResult s i (if stays then u else u.dropInput)
  | write (addr size : Nat) (v : Word) (hw : inWindow s.base addr size = true)
      (hs : s.onlyStatus = false) (u : State) (hu : WriteResult s (addr - s.base) v u) :
      InputResult s (.access (.write addr size v)) u.dropInput
  | hardReset : InputResult s .hardReset s.hardReset.dropInput

/-- The inversion of `doInput`. -/
theorem doInput_next {s t : State} {i : Input} (h : doInput s i = .next t) : InputResult s i t := by
  have read : ∀ {addr size : Nat} {stays : Word → Bool},
      (i = .poll ∧ addr = s.base + 0x18) ∨ (i = .drain ∧ addr = s.base + 0x30) ∨
        i = .access (.read addr size) →
      readInput s addr size stays = .next t → InputResult s i t := by
    intro addr size stays hi h
    obtain ⟨v, u, hm, rfl⟩ := readInput_next h
    obtain ⟨hw, hs, hv, rfl⟩ := memRead_eq_ok.mp hm
    exact .read i addr size v (stays v) hi hw hs hv _ rfl
  cases i with
  | access a =>
    cases a with
    | read addr size => exact read (.inr (.inr rfl)) h
    | write addr size v =>
      obtain ⟨u, hm, rfl⟩ := writeInput_next h
      obtain ⟨hw, hs, rfl⟩ := memWrite_eq_ok.mp hm
      exact .write addr size v hw hs _ (afterWrite_result _ _ _)
  | poll => exact read (.inl ⟨rfl, rfl⟩) h
  | drain => exact read (.inr (.inl ⟨rfl, rfl⟩)) h
  | hardReset => cases h; exact .hardReset

/-! ### One step -/

/-- What a step can be. -/
inductive StepResult (s : State) : State → Prop where
  | engine (c : Word) (h : s.pend = some c) (hw : s.wait = 0 ∨ s.inputs = []) (t : State)
      (hr : CommandResult (decode c) s t) : StepResult s t.retire
  | outside (i : Input) (rest : List Input) (h : s.inputs = i :: rest)
      (hw : s.pend = none ∨ s.wait ≠ 0) (t : State) (hi : inputStep s i = .next t) :
      StepResult s t
  | idle (h : s.pend = none) (hi : s.inputs = []) : StepResult s s

theorem turn_cases (s : State) :
    (∃ c, s.pend = some c ∧ (s.wait = 0 ∨ s.inputs = []) ∧ s.turn = .engine c) ∨
    (∃ i rest, s.inputs = i :: rest ∧ (s.pend = none ∨ s.wait ≠ 0) ∧ s.turn = .outside i) ∨
    (s.pend = none ∧ s.inputs = [] ∧ s.turn = .idle) := by
  unfold State.turn
  split
  · rename_i c h h'
    exact .inl ⟨c, h, .inr h', rfl⟩
  · rename_i c i rest h h'
    split
    · rename_i hw
      exact .inl ⟨c, h, .inl hw, rfl⟩
    · rename_i hw
      exact .inr (.inl ⟨i, rest, h', .inr hw, rfl⟩)
  · rename_i i rest h h'
    exact .inr (.inl ⟨i, rest, h', .inl h, rfl⟩)
  · rename_i h h'
    exact .inr (.inr ⟨h, h', rfl⟩)

theorem turn_engine {s : State} {c : Word} (h : s.pend = some c)
    (hw : s.wait = 0 ∨ s.inputs = []) : s.turn = .engine c := by
  unfold State.turn
  rw [h]
  cases hi : s.inputs with
  | nil => rfl
  | cons i rest =>
    obtain hw | hw := hw
    · simp [hw]
    · simp [hw] at hi

theorem turn_outside {s : State} {i : Input} {rest : List Input} (h : s.inputs = i :: rest)
    (hw : s.pend = none ∨ s.wait ≠ 0) : s.turn = .outside i := by
  unfold State.turn
  rw [h]
  cases hp : s.pend with
  | none => rfl
  | some c =>
    obtain hw | hw := hw
    · simp [hw] at hp
    · simp [hw]

/-- The inversion of `step`. -/
theorem step_next {s t : State} (h : step s = .next t) : StepResult s t := by
  unfold step oneStep at h
  obtain ⟨c, hp, hw, ht⟩ | ⟨i, rest, hi, hw, ht⟩ | ⟨hp, hi, ht⟩ := turn_cases s <;>
    simp only [ht] at h
  · obtain ⟨u, hu, hr⟩ := exec_result (decode c) s
    rw [engineStep, hu] at h
    cases h
    exact .engine c hp hw u hr
  · exact .outside i rest hi hw t h
  · cases h
    exact .idle hp hi

end Sys2Proof.Machine
end

