-- ==== Sys2Proof/Laws/PerInstr.lean ====
section
/-! SUPPORT. What holds of every command as a term, one lemma for each constructor. -/

namespace Sys2Proof.Laws

namespace EncodeRange

/-- A well-formed command has a word up to 6 exactly when it is one of the seven commands of
30_encoding.md R83, and a word with RSV = 0 and OP up to 6 exactly then. -/
def Statement (i : Instr) : Prop :=
  i.wf = true →
    ((encode i).toNat ≤ 6 ↔ ∀ w, i ≠ .reserved w) ∧
    ((rsvField (encode i) = 0 ∧ (opField (encode i)).toNat ≤ 6) ↔ (encode i).toNat ≤ 6)

/-- The fields of a word tell whether it is one of the seven command words. -/
theorem fields_iff (w : Word) :
    (rsvField w = 0 ∧ (opField w).toNat ≤ 6) ↔ w.toNat ≤ 6 := by
  have h1 : (rsvField w).toNat = w.toNat / 16 := by
    simp only [rsvField, BitVec.extractLsb'_toNat, Nat.shiftRight_eq_div_pow]
    have := w.isLt
    omega
  have h2 : (opField w).toNat = w.toNat % 16 := by
    simp [opField, BitVec.extractLsb'_toNat]
  rw [h2, ← BitVec.toNat_inj, h1]
  simp only [BitVec.ofNat_eq_ofNat, BitVec.toNat_ofNat]
  omega

theorem nop : Statement .nop := fun _ => ⟨by simp [encode], fields_iff _⟩
theorem genSine : Statement .genSine := fun _ => ⟨by simp [encode], fields_iff _⟩
theorem packData : Statement .packData := fun _ => ⟨by simp [encode], fields_iff _⟩
theorem emit : Statement .emit := fun _ => ⟨by simp [encode], fields_iff _⟩
theorem clearIn : Statement .clearIn := fun _ => ⟨by simp [encode], fields_iff _⟩
theorem clearCm : Statement .clearCm := fun _ => ⟨by simp [encode], fields_iff _⟩
theorem softReset : Statement .softReset := fun _ => ⟨by simp [encode], fields_iff _⟩
theorem reserved (w : Word) : Statement (.reserved w) := fun h =>
  ⟨by simp [encode]; simpa [Instr.wf] using h, fields_iff _⟩

end EncodeRange

end Sys2Proof.Laws
end

