-- ==== Sys2Proof/Laws/RealSine.lean ====
section
/-! SUPPORT. What the integer recurrence of the exact arithmetic means in the real numbers: the
half turns it counts, and the comparison of a fraction with a cosine that rests on them. -/

namespace Sys2Proof.Machine

theorem turnStep_eq (a b v w : Int) (h : Nat) :
    turnStep a b (v, w, h) =
      (w, 2 * a * w - b * b * v, if 0 < (if h % 2 = 0 then w else -w) then h else h + 1) := rfl

/-- The sign of a sine within one half turn, up to the parity of the half turns before it. -/
theorem sin_pos_iff_of_mem {x : ℝ} {h : Nat} (h0 : h * Real.pi < x) (h2 : x < (h + 2) * Real.pi) :
    0 < (-1 : ℝ) ^ h * Real.sin x ↔ x < (h + 1) * Real.pi := by
  have e : (-1 : ℝ) ^ h * Real.sin x = Real.sin (x - h * Real.pi) := by
    rw [Real.sin_sub_nat_mul_pi]
  rw [e]
  constructor
  · intro hp
    by_contra hc
    have := Real.sin_nonpos_of_nonpos_of_neg_pi_le (x := x - h * Real.pi - 2 * Real.pi)
      (by linarith) (by linarith)
    rw [Real.sin_sub_two_pi] at this
    linarith
  · intro hl
    exact Real.sin_pos_of_pos_of_lt_pi (by linarith) (by linarith)

/-- After n steps the recurrence holds b^(n-1)·sin(nφ)/sin φ and its successor, written without the
division, and the whole number of half turns in nφ, where cos φ = a/b and 0 < φ < π. -/
theorem turnState_spec {a b : Int} {φ : ℝ} (hb : 0 < b) (hφ : 0 < φ) (hπ : φ < Real.pi)
    (hc : (a : ℝ) = b * Real.cos φ) (n : Nat) :
    b * ((turnState a b n).1 : ℝ) * Real.sin φ = b ^ n * Real.sin (n * φ) ∧
    ((turnState a b n).2.1 : ℝ) * Real.sin φ = b ^ n * Real.sin ((n + 1) * φ) ∧
    ((turnState a b n).2.2 : ℝ) * Real.pi ≤ n * φ ∧
    n * φ < ((turnState a b n).2.2 + 1) * Real.pi := by
  have hb' : (0 : ℝ) < b := by exact_mod_cast hb
  have hs : 0 < Real.sin φ := Real.sin_pos_of_pos_of_lt_pi hφ hπ
  induction n with
  | zero => simp [turnState, Real.pi_pos]
  | succ n ih =>
    obtain ⟨h1, h2, h3, h4⟩ := ih
    rw [turnState]
    generalize turnState a b n = p at *
    obtain ⟨v, w, h⟩ := p
    rw [turnStep_eq]
    simp only at *
    have hadd : Real.sin ((n + 1 + 1) * φ) =
        2 * Real.cos φ * Real.sin ((n + 1) * φ) - Real.sin (n * φ) := by
      rw [show ((n : ℝ) + 1 + 1) * φ = (n + 1) * φ + φ by ring,
        show ((n : ℝ)) * φ = (n + 1) * φ - φ by ring, Real.sin_add, Real.sin_sub]
      ring
    have hpos : 0 < (if h % 2 = 0 then w else -w) ↔ (n + 1) * φ < (h + 1) * Real.pi := by
      rw [← sin_pos_iff_of_mem (by linarith) (by linarith)]
      have hm : 0 < (-1 : ℝ) ^ h * Real.sin ((n + 1) * φ) ↔ 0 < (-1 : ℝ) ^ h * (w : ℝ) := by
        have e : ((-1 : ℝ) ^ h * w) * Real.sin φ =
            b ^ n * ((-1 : ℝ) ^ h * Real.sin ((n + 1) * φ)) := by
          rw [mul_assoc, h2]; ring
        have q : 0 < ((-1 : ℝ) ^ h * w) * Real.sin φ ↔ 0 < (-1 : ℝ) ^ h * (w : ℝ) :=
          mul_pos_iff_of_pos_right hs
        rw [← q, e, mul_pos_iff_of_pos_left (pow_pos hb' n)]
      rw [hm]
      obtain hp | hp := Nat.even_or_odd h
      · rw [if_pos (Nat.even_iff.mp hp), hp.neg_one_pow, one_mul]
        exact_mod_cast Iff.rfl
      · rw [if_neg (by rw [Nat.odd_iff.mp hp]; decide), hp.neg_one_pow, neg_one_mul]
        exact_mod_cast Iff.rfl
    generalize (if h % 2 = 0 then w else -w) = turn at *
    refine ⟨?_, ?_, ?_, ?_⟩
    · push_cast
      rw [mul_assoc, h2]; ring
    · push_cast
      rw [hadd, hc]
      have : (2 * (b * Real.cos φ) * w - b * b * v) * Real.sin φ =
          2 * (b * Real.cos φ) * (w * Real.sin φ) - b * (b * v * Real.sin φ) := by ring
      rw [this, h1, h2]; ring
    · by_cases ht : 0 < turn
      · rw [if_pos ht]
        push_cast
        linarith
      · rw [if_neg ht]
        rw [hpos, not_lt] at ht
        push_cast
        exact ht
    · by_cases ht : 0 < turn
      · rw [if_pos ht]
        push_cast
        exact hpos.mp ht
      · rw [if_neg ht]
        push_cast
        linarith

/-- `halfTurns` counts: k half turns fit into n·φ exactly when k is at most it. -/
theorem le_halfTurns_iff {a b : Int} {φ : ℝ} (hb : 0 < b) (hφ : 0 < φ) (hπ : φ < Real.pi)
    (hc : (a : ℝ) = b * Real.cos φ) (k n : Nat) :
    k ≤ halfTurns a b n ↔ k * Real.pi ≤ n * φ := by
  obtain ⟨-, -, h3, h4⟩ := turnState_spec hb hφ hπ hc n
  rw [halfTurns]
  generalize (turnState a b n).2.2 = h at *
  constructor
  · intro hk
    refine le_trans (mul_le_mul_of_nonneg_right ?_ Real.pi_pos.le) h3
    exact_mod_cast hk
  · intro hk
    have : (k : ℝ) < h + 1 := lt_of_mul_lt_mul_right (hk.trans_lt h4) Real.pi_pos.le
    exact Nat.lt_succ_iff.mp (by exact_mod_cast this)

/-- `cosGe` decides a/b ≤ cos(πk/n). -/
theorem cosGe_iff {k n : Nat} {a b : Int} (hb : 0 < b) (hn : 0 < n) (hk : k ≤ n) :
    cosGe k n a b = true ↔ (a : ℝ) / b ≤ Real.cos (Real.pi * k / n) := by
  have hb' : (0 : ℝ) < b := by exact_mod_cast hb
  have hn' : (0 : ℝ) < n := by exact_mod_cast hn
  have hk' : (k : ℝ) ≤ n := by exact_mod_cast hk
  have hx0 : 0 ≤ Real.pi * k / n := by positivity
  have hx1 : Real.pi * k / n ≤ Real.pi := by
    rw [div_le_iff₀ hn']; exact mul_le_mul_of_nonneg_left hk' Real.pi_pos.le
  rw [div_le_iff₀ hb', cosGe]
  split
  · rename_i h
    have h' : (b : ℝ) ≤ a := by exact_mod_cast h
    rw [decide_eq_true_eq]
    constructor
    · rintro ⟨rfl, rfl⟩
      simp
    · intro hle
      have h1 : Real.cos (Real.pi * k / n) = 1 := by
        refine le_antisymm (Real.cos_le_one _) ?_
        by_contra hc
        have := mul_lt_mul_of_pos_right (not_le.mp hc) hb'
        linarith
      constructor
      · rw [h1, one_mul] at hle
        exact le_antisymm (by exact_mod_cast hle) h
      · have := Real.injOn_cos ⟨hx0, hx1⟩ ⟨le_rfl, Real.pi_pos.le⟩ (by rw [h1, Real.cos_zero])
        have h2 : (k : ℝ) = 0 := by
          rcases div_eq_zero_iff.mp this with h | h
          · exact (mul_eq_zero.mp h).resolve_left Real.pi_pos.ne'
          · exact absurd h hn'.ne'
        exact_mod_cast h2
  split
  · rename_i h
    have h' : (a : ℝ) ≤ -b := by exact_mod_cast h
    have := mul_le_mul_of_nonneg_right (Real.neg_one_le_cos (Real.pi * k / n)) hb'.le
    simp only [true_iff]
    linarith
  · rename_i h1 h2
    have h1' : (a : ℝ) / b < 1 := by
      rw [div_lt_one hb']; exact_mod_cast not_le.mp h1
    have h2' : -1 < (a : ℝ) / b := by
      rw [lt_div_iff₀ hb', neg_one_mul]; exact_mod_cast not_le.mp h2
    have hcos : Real.cos (Real.arccos (a / b)) = a / b := Real.cos_arccos h2'.le h1'.le
    have hφ : 0 < Real.arccos ((a : ℝ) / b) := Real.arccos_pos.mpr h1'
    have hπ : Real.arccos ((a : ℝ) / b) < Real.pi := by
      refine lt_of_le_of_ne (Real.arccos_le_pi _) fun h => ?_
      rw [h, Real.cos_pi] at hcos
      linarith
    have hc : (a : ℝ) = b * Real.cos (Real.arccos (a / b)) := by
      rw [hcos]; field_simp
    rw [decide_eq_true_eq, le_halfTurns_iff hb hφ hπ hc, ← div_le_iff₀ hb', ← hcos,
      Real.cos_arccos h2'.le h1'.le,
      show (a : ℝ) / b = Real.cos (Real.arccos (a / b)) from hcos.symm,
      Real.strictAntiOn_cos.le_iff_ge ⟨hφ.le, hπ.le⟩ ⟨hx0, hx1⟩, div_le_iff₀ hn']
    rw [hcos, mul_comm Real.pi, mul_comm (n : ℝ)]

/-- `sinGe` decides a/b ≤ sin(2πi/L). -/
theorem sinGe_iff {i len : Nat} {a b : Int} (hb : 0 < b) (hl : 0 < len) (hi : i ≤ len) :
    sinGe i len a b = true ↔ (a : ℝ) / b ≤ Real.sin (2 * Real.pi * i / len) := by
  have hl' : (0 : ℝ) < len := by exact_mod_cast hl
  have hk : Real.cos (Real.pi * (((len : Int) - 4 * i).natAbs : ℝ) / (2 * len : Nat)) =
      Real.sin (2 * Real.pi * i / len) := by
    have e : (((len : Int) - 4 * i).natAbs : ℝ) = |(len : ℝ) - 4 * i| := by
      rw [Nat.cast_natAbs]; push_cast; rfl
    rw [e, ← Real.cos_pi_div_two_sub, ← Real.cos_abs (Real.pi / 2 - _)]
    congr 1
    have e2 : Real.pi / 2 - 2 * Real.pi * i / len = (Real.pi / (2 * len)) * (len - 4 * i) := by
      field_simp; ring
    rw [e2, abs_mul, abs_of_pos (show 0 < Real.pi / (2 * (len : ℝ)) by positivity)]
    push_cast
    ring
  rw [sinGe, ← hk]
  split
  · rename_i h
    exact cosGe_iff hb (by omega) h
  · rename_i h
    rw [cosGe_iff hb (by omega) (by omega), Nat.cast_sub (by omega),
      ← Real.cos_two_pi_sub (Real.pi * (((len : Int) - 4 * i).natAbs : ℝ) / (2 * len : Nat))]
    have e3 : Real.pi * (((4 * len : Nat) : ℝ) - (((len : Int) - 4 * i).natAbs : ℝ)) /
        (2 * len : Nat) =
        2 * Real.pi - Real.pi * (((len : Int) - 4 * i).natAbs : ℝ) / (2 * len : Nat) := by
      push_cast
      field_simp
      ring
    rw [e3]

/-- `searchUp` finds the threshold of a downward closed test. -/
theorem searchUp_eq {p : Int → Bool} {top : Int} (hp : ∀ n, p n = true ↔ n ≤ top) (t : Nat) :
    ∀ lo, lo ≤ top → top < lo + 2 ^ t → searchUp p t lo = top := by
  induction t with
  | zero =>
    intro lo h1 h2
    rw [searchUp]
    omega
  | succ t ih =>
    intro lo h1 h2
    rw [pow_succ] at h2
    rw [searchUp]
    split
    · rename_i h
      exact ih _ ((hp _).mp h) (by omega)
    · rename_i h
      rw [hp, not_le] at h
      exact ih _ h1 h

end Sys2Proof.Machine
end

