-- ==== Sys2Proof/Tests/Slice0.lean ====
section
/-! SUPPORT. Tests of the model against 95_test_vectors.md, and for every statement with hypotheses
a state and operands that meet them. Expected values are the spec's, not the model's. -/

namespace Sys2Proof.Tests

open Sys2Proof Sys2Proof.Machine

/-! ### Helpers -/

/-- The sines of 95_test_vectors.md for L = 4. -/
def sines4 : List (B64 × B64) :=
  [(0x3FF921FB54442D18, 0x3FF0000000000000), (0x400921FB54442D18, 0x3CA1A62633145C07),
    (0x4012D97C7F3321D2, 0xBFF0000000000000)]

/-- A block after reset with small capacities, at 0x1000, in binary64. -/
def fresh : State :=
  { State.reset with
    inCapR := 8, cmCapR := 8, seqCapR := 8, outCapR := 256, base := 0x1000, qarith := .b64,
    sin64Known := sines4 }

/-- The same block set up for a sine of width `w` over `len` samples. -/
def sine (w : BitVec 6) (sg : Bool) (len : Word) : State :=
  { fresh with width := w, signed := sg, lengthReg := len }

/-- The same block with bytes in IN and a width. -/
def withIn (w : BitVec 6) (bytes : List Byte) : State := { fresh with width := w, inBuf := bytes }

/-- The same block with a sequence in SEQ. -/
def withSeq (w : BitVec 6) (isSine : Bool) (seq : List Int) : State :=
  { fresh with seq := seq, seqValid := true, seqSine := isSine, seqWidth := w }

/-- The same block with inputs to come. -/
def facing (inputs : List Input) : State := { fresh with inputs := inputs }

/-- The next state, if there is one. -/
def next? (r : Result) : Option State :=
  match r with
  | .next t => some t
  | .fault _ => none
  | .refused _ => none

/-- SEQ and ERR after a command. -/
def seqErr (r : Result) : Option (List Int × ErrCode) := (next? r).map fun t => (t.seq, t.err)

/-- OUT and ERR after a command. -/
def outErr (r : Result) : Option (List Byte × ErrCode) := (next? r).map fun t => (t.out, t.err)

/-- STATUS after a command. -/
def statusAfter (r : Result) : Option Word := (next? r).map State.statusWord

/-! ### Well-formedness: a reserved command whose word is a command's is refused -/

theorem test_wf_refuses_nop_word : (Instr.reserved 0x00000000).wf = false := by decide
theorem test_wf_refuses_soft_reset_word : (Instr.reserved 0x00000006).wf = false := by decide
theorem test_wf_accepts_first_reserved : (Instr.reserved 0x00000007).wf = true := by decide

/-! ### Decoding: words written out from 30_encoding.md R80 and R83, RSV then OP -/

theorem test_decode_nop : decode 0b00000000000000000000000000000000 = .nop := by decide
theorem test_decode_genSine : decode 0b00000000000000000000000000000001 = .genSine := by decide
theorem test_decode_packData : decode 0b00000000000000000000000000000010 = .packData := by decide
theorem test_decode_emit : decode 0b00000000000000000000000000000011 = .emit := by decide
theorem test_decode_clearIn : decode 0b00000000000000000000000000000100 = .clearIn := by decide
theorem test_decode_clearCm : decode 0b00000000000000000000000000000101 = .clearCm := by decide
theorem test_decode_softReset : decode 0b00000000000000000000000000000110 = .softReset := by decide
theorem test_decode_op7 :
    decode 0b00000000000000000000000000000111 = .reserved 0x00000007 := by decide
theorem test_decode_rsv :
    decode 0b00000000000000000000000000010011 = .reserved 0x00000013 := by decide
theorem test_decode_top_bit : decode 0x80000001 = .reserved 0x80000001 := by decide
theorem test_decode_rejects_longer : decodeTableWord 64 1 = none := by decide
theorem test_decode_rejects_shorter : decodeTableWord 16 1 = none := by decide

/-! ### Commands (95_test_vectors.md §2) -/

/-- Vector C1. -/
theorem test_nop_clears_err :
    statusAfter (exec .nop { fresh with err := .mismatch, sticky := true }) = some 0x00000010 := by
  decide

/-- Vector Q1. -/
theorem test_genSine_q1 :
    seqErr (exec .genSine (sine 8 false 4)) = some ([128, 255, 128, 1], .none) := by
  decide +kernel

/-- Vectors Q10 and Q10u under QARITH = REAL: a negative amplitude turns the wave over. -/
theorem test_genSine_q10_real :
    seqErr (exec .genSine { sine 8 true 4 with
      ampEn := true, amplitudeReg := 0xFFFFFF9C, qarith := .real }) =
      some ([0, -100, 0, 100], .none) := by
  decide +kernel

/-- Vector Q14: the two arithmetics differ. -/
theorem test_quantize_q14 :
    quantize .real fresh.sin64 13 26 254 0 true = some 0 ∧
    quantizeB64 (fun x => if x = 0x400921FB54442D19 then 0xBCB72CECE675D1FD else 0)
      13 26 254 0 true = some (-1) := by
  decide +kernel

/-- Vector QE9: a sample above 2^63 - 1. -/
theorem test_genSine_range :
    statusAfter (exec .genSine { sine 32 false 4 with
      offsetHi := 0x4202A05F, offsetLo := 0x20000000 }) = some 0x00000014 := by
  decide +kernel

/-- Vector P1. -/
theorem test_packData_p1 :
    seqErr (exec .packData (withIn 16 [0x01, 0x02, 0x03, 0x04])) =
      some ([0x0102, 0x0304], .none) := by
  decide +kernel

/-- Vector P11: the width is checked before IN_OVF. -/
theorem test_packData_p11 :
    seqErr (exec .packData { withIn 0 [0x01] with inOvf := true }) = some ([], .width) := by
  decide

/-- Vectors B4 and B5: the mask of 42_serializer.md R140. -/
theorem test_emit_masks :
    outErr (exec .emit (withSeq 12 false [-2047, 0xABCD])) =
      some ([0x08, 0x01, 0x0B, 0xCD], .none) := by
  decide +kernel

/-- Vector M4, as its 88 bytes. -/
theorem test_emit_m4 :
    outErr (exec .emit { withSeq 8 false [] with mif := true, cmBuf := [0x78] }) = some
      ([0x2D, 0x2D, 0x20, 0x78, 0x0A, 0x0A,
        0x44, 0x45, 0x50, 0x54, 0x48, 0x20, 0x3D, 0x20, 0x30, 0x3B, 0x0A,
        0x57, 0x49, 0x44, 0x54, 0x48, 0x20, 0x3D, 0x20, 0x38, 0x3B, 0x0A,
        0x41, 0x44, 0x44, 0x52, 0x45, 0x53, 0x53, 0x5F, 0x52, 0x41, 0x44, 0x49, 0x58, 0x20, 0x3D,
        0x20, 0x44, 0x45, 0x43, 0x3B, 0x0A,
        0x44, 0x41, 0x54, 0x41, 0x5F, 0x52, 0x41, 0x44, 0x49, 0x58, 0x20, 0x3D, 0x20, 0x42, 0x49,
        0x4E, 0x3B, 0x0A, 0x0A,
        0x43, 0x4F, 0x4E, 0x54, 0x45, 0x4E, 0x54, 0x0A, 0x42, 0x45, 0x47, 0x49, 0x4E, 0x0A, 0x0A,
        0x45, 0x4E, 0x44, 0x3B, 0x0A], .none) := by
  decide +kernel

/-- The last data line of vector M3. -/
theorem test_mif_line_m3 :
    mifLine 12 true (-2047) 3 =
      [0x33, 0x20, 0x3A, 0x20, 0x31, 0x30, 0x30, 0x30, 0x30, 0x30, 0x30, 0x30, 0x30, 0x30, 0x30,
        0x31, 0x3B, 0x20, 0x20, 0x20, 0x20, 0x20, 0x20, 0x20, 0x2D, 0x2D, 0x20, 0x2D, 0x32, 0x30,
        0x34, 0x37, 0x0A] := by
  decide +kernel

/-- Vector P14. -/
theorem test_clearIn :
    (next? (exec .clearIn { withIn 8 [1, 2, 3] with inOvf := true, sticky := true })).map
      (fun t => (t.inBuf, t.statusWord)) = some ([], 0x00000010) := by
  decide

/-- Vector C6. -/
theorem test_clearCm :
    (next? (exec .clearCm { fresh with cmBuf := [1, 2, 3, 4, 5], cmOvf := true })).map
      (fun t => (t.cmBuf, t.statusWord)) = some ([], 0) := by
  decide

/-- Vector C5. -/
theorem test_softReset :
    statusAfter (exec .softReset { withSeq 8 true [1] with sticky := true, inOvf := true }) =
      some 0 := by
  decide

/-- Vector C2. -/
theorem test_reserved : statusAfter (exec (decode 0x00000007) fresh) = some 0x00000016 := by decide

/-! ### Register accesses (95_test_vectors.md §2.7) -/

/-- Vector R1. -/
theorem test_ctrl_reads_back : (fresh.writeCtrl 0xFFFFFFFF).ctrlWord = 0x0000073F := by decide

/-- Vector R5: the third byte is dropped. -/
theorem test_in_overflow :
    (((({ fresh with inCapR := 2 } : State).appendIn 1).appendIn 2).appendIn 3).statusWord =
      0x00000100 := by
  decide

/-- 30_encoding.md R87: `puts` writes the ASCII bytes of the characters (those that program A of
95_test_vectors.md gives to "rom"). -/
theorem test_puts_ascii :
    puts 0x1000 .cmData ['r', 'o', 'm'] =
      [.access (.write 0x1024 4 0x72), .access (.write 0x1024 4 0x6F),
        .access (.write 0x1024 4 0x6D)] := by
  decide

/-- 00_scope.md R10: U+007F is the last character with an ASCII byte; the next one's byte is free
(log 23). -/
theorem test_last_ascii_character :
    ascii [Char.ofNat 0x7F, Char.ofNat 0x80] = [0x7F, Config.nonAsciiByte (Char.ofNat 0x80)] := by
  rfl

/-- 70_reset_and_hazards.md R235: the command is done, but no read of STATUS has shown BUSY = 0. -/
theorem test_access_before_idle_is_seen :
    step { facing [rd 0x1000 .seqLen] with awaitingIdle := true } =
      .refused (.hostFault .busy) := by
  rfl

/-- R235: the read of STATUS that shows BUSY = 0 ends the wait. -/
theorem test_idle_is_seen :
    (next? (step { facing [.poll] with awaitingIdle := true })).map
      (fun t => (t.awaitingIdle, t.inputs)) = some (false, []) := by
  decide

/-- Vectors R6 and R7. -/
theorem test_host_faults :
    memRead { fresh with pend := some 0 } 0x102C 4 = .error .busy ∧
    memRead fresh 0x1002 4 = .error .misaligned := by
  decide

/-! ### What meets the hypotheses of the statements -/

theorem witness_OtherWordsAreReserved :
    (7 ≤ ((0x7 : Word).extractLsb' 0 4).toNat ∧ (0x7 : Word).extractLsb' 4 28 = 0) ∧
    (7 ≤ ((0xF : Word).extractLsb' 0 4).toNat ∧ (0xF : Word).extractLsb' 4 28 = 0) ∧
    (0x10 : Word).extractLsb' 4 28 ≠ 0 ∧ (0xFFFFFFFF : Word).extractLsb' 4 28 ≠ 0 := by
  decide

theorem witness_DecodeAndEncodeAgree :
    Instr.softReset.wf = true ∧ (Instr.reserved 0x7).wf = true ∧
    (Instr.reserved 0xFFFFFFFF).wf = true := by
  decide

/-- A command pending with its step due. -/
def due (c : Word) : State :=
  { facing [.poll] with pend := some c, wait := 0, awaitingIdle := true }

theorem witness_StepRunsDecodedCommand :
    ((due 3).pend = some 3 ∧ ((due 3).wait = 0 ∨ (due 3).inputs = [])) ∧
    ({ fresh with pend := some 3, wait := 5 } : State).inputs = [] := by
  decide

theorem witness_ErrorsArePrecise :
    ∃ t, exec (.reserved 7) (due 7) = .next t ∧ t.err ≠ .none ∧ decode 7 = .reserved 7 :=
  ⟨_, rfl, by decide, by decide⟩

theorem witness_SoftResetRestoresResetValues :
    ∃ t, exec .softReset { due 6 with sticky := true } = .next t ∧
      ({ due 6 with sticky := true } : State).sticky = true ∧ t.sticky = false :=
  ⟨_, rfl, by decide, by decide⟩

/-- Two states that agree on every operand of R82's table and differ elsewhere. -/
theorem witness_CommandsReadOnlyTheirOperands :
    let s : State := { withSeq 8 true [128, -1] with
      width := 12, lengthReg := 4, inBuf := [1, 2], mif := true, cmBuf := [0x78] }
    let u : State := { s with sticky := true, err := .range, outRp := 3, reads := [(0, 1)] }
    s.sameInstance u ∧ s ≠ u ∧
    (s.width = u.width ∧ s.signed = u.signed ∧ s.ampEn = u.ampEn ∧ s.lengthReg = u.lengthReg ∧
      s.amplitudeReg = u.amplitudeReg ∧ s.offsetHi = u.offsetHi ∧ s.offsetLo = u.offsetLo) ∧
    (s.inBuf = u.inBuf ∧ s.inOvf = u.inOvf) ∧
    (s.mif = u.mif ∧ s.seq = u.seq ∧ s.seqValid = u.seqValid ∧ s.seqSine = u.seqSine ∧
      s.seqWidth = u.seqWidth ∧ s.mif = true ∧ s.cmBuf = u.cmBuf ∧ s.cmOvf = u.cmOvf) := by
  unfold State.sameInstance
  decide

theorem witness_GenSineStoresEverySample :
    1 ≤ (sine 8 false 4).width.toNat ∧ (sine 8 false 4).width.toNat ≤ 32 ∧
    (sine 8 false 4).lengthReg ≠ 0 ∧
    (sine 8 false 4).lengthReg.toNat ≤ (sine 8 false 4).seqCapR.toNat ∧
    ∀ i < (sine 8 false 4).lengthReg.toNat,
      quantize (sine 8 false 4).qarith (sine 8 false 4).sin64 i (sine 8 false 4).lengthReg.toNat
        (scaleOf (sine 8 false 4).width.toNat (sine 8 false 4).ampEn
          (sine 8 false 4).amplitudeReg.toInt)
        ((sine 8 false 4).offsetHi ++ (sine 8 false 4).offsetLo) (sine 8 false 4).signed =
      some ([128, 255, 128, 1].getD i 0) := by
  decide +kernel

/-- The widths at both ends of the range. -/
theorem witness_GenSineDefaultScaleSucceeds :
    ∀ w ∈ [(1 : BitVec 6), 32],
      1 ≤ (sine w true 8).width.toNat ∧ (sine w true 8).width.toNat ≤ 32 ∧
      (sine w true 8).lengthReg ≠ 0 ∧
      (sine w true 8).lengthReg.toNat ≤ (sine w true 8).seqCapR.toNat ∧
      (sine w true 8).ampEn = false ∧ (sine w true 8).offsetHi = 0 ∧
      (sine w true 8).offsetLo = 0 := by
  decide

/-- Each error, at the limits of its check, and the success. -/
theorem witness_PackDataStoresBigEndianWords :
    (∀ w ∈ [(0 : BitVec 6), 33, 63], (withIn w []).width.toNat < 1 ∨ 32 < (withIn w []).width.toNat) ∧
    (∀ w ∈ [(1 : BitVec 6), 32], 1 ≤ (withIn w []).width.toNat ∧ (withIn w []).width.toNat ≤ 32) ∧
    ({ withIn 8 [] with inOvf := true } : State).inOvf = true ∧
    ((withIn 12 [1, 2, 3]).inOvf = false ∧ (withIn 12 [1, 2, 3]).inBuf.length % 2 ≠ 0) ∧
    ((withIn 12 []).inOvf = false ∧ (List.replicate 18 (0 : Byte)).length % 2 = 0 ∧
      (withIn 12 []).seqCapR.toNat < (List.replicate 18 (0 : Byte)).length / 2) ∧
    let s := withIn 12 [0xAB, 0xCD]
    12 = s.width.toNat ∧ 2 = (if 12 ≤ 8 then 1 else if 12 ≤ 16 then 2 else if 12 ≤ 24 then 3 else 4) ∧
    s.inOvf = false ∧ s.inBuf.length % 2 = 0 ∧ s.inBuf.length / 2 ≤ s.seqCapR.toNat := by
  decide

/-- Both output modes. -/
theorem witness_EmitReplacesOut :
    ∀ m ∈ [false, true],
      let s : State := { withSeq 8 true [128, -1] with mif := m, cmBuf := [0x78] }
      s.seqValid = true ∧ (s.mif = true → s.cmOvf = false) ∧
      (if s.mif then mifDocument s.seq s.seqWidth.toNat s.seqSine s.cmBuf
        else s.seq.flatMap (serializeWord s.seqWidth.toNat)).length ≤ s.outCapR.toNat := by
  decide +kernel

/-- A sine that meets 40_quantizer.md R103: constantly +0.0. -/
def zeroSine : B64 → B64 := fun _ => 0

theorem zeroSine_ok (x : B64) : f64IsFinite (zeroSine x) = true ∧
    -(2 ^ 1074) ≤ f64Int (zeroSine x) ∧ f64Int (zeroSine x) ≤ 2 ^ 1074 := by
  have h : f64Int (zeroSine x) = 0 := show f64Int 0 = 0 by decide
  rw [h]
  exact ⟨show f64IsFinite 0 = true by decide, neg_nonpos.mpr (by positivity), by positivity⟩

theorem witness_SineMeetsItsBounds :
    f64IsFinite 0x400921FB54442D18 = true ∧ zeroSine 0 = 0 ∧
    ∀ x, f64IsFinite x = true → f64IsFinite (zeroSine x) = true ∧
      -(2 ^ 1074) ≤ f64Int (zeroSine x) ∧ f64Int (zeroSine x) ≤ 2 ^ 1074 :=
  ⟨by decide, rfl, fun x _ => zeroSine_ok x⟩

/-- A value that rounds up, one that ties, and both sides of the limit of overflow. -/
theorem witness_RoundingIsNearestEven :
    roundMag 5 3 < f64InfBits ∧ roundMag 5 2 = 2 ∧ 0 < f64InfBits ∧ 0 ≠ roundMag 5 3 ∧
    roundMag ((2 ^ 54 - 1) * 2 ^ 2044) 1 = f64InfBits ∧
    roundMag ((2 ^ 54 - 1) * 2 ^ 2044 - 1) 1 < f64InfBits := by
  decide +kernel

/-- Finite operands with a quotient, a sum that is not 0 and one that is, and the largest integer. -/
theorem witness_RoundingIsNearestEven_operands :
    f64IsFinite 0x3FF0000000000000 = true ∧ f64IsFinite 0xBFF0000000000000 = true ∧
    f64Int 0x3FF0000000000000 ≠ 0 ∧ f64Int 0x3FF0000000000000 + f64Int 0x3FF0000000000000 ≠ 0 ∧
    f64Int 0x3FF0000000000000 + f64Int 0xBFF0000000000000 = 0 ∧ (-(2 ^ 32) : Int).natAbs ≤ 2 ^ 32 ∧
    f64InfBits - 1 < f64InfBits := by
  decide +kernel

/-- The real sample of index 0 with scale 1, signed, is the floor of the offset. -/
theorem real_sample_of_offset (off : B64) (n : Int) (h : f64Int off = n * 2 ^ 1074) :
    n = ⌊(Real.sin (2 * Real.pi * (0 : Nat) / (1 : Nat)) / 2 + (f64Int off : ℝ) / 2 ^ 1074 +
      (if true then 0 else 1 / 2)) * (1 : Int)⌋ + (if true then 0 else 1) := by
  have e : ((n * 2 ^ 1074 : Int) : ℝ) / 2 ^ 1074 = n := by
    rw [Int.cast_mul, Int.cast_pow, Int.cast_ofNat]
    exact mul_div_cancel_right₀ _ (by positivity)
  rw [h, e]
  simp

/-- The two ends of the 64-bit range: -2^63 is a sample, 2^63 is none. -/
theorem witness_RealSampleIsExact :
    (0 : Nat) < 1 ∧ f64IsFinite 0xC3E0000000000000 = true ∧ f64IsFinite 0x43E0000000000000 = true ∧
    (-(2 ^ 63) : Int) =
      ⌊(Real.sin (2 * Real.pi * (0 : Nat) / (1 : Nat)) / 2 +
        (f64Int 0xC3E0000000000000 : ℝ) / 2 ^ 1074 + (if true then 0 else 1 / 2)) * (1 : Int)⌋ +
        (if true then 0 else 1) ∧
    (2 ^ 63 : Int) =
      ⌊(Real.sin (2 * Real.pi * (0 : Nat) / (1 : Nat)) / 2 +
        (f64Int 0x43E0000000000000 : ℝ) / 2 ^ 1074 + (if true then 0 else 1 / 2)) * (1 : Int)⌋ +
        (if true then 0 else 1) ∧
    (2 ^ 63 - 1 : Int) < 2 ^ 63 :=
  ⟨by decide, by decide, by decide, real_sample_of_offset _ _ (by decide +kernel),
    real_sample_of_offset _ _ (by decide +kernel), by decide⟩

/-- A NaN and the two infinities, a finite product in range, one outside the range, and one that is
not finite, and a sample that the quantizer gives. -/
theorem witness_QuantizerStepsAndFailures :
    (f64IsFinite 0x7FF0000000000001 = false ∧ f64IsFinite 0x7FF0000000000000 = false ∧
      f64IsFinite 0xFFF0000000000000 = false) ∧
    quantize .real fresh.sin64 1 4 254 0 false = some 255 ∧
    quantize .b64 fresh.sin64 1 4 254 0 false = some 255 ∧
    quantize .b64 fresh.sin64 1 4 1 0x43E0000000000000 true = none ∧
    f64IsFinite (productB64 fresh.sin64 1 4 2 0x7FEFFFFFFFFFFFFF false) = false :=
  ⟨by decide, by decide +kernel, by decide +kernel, by decide +kernel, by decide +kernel⟩

theorem witness_PhaseZeroIsExact : (0 : Nat) < 4294967295 ∧ 4294967295 < 2 ^ 32 := by decide

theorem witness_ScaleZeroGivesTheBias :
    (4294967294 : Nat) < 4294967295 ∧ 4294967295 < 2 ^ 32 ∧ f64IsFinite 0x7FEFFFFFFFFFFFFF = true := by
  decide

theorem witness_DefaultScaleSamplesFit :
    (∀ w ∈ [1, 32], 1 ≤ w ∧ w ≤ 32) ∧ (3 : Nat) < 4 ∧ 4 < 2 ^ 32 ∧ zeroSine 0 = 0 ∧
    ∀ x, f64IsFinite x = true → f64IsFinite (zeroSine x) = true ∧
      -(2 ^ 1074) ≤ f64Int (zeroSine x) ∧ f64Int (zeroSine x) ≤ 2 ^ 1074 :=
  ⟨by decide, by decide, by decide, rfl, fun x _ => zeroSine_ok x⟩

theorem witness_WordByteCount : ∀ w ∈ [1, 8, 9, 16, 17, 24, 25, 32], 1 ≤ w ∧ w ≤ 32 := by decide

/-- The top byte of a 12-bit word, and that of a whole byte. -/
theorem witness_BinaryOutputIsMasked :
    (serializeWord 12 (-1)).head? = some 0x0F ∧ (serializeWord 8 (-1)).head? = some 0xFF := by
  decide

theorem witness_PackThenSerializeIsIdentity :
    24 ∈ [8, 16, 24, 32] ∧ ([1, 2, 3, 4, 5, 6] : List Byte).length % (24 / 8) = 0 := by
  decide

theorem witness_DecimalDigitsSpellTheNumber : (0 : Nat) < 2047 ∧ (2047 : Nat) ≠ 0 := by decide

/-- The first and the last address of the window, one below, one above, and one not aligned. -/
theorem witness_ProtocolIsChecked :
    (∀ a ∈ [0x1000, 0x10FC], a % 4 = 0 ∧ 4 = 4 ∧ fresh.base ≤ a ∧ a < fresh.base + 0x100) ∧
    (∀ a ∈ [0xFFC, 0x1100, 0x1001],
      ¬ (a % 4 = 0 ∧ 4 = 4 ∧ fresh.base ≤ a ∧ a < fresh.base + 0x100)) ∧
    (due 0).pend.isSome = true ∧ 0x1018 = (due 0).base + 0x18 ∧
    (({ fresh with awaitingIdle := true } : State).pend = none ∧
      ({ fresh with awaitingIdle := true } : State).awaitingIdle = true) ∧
    fresh.pend = none ∧ fresh.awaitingIdle = false ∧ fresh.base % 0x100 = 0 := by
  decide

theorem witness_BrokenProtocolIsRefused :
    let s := facing [.access (.read 0x1002 4)]
    s.inputs = .access (.read 0x1002 4) :: [] ∧ (s.pend = none ∨ s.wait ≠ 0) ∧
    memRead s 0x1002 4 = .error .misaligned := by
  decide

/-- The state of an idle block, for the statements about one access. -/
theorem witness_CountRegistersRead :
    fresh.base % 0x100 = 0 ∧ fresh.pend = none ∧ fresh.awaitingIdle = false := by
  decide

theorem witness_ReservedOffsetsDoNothing :
    ∀ off ∈ [0x4C, 0xFC], fresh.base % 0x100 = 0 ∧ fresh.pend = none ∧
      fresh.awaitingIdle = false ∧ 0x4C ≤ off ∧ off ≤ 0xFC ∧ off % 4 = 0 := by
  decide

theorem witness_CtrlStoresItsFields :
    fresh.base % 0x100 = 0 ∧ fresh.pend = none ∧ fresh.awaitingIdle = false :=
  witness_CountRegistersRead

theorem witness_ConfigRegistersHoldTheirBits :
    fresh.base % 0x100 = 0 ∧ fresh.pend = none ∧ fresh.awaitingIdle = false :=
  witness_CountRegistersRead

/-- Room in both buffers, and neither. -/
theorem witness_DataPortsAppend :
    (fresh.base % 0x100 = 0 ∧ fresh.pend = none ∧ fresh.awaitingIdle = false ∧
      fresh.inBuf.length < fresh.inCapR.toNat ∧ fresh.cmBuf.length < fresh.cmCapR.toNat) ∧
    ¬ (withIn 8 [1, 2, 3, 4, 5, 6, 7, 8]).inBuf.length < 8 := by
  decide

theorem witness_CmdWriteFillsPend :
    fresh.base % 0x100 = 0 ∧ fresh.pend = none ∧ fresh.awaitingIdle = false :=
  witness_CountRegistersRead

theorem witness_OtherAccessesHaveNoEffect :
    (∃ x t, memRead fresh 0x1014 4 = .ok (x, t) ∧ 0x1014 ≠ fresh.base + 0x30 ∧
      0x1014 = fresh.base + 0x14) ∧
    ∃ t, memWrite fresh 0x1018 4 0xFFFFFFFF = .ok t ∧
      0x1018 - fresh.base ∉ [0x00, 0x04, 0x08, 0x0C, 0x10, 0x14, 0x1C, 0x24] :=
  ⟨⟨_, _, rfl, by decide, by decide⟩, ⟨_, rfl, by decide⟩⟩

/-- A block with two bytes to read (vector R4), at the start, at the last byte, and at the end. -/
theorem witness_OutDataPopsOneByte :
    ∀ rp ∈ [0, 1, 2],
      let s : State := { fresh with out := [0x80, 0xFF], outRp := rp }
      s.base % 0x100 = 0 ∧ s.pend = none ∧ s.awaitingIdle = false ∧ s.outRp ≤ s.out.length ∧
      (s.out[s.outRp]?.isSome ∨ s.outRp = s.out.length) := by
  decide

theorem witness_DrainTakesEveryByte :
    let s : State := { facing [.drain] with out := [0x80, 0xFF] }
    s.base % 0x100 = 0 ∧ s.pend = none ∧ s.awaitingIdle = false ∧ s.outRp ≤ s.out.length ∧ s.inputs = .drain :: [] := by
  decide

theorem witness_SegmentsAreConcatenated :
    let s := facing ((([[0x41, 0x42], [0x43, 0x44]] : List (List Byte)).map
      (put 0x1000 .inData)).flatten ++ [])
    s.base % 0x100 = 0 ∧ s.pend = none ∧ s.awaitingIdle = false ∧
    s.inputs = ((([[0x41, 0x42], [0x43, 0x44]] : List (List Byte)).map
      (put s.base .inData)).flatten ++ []) ∧
    s.inBuf.length + ([[0x41, 0x42], [0x43, 0x44]] : List (List Byte)).flatten.length ≤
      s.inCapR.toNat := by
  decide

theorem witness_PollEnds :
    let s : State := { facing [.poll] with pend := some 0, wait := 2, awaitingIdle := true }
    s.base % 0x100 = 0 ∧ s.pend = some 0 ∧ s.inputs = .poll :: [] := by
  decide

theorem witness_RunDoesNotDependOnLatency :
    let s := facing (run 0x1000 3)
    s.base % 0x100 = 0 ∧ s.pend = none ∧ s.awaitingIdle = false ∧ s.inputs = run s.base 3 ++ [] := by
  decide

/-- A reset that arrives while a command is pending. -/
theorem witness_HardResetDropsThePendingCommand :
    let s : State := { facing [.hardReset] with pend := some 1, wait := 1, awaitingIdle := true }
    s.inputs = .hardReset :: [] ∧ (s.pend = none ∨ s.wait ≠ 0) := by
  decide

/-- A block with a signed sequence and a command pending, in the invariant. -/
theorem witness_InvKeptByEveryStep :
    let s : State := { withSeq 8 true [128, -1] with pend := some 3, awaitingIdle := true }
    s.Inv ∧ ∃ t, step s = .next t := by
  refine ⟨⟨⟨?_, ?_, ?_, ?_⟩, ⟨?_, ?_, ?_, ?_, ?_, ?_, ?_⟩, ⟨?_, ?_, ?_, ?_⟩, ?_, ?_⟩,
    ⟨_, rfl⟩⟩ <;> decide

theorem witness_ParametersNeverChange : ∃ t, step (due 3) = .next t := ⟨_, rfl⟩

theorem witness_OnlyResetsClearSticky :
    ∃ t, step ({ due 6 with sticky := true } : State) = .next t ∧
      ({ due 6 with sticky := true } : State).sticky = true ∧ t.sticky = false :=
  ⟨_, rfl, by decide, by decide⟩

/-- A write of IN_DATA and one of CM_DATA. -/
theorem witness_OnlyTheirPortsAndClearsChangeInAndCm :
    (∃ t, step (facing [.access (.write 0x101C 4 0x41)]) = .next t ∧ t.inBuf ≠ fresh.inBuf) ∧
    ∃ t, step (facing [.access (.write 0x1024 4 0x41)]) = .next t ∧ t.cmBuf ≠ fresh.cmBuf :=
  ⟨⟨_, rfl, by decide⟩, ⟨_, rfl, by decide⟩⟩

/-- PACK_DATA on an empty IN, EMIT of one byte, and a read of OUT_DATA. -/
theorem witness_OnlyTheirCommandsChangeSeqAndOut :
    (∃ t, step ({ withIn 8 [] with pend := some 2 } : State) = .next t ∧
      t.seqValid ≠ (withIn 8 []).seqValid) ∧
    (∃ t, step ({ withSeq 8 false [65] with pend := some 3 } : State) = .next t ∧
      t.out ≠ (withSeq 8 false [65]).out) ∧
    ∃ t, step ({ facing [.drain] with out := [0x80] } : State) = .next t ∧ t.outRp ≠ 0 :=
  ⟨⟨_, rfl, by decide⟩, ⟨_, rfl, by decide⟩, ⟨_, rfl, by decide⟩⟩

end Sys2Proof.Tests
end

section
/-! The parameters and the word byte count of 00_scope.md, and the invariant of the state. Each
named update of the state keeps the invariant under a condition of its own; every command and every
input meets the conditions of the updates it makes. -/

namespace Sys2Proof.Machine

/-! ### The word byte count -/

/-- A legal width takes at most four bytes (00_scope.md R6, R7). -/
theorem wordBytes_le_four {w : BitVec 6} (h : widthLegal w = true) : wordBytes w.toNat ≤ 4 := by
  have hw := (widthLegal_iff w).mp h
  unfold wordBytes
  omega

/-- Settles O27: on each of the four ranges of widths the quotient (W + 7) / 8 is constant. -/
theorem wordByteCount : Obligations.WordByteCount := by
  intro w h1 h32
  unfold wordBytes
  split_ifs <;> omega

/-! ### Packed words -/

/-- Appending one byte to a value of n bytes gives a value of n + 1 bytes. -/
theorem shiftLeft_or_byte_lt {n word : Nat} (b : Byte) (h : word < 2 ^ (8 * n)) :
    word <<< 8 ||| b.toNat < 2 ^ (8 * (n + 1)) := by
  have hshift : word <<< 8 < 2 ^ (8 * n + 8) := by
    rw [Nat.shiftLeft_eq, Nat.pow_add]
    exact Nat.mul_lt_mul_of_pos_right h (by decide)
  have hbyte : b.toNat < 2 ^ (8 * n + 8) :=
    b.isLt.trans_le (Nat.pow_le_pow_right (by decide) (by omega))
  exact Nat.or_lt_two_pow hshift hbyte

/-- Shifting n bytes in from the right gives a value of n bytes, whatever the bytes are. -/
theorem foldl_shiftLeft_or_lt (byteAt : Nat → Byte) (n : Nat) :
    (List.range n).foldl (fun word j => word <<< 8 ||| (byteAt j).toNat) 0 < 2 ^ (8 * n) := by
  induction n with
  | zero => simp
  | succ n ih =>
    rw [List.range_succ, List.foldl_append]
    exact shiftLeft_or_byte_lt (byteAt n) ih

theorem packWord_lt (bytes : List Byte) (wb k : Nat) : packWord bytes wb k < 2 ^ (8 * wb) :=
  foldl_shiftLeft_or_lt (fun j => bytes.getD (k * wb + j) 0) wb

@[simp] theorem packWords_length (bytes : List Byte) (wb : Nat) :
    (packWords bytes wb).length = bytes.length / wb := by
  simp [packWords]

/-- Packed words are unsigned words of their byte count (41_packer.md R123). -/
theorem mem_packWords_bounds {bytes : List Byte} {wb : Nat} {x : Int}
    (hx : x ∈ packWords bytes wb) : 0 ≤ x ∧ x < 2 ^ (8 * wb) := by
  obtain ⟨k, -, rfl⟩ := List.mem_map.mp hx
  exact ⟨Int.natCast_nonneg _, by exact_mod_cast packWord_lt bytes wb k⟩

theorem sampleInRange_iff (n : Int) :
    sampleInRange n = true ↔ -(2 ^ 63) ≤ n ∧ n ≤ 2 ^ 63 - 1 := by
  simp [sampleInRange]

/-- A word of at most four bytes is a signed 64-bit integer. -/
theorem sampleInRange_of_word {wb : Nat} {x : Int} (hwb : wb ≤ 4)
    (hx : 0 ≤ x ∧ x < 2 ^ (8 * wb)) : sampleInRange x = true := by
  have hpow : (2 : Int) ^ (8 * wb) ≤ 2 ^ 32 := pow_le_pow_right₀ (by decide) (by omega)
  rw [sampleInRange_iff]
  omega

/-! ### Sine samples -/

theorem checkSample_eq_some {n m : Int} :
    checkSample n = some m ↔ sampleInRange n = true ∧ n = m := by
  simp [checkSample]

/-- Every sample the quantizer gives, in either arithmetic, has passed the range check
(40_quantizer.md R104). -/
theorem quantize_inRange {q : QArith} {sin : B64 → B64} {i len : Nat} {scale n : Int} {off : B64}
    {sg : Bool} (h : quantize q sin i len scale off sg = some n) : sampleInRange n = true := by
  have passed : ∀ {m : Int}, checkSample m = some n → sampleInRange n = true := by
    intro m hm
    obtain ⟨hr, rfl⟩ := checkSample_eq_some.mp hm
    exact hr
  cases q with
  | b64 => exact passed (Option.ite_none_right_eq_some.mp h).2
  | real => exact passed (Option.ite_none_right_eq_some.mp h).2

/-- `samplesUpTo` succeeds exactly with the list of all its samples, in order. -/
theorem samplesUpTo_eq_some {r : Nat → Option Int} {n : Nat} {l : List Int} :
    samplesUpTo r n = some l ↔ (List.range n).map r = l.map some := by
  induction n generalizing l with
  | zero => cases l <;> simp [samplesUpTo]
  | succ n ih =>
    rw [List.range_succ, List.map_append]
    constructor
    · intro h
      unfold samplesUpTo at h
      split at h
      · rename_i l' x hl hx
        cases h
        simp [ih.mp hl, hx]
      · cases h
    · intro h
      obtain ⟨l', last, rfl, hl, hlast⟩ := List.map_eq_append_iff.mp h.symm
      obtain ⟨x, rfl, hx⟩ := List.map_eq_singleton_iff.mp hlast
      simp [samplesUpTo, ih.mpr hl.symm, ← hx]

theorem sineSamples_length {s : State} {l : List Int} (h : s.sineSamples = some l) :
    l.length = s.lengthReg.toNat := by
  simpa using (congrArg List.length (samplesUpTo_eq_some.mp h)).symm

theorem sineSamples_inRange {s : State} {l : List Int} (h : s.sineSamples = some l) :
    ∀ x ∈ l, sampleInRange x = true := by
  intro x hx
  have hmem := List.mem_map_of_mem (f := some) hx
  rw [← samplesUpTo_eq_some.mp h] at hmem
  obtain ⟨i, -, hi⟩ := List.mem_map.mp hmem
  exact quantize_inRange hi

/-! ### What a read of STATUS shows -/

/-- Bit 5 of STATUS is BUSY (10_state.md R39). -/
theorem busyBit_statusWord (s : State) : busyBit s.statusWord = s.busy := by
  unfold busyBit State.statusWord
  rw [BitVec.getLsbD_append, BitVec.getLsbD_append, BitVec.getLsbD_append]
  simp

/-- The host sees BUSY = 0 only while no command is pending. -/
theorem busy_eq_false_of_read {s : State} {addr : Nat} (ha : addr = s.base + 0x18)
    (hv : busyBit (s.readValue (addr - s.base)) = false) : s.busy = false := by
  have hread : s.readValue (addr - s.base) = s.statusWord := by
    rw [ha, Nat.add_sub_cancel_left]
    rfl
  rw [← busyBit_statusWord, ← hread, hv]

/-! ### The invariant after each update -/

namespace State.Inv

variable {s : State}

/-- The frame of the invariant: an update of anything but the parameters, the buffers and the
sequence keeps it, if ERR still stands only with STICKY and PEND only while the host must wait. -/
theorem withControl {width : BitVec 6} {signed mif ampEn sticky awaitingIdle : Bool}
    {lengthReg amplitudeReg offsetLo offsetHi : Word} {pend : Option Word} {err : ErrCode}
    {inputs : List Input} {latency : List Nat} {wait : Nat} {reads : List (Nat × Word)}
    (h : s.Inv) (herr : err ≠ .none → sticky = true)
    (hpend : pend.isSome = true → awaitingIdle = true) :
    State.Inv { s with
      width := width, signed := signed, mif := mif, ampEn := ampEn, lengthReg := lengthReg,
      amplitudeReg := amplitudeReg, offsetLo := offsetLo, offsetHi := offsetHi, pend := pend,
      err := err, sticky := sticky, inputs := inputs, latency := latency, wait := wait,
      awaitingIdle := awaitingIdle, reads := reads } where
  params := { h.params with }
  buffers := { h.buffers with }
  sequence := { h.sequence with }
  err_sticky := herr
  pend_awaiting := hpend

/-- The invariant does not read the configuration registers, the coming inputs, the schedule or the
record of reads. -/
theorem withUnread {width : BitVec 6} {signed mif ampEn : Bool}
    {lengthReg amplitudeReg offsetLo offsetHi : Word} {inputs : List Input} {latency : List Nat}
    {wait : Nat} {reads : List (Nat × Word)} (h : s.Inv) :
    State.Inv { s with
      width := width, signed := signed, mif := mif, ampEn := ampEn, lengthReg := lengthReg,
      amplitudeReg := amplitudeReg, offsetLo := offsetLo, offsetHi := offsetHi, inputs := inputs,
      latency := latency, wait := wait, reads := reads } :=
  h.withControl h.err_sticky h.pend_awaiting

/-- An update of the byte buffers keeps the invariant if it keeps their part of it. -/
theorem withBuffers {inBuf cmBuf out : List Byte} {outRp : Nat} {inOvf cmOvf : Bool} (h : s.Inv)
    (hb : State.BuffersOk { s with
      inBuf := inBuf, cmBuf := cmBuf, out := out, outRp := outRp, inOvf := inOvf,
      cmOvf := cmOvf }) :
    State.Inv { s with
      inBuf := inBuf, cmBuf := cmBuf, out := out, outRp := outRp, inOvf := inOvf,
      cmOvf := cmOvf } :=
  { h with
    params := { h.params with }
    buffers := hb
    sequence := { h.sequence with } }

theorem raiseError (h : s.Inv) (c : ErrCode) : (s.raiseError c).Inv :=
  h.withControl (fun _ => rfl) h.pend_awaiting

theorem succeed (h : s.Inv) : s.succeed.Inv :=
  h.withControl (fun herr => absurd rfl herr) h.pend_awaiting

theorem retire (h : s.Inv) : s.retire.Inv :=
  h.withControl h.err_sticky nofun

theorem issue (h : s.Inv) (v : Word) : (s.issue v).Inv :=
  h.withControl h.err_sticky fun _ => rfl

/-- The host may stop waiting once no command is pending (70_reset_and_hazards.md R235). -/
theorem seeIdle (h : s.Inv) (hb : s.busy = false) : s.seeIdle.Inv :=
  h.withControl h.err_sticky fun hbusy => absurd (hb.symm.trans hbusy) Bool.false_ne_true

theorem emptyIn (h : s.Inv) : s.emptyIn.Inv :=
  h.withBuffers { h.buffers with in_le := Nat.zero_le _, inOvf_full := nofun }

theorem emptyCm (h : s.Inv) : s.emptyCm.Inv :=
  h.withBuffers { h.buffers with cm_le := Nat.zero_le _, cmOvf_full := nofun }

/-- A document that OUT has room for replaces it. -/
theorem storeOut (h : s.Inv) {doc : List Byte} (hc : doc.length ≤ s.outCapR.toNat) :
    (s.storeOut doc).Inv :=
  h.withBuffers { h.buffers with out_le := hc, rp_le := Nat.zero_le _ }

/-- The reading position moves within OUT (20_memory.md R66). -/
theorem popOut (h : s.Inv) : s.popOut.Inv := by
  have hrp : s.popOut.outRp ≤ s.out.length := by
    have := h.buffers.rp_le
    rw [State.popOut_outRp]
    split <;> omega
  exact h.withBuffers { h.buffers with rp_le := hrp }

/-- A byte is appended only below the capacity, and dropped only at it (20_memory.md R65). -/
theorem appendIn (h : s.Inv) (b : Byte) : (s.appendIn b).Inv := by
  by_cases hroom : s.inBuf.length < s.inCapR.toNat
  · rw [State.appendIn_room s b hroom]
    exact h.withBuffers { h.buffers with
      in_le := by simpa using hroom
      inOvf_full := fun hovf => absurd (h.buffers.inOvf_full hovf) hroom.ne }
  · rw [State.appendIn_full s b hroom]
    exact h.withBuffers { h.buffers with
      inOvf_full := fun _ => h.buffers.in_le.antisymm (Nat.le_of_not_lt hroom) }

/-- A byte is appended only below the capacity, and dropped only at it (20_memory.md R67). -/
theorem appendCm (h : s.Inv) (b : Byte) : (s.appendCm b).Inv := by
  by_cases hroom : s.cmBuf.length < s.cmCapR.toNat
  · rw [State.appendCm_room s b hroom]
    exact h.withBuffers { h.buffers with
      cm_le := by simpa using hroom
      cmOvf_full := fun hovf => absurd (h.buffers.cmOvf_full hovf) hroom.ne }
  · rw [State.appendCm_full s b hroom]
    exact h.withBuffers { h.buffers with
      cmOvf_full := fun _ => h.buffers.cm_le.antisymm (Nat.le_of_not_lt hroom) }

/-- Samples that SEQ has room for replace it: in the 64-bit range, of a legal width, and words of
that width's byte count if they are not a sine. -/
theorem storeSeq (h : s.Inv) {samples : List Int} {sine : Bool} {w : BitVec 6}
    (hc : samples.length ≤ s.seqCapR.toNat) (hw : widthLegal w = true)
    (hr : ∀ x ∈ samples, sampleInRange x = true)
    (hd : sine = false → ∀ x ∈ samples, 0 ≤ x ∧ x < 2 ^ (8 * wordBytes w.toNat)) :
    (s.storeSeq samples sine w).Inv :=
  { h with
    params := { h.params with }
    buffers := { h.buffers with seq_le := hc }
    sequence :=
      { no_seq := nofun, width_legal := fun _ => hw, in_range := hr, data_word := fun _ => hd } }

end State.Inv

/-! ### The invariant after reset -/

/-- One more than a number below 2^32 - 1 does not wrap in 32 bits. -/
theorem one_le_ofNat_succ (n : Fin 4294967295) : 1 ≤ (BitVec.ofNat 32 (n.val + 1)).toNat := by
  have hn := n.isLt
  rw [BitVec.toNat_ofNat]
  omega

/-- The parameters are built so that 00_scope.md R8 admits them. -/
theorem reset_paramsOk : State.reset.ParamsOk where
  base_aligned := Nat.mul_mod_right 0x100 Config.baseIndex
  inCap_pos := one_le_ofNat_succ Config.inCapLessOne
  seqCap_pos := one_le_ofNat_succ Config.seqCapLessOne
  outCap_pos := one_le_ofNat_succ Config.outCapLessOne

/-- A reset leaves a state of the invariant whatever stood before it, if the parameters are
admitted. -/
theorem State.ParamsOk.toReset_inv {s : State} (h : s.ParamsOk) : s.toReset.Inv where
  params := { h with }
  buffers :=
    { in_le := Nat.zero_le _, cm_le := Nat.zero_le _, seq_le := Nat.zero_le _
      out_le := Nat.zero_le _, rp_le := Nat.zero_le _, inOvf_full := nofun, cmOvf_full := nofun }
  sequence :=
    { no_seq := fun _ => rfl, width_legal := nofun, in_range := nofun, data_word := nofun }
  err_sticky := fun herr => absurd rfl herr
  pend_awaiting := nofun

theorem State.ParamsOk.hardReset_inv {s : State} (h : s.ParamsOk) : s.hardReset.Inv :=
  h.toReset_inv.seeIdle rfl

/-- Settles O54: the parameters are admitted, and the rest of the state after reset is what a reset
leaves. -/
theorem invHoldsAtReset : Obligations.InvHoldsAtReset :=
  reset_paramsOk.toReset_inv

/-! ### The invariant after each step -/

/-- Every command keeps the invariant, by its own effect or by its error. -/
theorem CommandResult.inv {i : Instr} {s t : State} (hr : CommandResult i s t) (h : s.Inv) :
    t.Inv := by
  cases hr with
  | error c => exact h.raiseError c
  | nop => exact h.succeed
  | genSine _ r hw _ hc hs =>
    have hlen : r.length ≤ s.seqCapR.toNat := (sineSamples_length hs).trans_le hc
    exact (h.storeSeq (sine := true) hlen hw (sineSamples_inRange hs) nofun).succeed
  | packData _ hw _ _ hc =>
    have hlen := (packWords_length s.inBuf (wordBytes s.width.toNat)).trans_le hc
    exact (h.storeSeq hlen hw
      (fun x hx => sampleInRange_of_word (wordBytes_le_four hw) (mem_packWords_bounds hx))
      (fun _ x hx => mem_packWords_bounds hx)).succeed
  | emit _ _ _ hc => exact (h.storeOut hc).succeed
  | clearIn => exact h.emptyIn.succeed
  | clearCm => exact h.emptyCm.succeed
  | softReset => exact h.params.toReset_inv.succeed

/-- Every register write keeps the invariant. -/
theorem WriteResult.inv {s t : State} {off : Nat} {v : Word} (hr : WriteResult s off v t)
    (h : s.Inv) : t.Inv := by
  cases hr with
  | ctrl => exact h.withUnread
  | length => exact h.withUnread
  | amplitude => exact h.withUnread
  | offsetLo => exact h.withUnread
  | offsetHi => exact h.withUnread
  | cmd => exact h.issue v
  | inData => exact h.appendIn _
  | cmData => exact h.appendCm _
  | ignored => exact h

@[simp] theorem afterRead_base (s : State) (off : Nat) : (s.afterRead off).base = s.base := by
  obtain heq | ⟨-, heq⟩ := afterRead_cases s off <;> simp [heq]

@[simp] theorem afterRead_busy (s : State) (off : Nat) : (s.afterRead off).busy = s.busy := by
  obtain heq | ⟨-, heq⟩ := afterRead_cases s off <;> simp [heq, State.busy]

theorem afterRead_inv {s : State} (h : s.Inv) (off : Nat) : (s.afterRead off).Inv := by
  obtain heq | ⟨-, heq⟩ := afterRead_cases s off <;> rw [heq]
  · exact h
  · exact h.popOut

/-- A read keeps the invariant with its side effect and with what the host learns: it stops waiting
only when STATUS has shown BUSY = 0, and then no command is pending. -/
theorem afterRead_observe_inv {s : State} (h : s.Inv) (addr : Nat) :
    ((s.afterRead (addr - s.base)).observe addr (s.readValue (addr - s.base))).Inv := by
  obtain ⟨ha, hv, heq⟩ | ⟨-, heq⟩ := observe_cases (s.afterRead (addr - s.base)) addr
    (s.readValue (addr - s.base)) <;> rw [heq]
  · rw [afterRead_base] at ha
    refine ((afterRead_inv h _).seeIdle ?_).withUnread
    rw [afterRead_busy]
    exact busy_eq_false_of_read ha hv
  · exact (afterRead_inv h _).withUnread

/-- Every input that takes place keeps the invariant. -/
theorem InputResult.inv {s t : State} {i : Input} (hr : InputResult s i t) (h : s.Inv) :
    t.Inv := by
  cases hr with
  | read _ addr _ v stays _ _ _ hv u hu =>
    have hread : u.Inv := by
      rw [hu, hv]
      exact afterRead_observe_inv h addr
    split
    · exact hread
    · exact hread.withUnread
  | write _ _ _ _ _ u hu => exact (hu.inv h).withUnread
  | hardReset => exact h.params.hardReset_inv.withUnread

theorem inputStep_inv {s t : State} {i : Input} (hi : inputStep s i = .next t) (h : s.Inv) :
    t.Inv := by
  unfold inputStep at hi
  split at hi
  · exact (doInput_next hi).inv h.withUnread
  · exact (doInput_next hi).inv h

/-- Settles O55, by the three things a step can be. -/
theorem invKeptByEveryStep : Obligations.InvKeptByEveryStep := by
  intro s t h hstep
  cases step_next hstep with
  | engine c _ _ u hr => exact (hr.inv h).retire
  | outside i rest _ _ _ hi => exact inputStep_inv hi h
  | idle => exact h

end Sys2Proof.Machine
end

section
/-! The register window of 10_state.md: what one access gives on a block that takes every access, and
which steps can change which part of the state. The first half has a rule for a read and one for a
write of each register; the second has one rule for every step, `KeptUnless.step`, which each claim
of the form "only these change that" instantiates. -/

namespace Sys2Proof.Machine

/-! ### The offsets of the window (10_state.md R23, R24) -/

theorem regOffset_le (r : Reg) : regOffset r ≤ 0x48 := by
  cases r <;> decide

theorem regOffset_mod_four (r : Reg) : regOffset r % 4 = 0 := by
  cases r <;> rfl

@[simp] theorem regAt_regOffset (r : Reg) : regAt (regOffset r) = some r :=
  regAt_eq_some.mpr rfl

theorem regAt_eq_none {off : Nat} (h : 0x4C ≤ off) : regAt off = none := by
  refine Option.eq_none_iff_forall_ne_some.mpr fun r hr => ?_
  have hle := regOffset_le r
  have hoff := regAt_eq_some.mp hr
  omega

theorem inWindow_base_add {base off : Nat} (hb : base % 0x100 = 0) (h4 : off % 4 = 0)
    (hoff : off < 0x100) : inWindow base (base + off) 4 = true := by
  rw [inWindow_iff]
  omega

/-! ### The value and the effect of an access, by register -/

section Access

variable (s : State)

@[simp] theorem readValue_regOffset (r : Reg) : s.readValue (regOffset r) = s.regValue r := by
  simp [State.readValue]

@[simp] theorem afterWrite_regOffset (r : Reg) (v : Word) :
    s.afterWrite (regOffset r) v = s.writeReg v r := by
  simp [State.afterWrite]

/-- Only a read of OUT_DATA has a side effect (20_memory.md R71). -/
theorem afterRead_regOffset_of_ne {r : Reg} (hr : r ≠ .outData) :
    s.afterRead (regOffset r) = s := by
  simp [State.afterRead, hr]

variable {off : Nat}

theorem readValue_reserved (h : 0x4C ≤ off) : s.readValue off = 0 := by
  simp [State.readValue, regAt_eq_none h]

theorem afterRead_reserved (h : 0x4C ≤ off) : s.afterRead off = s := by
  simp [State.afterRead, regAt_eq_none h]

theorem afterWrite_reserved (h : 0x4C ≤ off) (v : Word) : s.afterWrite off v = s := by
  simp [State.afterWrite, regAt_eq_none h]

end Access

/-! ### Accesses of a block that takes every access -/

/-- The host protocol allows every aligned access of the window: no command is pending
(20_memory.md R64) and the host need not wait for BUSY = 0 (70_reset_and_hazards.md R235). -/
structure State.Accessible (s : State) : Prop where
  base_aligned : s.base % 0x100 = 0
  pend_none : s.pend = none
  not_awaiting : s.awaitingIdle = false

namespace State.Accessible

variable {s : State}

theorem onlyStatus_eq_false (h : s.Accessible) : s.onlyStatus = false :=
  (Machine.onlyStatus_eq_false s).mpr ⟨h.pend_none, h.not_awaiting⟩

theorem memRead_off (h : s.Accessible) {off : Nat} (h4 : off % 4 = 0) (hoff : off < 0x100) :
    memRead s (s.base + off) 4 = .ok (s.readValue off, s.afterRead off) := by
  refine memRead_eq_ok.mpr ⟨inWindow_base_add h.base_aligned h4 hoff, ?_, ?_⟩
  · simp [h.onlyStatus_eq_false]
  · simp

theorem memWrite_off (h : s.Accessible) {off : Nat} (h4 : off % 4 = 0) (hoff : off < 0x100)
    (v : Word) : memWrite s (s.base + off) 4 v = .ok (s.afterWrite off v) := by
  refine memWrite_eq_ok.mpr
    ⟨inWindow_base_add h.base_aligned h4 hoff, h.onlyStatus_eq_false, ?_⟩
  simp

/-- A read of a register other than OUT_DATA gives its value and changes nothing. -/
theorem memRead_reg (h : s.Accessible) (r : Reg) (hr : r ≠ .outData) :
    memRead s (s.base + regOffset r) 4 = .ok (s.regValue r, s) := by
  have hoff : regOffset r < 0x100 := (regOffset_le r).trans_lt (by decide)
  rw [h.memRead_off (regOffset_mod_four r) hoff, readValue_regOffset,
    afterRead_regOffset_of_ne s hr]

theorem memRead_outData (h : s.Accessible) :
    memRead s (s.base + 0x30) 4 = .ok (s.outDataWord, s.popOut) :=
  h.memRead_off (by decide) (by decide)

theorem memWrite_reg (h : s.Accessible) (r : Reg) (v : Word) :
    memWrite s (s.base + regOffset r) 4 v = .ok (s.writeReg v r) := by
  have hoff : regOffset r < 0x100 := (regOffset_le r).trans_lt (by decide)
  rw [h.memWrite_off (regOffset_mod_four r) hoff, afterWrite_regOffset]

/-- Writing the configuration registers keeps the block accessible. -/
theorem withConfig {width : BitVec 6} {signed mif ampEn : Bool}
    {lengthReg amplitudeReg offsetLo offsetHi : Word} (h : s.Accessible) :
    State.Accessible { s with
      width := width, signed := signed, mif := mif, ampEn := ampEn, lengthReg := lengthReg,
      amplitudeReg := amplitudeReg, offsetLo := offsetLo, offsetHi := offsetHi } :=
  ⟨h.base_aligned, h.pend_none, h.not_awaiting⟩

end State.Accessible

/-! ### CTRL and the other configuration registers -/

/-- What CTRL stores of a written value is what its mask keeps (10_state.md R30): bit by bit. -/
theorem ctrlWord_writeCtrl (s : State) (v : Word) : (s.writeCtrl v).ctrlWord = v &&& 0x73F := by
  refine BitVec.eq_of_getLsbD_eq fun i hi => ?_
  unfold State.ctrlWord
  simp only [BitVec.getLsbD_append]
  interval_cases i <;> simp

/-- Settles O41, by the masked value that CTRL keeps. -/
theorem ctrlStoresItsFields : Obligations.CtrlStoresItsFields := by
  intro s v hb hp ha
  have h : s.Accessible := ⟨hb, hp, ha⟩
  have hread : memRead (s.writeCtrl v) (s.writeCtrl v).base 4 =
      .ok ((s.writeCtrl v).ctrlWord, s.writeCtrl v) :=
    h.withConfig.memRead_reg .ctrl (by decide)
  rw [ctrlWord_writeCtrl] at hread
  exact ⟨s.writeCtrl v, h.memWrite_reg .ctrl v, rfl, hread⟩

/-- Settles O42: each of the four registers is one field. -/
theorem configRegistersHoldTheirBits : Obligations.ConfigRegistersHoldTheirBits := by
  intro s v hb hp ha
  have h : s.Accessible := ⟨hb, hp, ha⟩
  exact ⟨⟨h.memWrite_reg .length v, h.withConfig.memRead_reg .length (by decide)⟩,
    ⟨h.memWrite_reg .amplitude v, h.withConfig.memRead_reg .amplitude (by decide)⟩,
    ⟨h.memWrite_reg .offsetLo v, h.withConfig.memRead_reg .offsetLo (by decide)⟩,
    ⟨h.memWrite_reg .offsetHi v, h.withConfig.memRead_reg .offsetHi (by decide)⟩⟩

/-! ### Counts, capacities and reserved offsets -/

/-- Settles O39: nine reads of registers without a side effect. -/
theorem countRegistersRead : Obligations.CountRegistersRead := by
  intro s hb hp ha
  have h : s.Accessible := ⟨hb, hp, ha⟩
  exact ⟨h.memRead_reg .inLen (by decide), h.memRead_reg .cmLen (by decide),
    h.memRead_reg .seqLen (by decide), h.memRead_reg .outAvail (by decide),
    h.memRead_reg .outLen (by decide), h.memRead_reg .inCapR (by decide),
    h.memRead_reg .cmCapR (by decide), h.memRead_reg .seqCapR (by decide),
    h.memRead_reg .outCapR (by decide)⟩

/-- Settles O40: above the last register no register stands at an offset. -/
theorem reservedOffsetsDoNothing : Obligations.ReservedOffsetsDoNothing := by
  intro s off v hb hp ha hlo hhi h4
  have h : s.Accessible := ⟨hb, hp, ha⟩
  have hoff : off < 0x100 := by omega
  rw [h.memRead_off h4 hoff, h.memWrite_off h4 hoff, readValue_reserved s hlo,
    afterRead_reserved s hlo, afterWrite_reserved s hlo]
  exact ⟨rfl, rfl⟩

/-! ### OUT_DATA -/

/-- VALID stands above the byte, so setting it adds 256 (10_state.md R48). -/
theorem byte_or_valid (b : Byte) :
    b.setWidth 32 ||| (1 <<< 8 : Word) = BitVec.ofNat 32 (b.toNat + 256) := by
  have hor : b.toNat ||| 256 = b.toNat + 256 := by
    rw [Nat.or_comm, Nat.add_comm]
    exact (Nat.two_pow_add_eq_or_of_lt b.isLt 1).symm
  have hb := b.isLt
  apply BitVec.eq_of_toNat_eq
  calc (b.setWidth 32 ||| (1 <<< 8 : Word)).toNat
      = b.toNat ||| 256 := by
        rw [BitVec.toNat_or, BitVec.toNat_setWidth_of_le (by decide)]; rfl
    _ = (BitVec.ofNat 32 (b.toNat + 256)).toNat := by
        rw [hor, BitVec.toNat_ofNat]; omega

theorem outDataWord_of_some {s : State} {b : Byte} (h : s.out[s.outRp]? = some b) :
    s.outDataWord = BitVec.ofNat 32 (b.toNat + 256) := by
  simp only [State.outDataWord, h, byte_or_valid]

theorem outDataWord_at_end {s : State} (h : s.out.length ≤ s.outRp) : s.outDataWord = 0 := by
  simp [State.outDataWord, List.getElem?_eq_none h]

theorem popOut_of_lt {s : State} (h : s.outRp < s.out.length) :
    s.popOut = { s with outRp := s.outRp + 1 } := by
  simp [State.popOut, h]

theorem popOut_at_end {s : State} (h : s.out.length ≤ s.outRp) : s.popOut = s := by
  simp [State.popOut, Nat.not_lt.mpr h]

/-- Settles O47: the byte is there exactly while OUT_RP is below OUT_LEN. -/
theorem outDataPopsOneByte : Obligations.OutDataPopsOneByte := by
  intro s hb hp ha _
  have h : s.Accessible := ⟨hb, hp, ha⟩
  rw [h.memRead_outData]
  refine ⟨fun b hbyte => ?_, fun hend => ?_⟩
  · obtain ⟨hlt, -⟩ := List.getElem?_eq_some_iff.mp hbyte
    rw [outDataWord_of_some hbyte, popOut_of_lt hlt]
  · rw [outDataWord_at_end hend.ge, popOut_at_end hend.ge]

/-! ### STATUS -/

/-- A read of STATUS is allowed whether or not a command is pending (20_memory.md R64). -/
theorem memRead_status {s : State} (hb : s.base % 0x100 = 0) :
    memRead s (s.base + 0x18) 4 = .ok (s.statusWord, s) := by
  have hoff : s.base + 0x18 - s.base = regOffset .status := Nat.add_sub_cancel_left ..
  refine memRead_eq_ok.mpr ⟨inWindow_base_add hb (by decide) (by decide), ?_, ?_, ?_⟩ <;> rw [hoff]
  · exact fun _ => regAt_regOffset .status
  · exact (readValue_regOffset s .status).symm
  · exact (afterRead_regOffset_of_ne s (by decide)).symm

/-- The one-bit fields of STATUS (10_state.md R39). -/
theorem statusWord_bits (s : State) :
    s.statusWord.getLsbD 4 = s.sticky ∧ s.statusWord.getLsbD 5 = s.pend.isSome ∧
    s.statusWord.getLsbD 6 = s.seqValid ∧ s.statusWord.getLsbD 7 = s.seqSine ∧
    s.statusWord.getLsbD 8 = s.inOvf ∧ s.statusWord.getLsbD 9 = s.cmOvf := by
  unfold State.statusWord
  simp only [BitVec.getLsbD_append]
  simp [State.busy]

theorem statusWord_err (s : State) : s.statusWord.extractLsb' 0 4 = errNumber s.err :=
  BitVec.extractLsb'_append_eq_right

theorem statusWord_low_reserved (s : State) : s.statusWord.extractLsb' 10 6 = 0 := by
  unfold State.statusWord
  iterate 7 rw [BitVec.extractLsb'_append_eq_of_le (by decide)]
  exact BitVec.extractLsb'_append_eq_right

theorem statusWord_seqWidth (s : State) : s.statusWord.extractLsb' 16 6 = s.seqWidth := by
  unfold State.statusWord
  iterate 8 rw [BitVec.extractLsb'_append_eq_of_le (by decide)]
  exact BitVec.extractLsb'_append_eq_right

theorem statusWord_high_reserved (s : State) : s.statusWord.extractLsb' 22 10 = 0 := by
  unfold State.statusWord
  iterate 8 rw [BitVec.extractLsb'_append_eq_of_le (by decide)]
  exact BitVec.extractLsb'_append_eq_left

/-- Settles O43, by the read of STATUS and by its fields. -/
theorem statusFieldPositions : Obligations.StatusFieldPositions := by
  rintro s _ rfl
  obtain ⟨hsticky, hbusy, hvalid, hsine, hin, hcm⟩ := statusWord_bits s
  refine ⟨memRead_status, ?_, hsticky, hbusy, hvalid, hsine, hin, hcm, statusWord_low_reserved s,
    statusWord_seqWidth s, statusWord_high_reserved s⟩
  rw [statusWord_err]
  cases s.err <;> rfl

/-! ### The values after reset -/

/-- Settles O53: STATUS and CTRL are built of zeros, and every other value is a field of the state
after reset. -/
theorem resetValues : Obligations.ResetValues := by
  have hctrl : State.reset.ctrlWord = 0 := by decide
  have hstatus : State.reset.statusWord = 0 := by decide
  exact ⟨hctrl, rfl, rfl, rfl, rfl, rfl, hstatus, rfl, rfl, rfl, rfl, rfl, rfl, rfl, rfl, rfl⟩

/-! ### The word of a command -/

/-- The two fields of a command word are all of it (30_encoding.md R80). -/
theorem rsvField_append_opField (w : Word) : rsvField w ++ opField w = w := by
  unfold rsvField opField
  rw [BitVec.extractLsb'_append_extractLsb'_eq_extractLsb' (by rfl)]
  exact BitVec.extractLsb'_eq_self

/-- The word a command was decoded from is the word of that command. -/
theorem encode_decode (w : Word) : encode (decode w) = w := by
  unfold decode
  split
  · rename_i hrsv
    have hw : ∀ {op : Nat}, (opField w).toNat = op → w = 0#28 ++ BitVec.ofNat 4 op := by
      rintro _ rfl
      rw [BitVec.ofNat_toNat, BitVec.setWidth_eq]
      exact (rsvField_append_opField w).symm.trans (congrArg (· ++ opField w) hrsv)
    split
    case h_8 => rfl
    all_goals
      rename_i hop
      exact (hw hop).symm
  · rfl

theorem eq_encode_of_decode {c : Word} {i : Instr} (h : decode c = i) : c = encode i := by
  rw [← h, encode_decode]

/-! ### What a step keeps -/

/-- A relation between the states before and after a step holds unless the step is one of the
commands or inputs named. A command is named by its word and the ERR it leaves, an input by BASE and
the input. The fields say so of every named update; the relation may not read what the schedule and
the host's side of the state hold. -/
structure KeptUnless (keeps : State → State → Prop) (byCommand : Word → ErrCode → Prop)
    (byInput : Nat → Input → Prop) : Prop where
  refl : ∀ s, keeps s s
  countDown : ∀ {s t : State}, keeps s.countDown t → keeps s t
  schedule : ∀ {s t : State} (pend : Option Word) (inputs : List Input) (latency : List Nat)
    (wait : Nat) (awaitingIdle : Bool) (reads : List (Nat × Word)), keeps s t →
    keeps s { t with
      pend := pend, inputs := inputs, latency := latency, wait := wait,
      awaitingIdle := awaitingIdle, reads := reads }
  command : ∀ {s t : State} {c : Word}, CommandResult (decode c) s t →
    keeps s t ∨ byCommand c t.err
  write : ∀ {s t : State} {off : Nat} {v : Word}, WriteResult s off v t →
    keeps s t ∨ byInput s.base (.access (.write (s.base + off) 4 v))
  popOut : ∀ (s : State) (i : Input), i = .drain ∨ i = .access (.read (s.base + 0x30) 4) →
    keeps s s.popOut ∨ byInput s.base i
  toReset : ∀ s : State, keeps s s.toReset ∨ byInput s.base .hardReset

namespace KeptUnless

variable {keeps : State → State → Prop} {byCommand : Word → ErrCode → Prop}
  {byInput : Nat → Input → Prop} {s t u : State}

theorem dropInput (h : KeptUnless keeps byCommand byInput) (hk : keeps s t) :
    keeps s t.dropInput :=
  h.schedule _ _ _ _ _ _ hk

theorem seeIdle (h : KeptUnless keeps byCommand byInput) (hk : keeps s t) : keeps s t.seeIdle :=
  h.schedule _ _ _ _ _ _ hk

theorem noteRead (h : KeptUnless keeps byCommand byInput) (hk : keeps s t) (addr : Nat) (v : Word) :
    keeps s (t.noteRead addr v) :=
  h.schedule _ _ _ _ _ _ hk

/-- What the host learns from a read changes only the host's side. -/
theorem observe (h : KeptUnless keeps byCommand byInput) (hk : keeps s t) (addr : Nat) (v : Word) :
    keeps s (t.observe addr v) := by
  obtain ⟨-, -, heq⟩ | ⟨-, heq⟩ := observe_cases t addr v <;> rw [heq]
  · exact h.noteRead (h.seeIdle hk) addr v
  · exact h.noteRead hk addr v

/-- A read that has a side effect is a read of OUT_DATA, alone or within `drain`. -/
theorem afterRead (h : KeptUnless keeps byCommand byInput) {i : Input} {addr size : Nat}
    (hi : (i = .poll ∧ addr = s.base + 0x18) ∨ (i = .drain ∧ addr = s.base + 0x30) ∨
      i = .access (.read addr size))
    (hw : inWindow s.base addr size = true) :
    keeps s (s.afterRead (addr - s.base)) ∨ byInput s.base i := by
  obtain ⟨-, hsize, hlo, -⟩ := (inWindow_iff ..).mp hw
  obtain heq | ⟨hoff, heq⟩ := afterRead_cases s (addr - s.base) <;> rw [heq]
  · exact .inl (h.refl s)
  · have haddr : addr = s.base + 0x30 := by omega
    refine h.popOut s i ?_
    obtain ⟨-, hstatus⟩ | ⟨hdrain, -⟩ | hread := hi
    · omega
    · exact .inl hdrain
    · exact .inr (by rw [hread, hsize, haddr])

theorem inputResult (h : KeptUnless keeps byCommand byInput) {i : Input}
    (hr : InputResult s i t) : keeps s t ∨ byInput s.base i := by
  cases hr with
  | read _ addr _ v stays hi hw _ _ u hu =>
    refine (h.afterRead hi hw).imp_left fun hk => ?_
    have hobs : keeps s u := hu ▸ h.observe hk addr v
    split
    · exact hobs
    · exact h.dropInput hobs
  | write addr size v hw _ u hu =>
    obtain ⟨-, rfl, hlo, -⟩ := (inWindow_iff ..).mp hw
    have hwrite := (h.write hu).imp_left h.dropInput
    rwa [Nat.add_sub_cancel' hlo] at hwrite
  | hardReset => exact (h.toReset s).imp_left fun hk => h.dropInput (h.seeIdle hk)

theorem inputStep (h : KeptUnless keeps byCommand byInput) {i : Input}
    (hi : inputStep s i = .next t) : keeps s t ∨ byInput s.base i := by
  unfold Machine.inputStep at hi
  split at hi
  · exact (h.inputResult (doInput_next hi)).imp_left h.countDown
  · exact h.inputResult (doInput_next hi)

/-- The rule of this section: a step keeps the relation, or the pending word is one of the commands
named, or the next input is one of those named. -/
theorem step (h : KeptUnless keeps byCommand byInput) (hstep : Machine.step s = .next t) :
    keeps s t ∨ (∃ c, s.pend = some c ∧ byCommand c t.err) ∨
      ∃ i rest, s.inputs = i :: rest ∧ byInput s.base i := by
  cases step_next hstep with
  | engine c hp _ u hr =>
    exact (h.command hr).imp (fun hk => h.schedule _ _ _ _ _ _ hk) fun hc => .inl ⟨c, hp, hc⟩
  | outside i rest hin _ _ hi =>
    exact (h.inputStep hi).imp_right fun hb => .inr ⟨i, rest, hin, hb⟩
  | idle => exact .inl (h.refl s)

/-- Where hardware reset is the only input named, it is the next input. -/
theorem step_of_hardReset (h : KeptUnless keeps byCommand fun _ i => i = .hardReset)
    (hstep : Machine.step s = .next t) :
    keeps s t ∨ (∃ c, s.pend = some c ∧ byCommand c t.err) ∨
      ∃ rest, s.inputs = .hardReset :: rest := by
  refine (h.step hstep).imp_right (Or.imp_right ?_)
  rintro ⟨_, rest, hin, rfl⟩
  exact ⟨rest, hin⟩

end KeptUnless

/-! ### The parts of the state, and what changes them -/

/-- Nothing changes the parameters: not even a reset (10_state.md R50, 44_control.md R184). -/
theorem sameInstance_kept :
    KeptUnless State.sameInstance (fun _ _ => False) fun _ _ => False where
  refl _ := ⟨rfl, rfl, rfl, rfl, rfl, rfl, rfl⟩
  countDown hk := hk
  schedule _ _ _ _ _ _ hk := hk
  command hr := by
    cases hr <;> exact .inl ⟨rfl, rfl, rfl, rfl, rfl, rfl, rfl⟩
  write hr := by
    cases hr <;> simp [State.sameInstance]
  popOut _ _ _ := .inl ⟨rfl, rfl, rfl, rfl, rfl, rfl, rfl⟩
  toReset _ := .inl ⟨rfl, rfl, rfl, rfl, rfl, rfl, rfl⟩

/-- Settles O56, by the rule for steps with no exception. -/
theorem parametersNeverChange : Obligations.ParametersNeverChange := by
  intro s t hstep
  obtain hsame | ⟨_, _, hfalse⟩ | ⟨_, _, _, hfalse⟩ := sameInstance_kept.step hstep
  · exact hsame
  · exact hfalse.elim
  · exact hfalse.elim

/-- An error sets STICKY and a success keeps it (60_exceptions.md R210, R211), so only the resets
clear it. -/
theorem sticky_kept :
    KeptUnless (fun s t => s.sticky = true → t.sticky = true) (fun c _ => c = 0x00000006)
      fun _ i => i = .hardReset where
  refl _ h := h
  countDown hk := hk
  schedule _ _ _ _ _ _ hk := hk
  command hr := by
    cases hr
    case error => exact .inl fun _ => rfl
    case softReset h => exact .inr (eq_encode_of_decode h)
    all_goals exact .inl id
  write hr := by
    cases hr <;> simp
  popOut _ _ _ := .inl id
  toReset _ := .inr rfl

/-- Settles O57, by the rule for steps. -/
theorem onlyResetsClearSticky : Obligations.OnlyResetsClearSticky := by
  intro s t hstep hset hclear
  refine (sticky_kept.step_of_hardReset hstep).resolve_left fun hk => ?_
  exact Bool.false_ne_true (hclear.symm.trans (hk hset))

/-- IN and IN_OVF (10_state.md R40, R39). -/
def State.SameIn (s t : State) : Prop := t.inBuf = s.inBuf ∧ t.inOvf = s.inOvf

theorem sameIn_kept :
    KeptUnless State.SameIn (fun c _ => c = 0x00000004 ∨ c = 0x00000006)
      fun base i => i = .hardReset ∨ ∃ v, i = .access (.write (base + 0x1C) 4 v) where
  refl _ := ⟨rfl, rfl⟩
  countDown hk := hk
  schedule _ _ _ _ _ _ hk := hk
  command hr := by
    cases hr
    case clearIn h => exact .inr (.inl (eq_encode_of_decode h))
    case softReset h => exact .inr (.inr (eq_encode_of_decode h))
    all_goals exact .inl ⟨rfl, rfl⟩
  write hr := by
    cases hr
    case inData h => exact .inr (.inr ⟨_, by rw [h]⟩)
    all_goals exact .inl (by simp [State.SameIn])
  popOut _ _ _ := .inl ⟨rfl, rfl⟩
  toReset _ := .inr (.inl rfl)

/-- CM and CM_OVF (10_state.md R43, R39). -/
def State.SameCm (s t : State) : Prop := t.cmBuf = s.cmBuf ∧ t.cmOvf = s.cmOvf

theorem sameCm_kept :
    KeptUnless State.SameCm (fun c _ => c = 0x00000005 ∨ c = 0x00000006)
      fun base i => i = .hardReset ∨ ∃ v, i = .access (.write (base + 0x24) 4 v) where
  refl _ := ⟨rfl, rfl⟩
  countDown hk := hk
  schedule _ _ _ _ _ _ hk := hk
  command hr := by
    cases hr
    case clearCm h => exact .inr (.inl (eq_encode_of_decode h))
    case softReset h => exact .inr (.inr (eq_encode_of_decode h))
    all_goals exact .inl ⟨rfl, rfl⟩
  write hr := by
    cases hr
    case cmData h => exact .inr (.inr ⟨_, by rw [h]⟩)
    all_goals exact .inl (by simp [State.SameCm])
  popOut _ _ _ := .inl ⟨rfl, rfl⟩
  toReset _ := .inr (.inl rfl)

/-- Settles O58, by the rule for steps for IN and for CM. -/
theorem onlyTheirPortsAndClearsChangeInAndCm :
    Obligations.OnlyTheirPortsAndClearsChangeInAndCm := by
  intro s t hstep
  exact ⟨fun hne => (sameIn_kept.step hstep).resolve_left (not_and_or.mpr hne),
    fun hne => (sameCm_kept.step hstep).resolve_left (not_and_or.mpr hne)⟩

/-- SEQ and the SEQ_* fields (10_state.md R45, R39). -/
def State.SameSeq (s t : State) : Prop :=
  t.seq = s.seq ∧ t.seqValid = s.seqValid ∧ t.seqSine = s.seqSine ∧ t.seqWidth = s.seqWidth

theorem sameSeq_kept :
    KeptUnless State.SameSeq
      (fun c e => ((c = 0x00000001 ∨ c = 0x00000002) ∧ e = .none) ∨ c = 0x00000006)
      fun _ i => i = .hardReset where
  refl _ := ⟨rfl, rfl, rfl, rfl⟩
  countDown hk := hk
  schedule _ _ _ _ _ _ hk := hk
  command hr := by
    cases hr
    case genSine h _ _ _ _ _ => exact .inr (.inl ⟨.inl (eq_encode_of_decode h), rfl⟩)
    case packData h _ _ _ _ => exact .inr (.inl ⟨.inr (eq_encode_of_decode h), rfl⟩)
    case softReset h => exact .inr (.inr (eq_encode_of_decode h))
    all_goals exact .inl ⟨rfl, rfl, rfl, rfl⟩
  write hr := by
    cases hr <;> simp [State.SameSeq]
  popOut _ _ _ := .inl ⟨rfl, rfl, rfl, rfl⟩
  toReset _ := .inr rfl

/-- A command that replaces OUT (10_state.md R47): a successful EMIT, or SOFT_RESET. -/
def ReplacesOut (c : Word) (e : ErrCode) : Prop := (c = 0x00000003 ∧ e = .none) ∨ c = 0x00000006

/-- Only EMIT and SOFT_RESET touch OUT or OUT_RP. -/
theorem CommandResult.out_kept {s t : State} {c : Word} (hr : CommandResult (decode c) s t) :
    (t.out = s.out ∧ t.outRp = s.outRp) ∨ ReplacesOut c t.err := by
  cases hr
  case emit h _ _ _ => exact .inr (.inl ⟨eq_encode_of_decode h, rfl⟩)
  case softReset h => exact .inr (.inr (eq_encode_of_decode h))
  all_goals exact .inl ⟨rfl, rfl⟩

theorem out_kept :
    KeptUnless (fun s t => t.out = s.out) ReplacesOut fun _ i => i = .hardReset where
  refl _ := rfl
  countDown hk := hk
  schedule _ _ _ _ _ _ hk := hk
  command hr := hr.out_kept.imp_left And.left
  write hr := by
    cases hr <;> simp
  popOut _ _ _ := .inl rfl
  toReset _ := .inr rfl

theorem outRp_kept :
    KeptUnless (fun s t => t.outRp = s.outRp) ReplacesOut
      fun base i => i = .hardReset ∨ i = .drain ∨ i = .access (.read (base + 0x30) 4) where
  refl _ := rfl
  countDown hk := hk
  schedule _ _ _ _ _ _ hk := hk
  command hr := hr.out_kept.imp_left And.right
  write hr := by
    cases hr <;> simp
  popOut _ _ hi := .inr (.inr hi)
  toReset _ := .inr (.inl rfl)

/-- Settles O59, by the rule for steps for SEQ, for OUT and for OUT_RP. -/
theorem onlyTheirCommandsChangeSeqAndOut : Obligations.OnlyTheirCommandsChangeSeqAndOut := by
  intro s t hstep
  refine ⟨fun hne => (sameSeq_kept.step_of_hardReset hstep).resolve_left ?_,
    (out_kept.step_of_hardReset hstep).resolve_left, (outRp_kept.step hstep).resolve_left⟩
  simpa only [State.SameSeq, not_and_or] using hne

end Sys2Proof.Machine
end

section
/-! The host's accesses of 20_memory.md: which of them the protocol refuses, that nothing but such a
refusal stops the machine, what a write of the data ports and of CMD leaves, and the `drain`
loop. -/

namespace Sys2Proof.Machine

/-! ### The accesses the protocol refuses (20_memory.md R64, 70_reset_and_hazards.md R235) -/

section Refused

variable {s : State} {addr size : Nat} {v : Word} {r : HostFaultReason}

theorem memRead_eq_error_iff_readFault :
    memRead s addr size = .error r ↔ s.readFault addr size = some r := by
  unfold memRead
  split <;> simp_all

theorem memWrite_eq_error_iff_writeFault :
    memWrite s addr size v = .error r ↔ s.writeFault addr size = some r := by
  unfold memWrite
  split <;> simp_all

theorem fault_of_not_inWindow (hw : inWindow s.base addr size = false) :
    s.readFault addr size = some .misaligned ∧ s.writeFault addr size = some .misaligned := by
  simp [State.readFault, State.writeFault, hw]

theorem readFault_of_onlyStatus (hw : inWindow s.base addr size = true)
    (hb : s.onlyStatus = true) (hr : regAt (addr - s.base) ≠ some .status) :
    s.readFault addr size = some .busy := by
  simp [State.readFault, hw, hb, hr]

theorem writeFault_of_onlyStatus (hw : inWindow s.base addr size = true)
    (hb : s.onlyStatus = true) : s.writeFault addr size = some .busy := by
  simp [State.writeFault, hw, hb]

theorem onlyStatus_eq_true :
    s.onlyStatus = true ↔ s.pend.isSome = true ∨ s.awaitingIdle = true := by
  simp [State.onlyStatus, State.busy]

theorem regAt_status_iff (h : s.base ≤ addr) :
    regAt (addr - s.base) = some .status ↔ addr = s.base + 0x18 := by
  rw [regAt_eq_some, regOffset]
  omega

/-- The schedule is no part of the protocol check. -/
theorem readFault_ite_countDown (p : Bool) :
    (if p then s.countDown else s).readFault addr size = s.readFault addr size := by
  cases p <;> rfl

theorem writeFault_ite_countDown (p : Bool) :
    (if p then s.countDown else s).writeFault addr size = s.writeFault addr size := by
  cases p <;> rfl

theorem readInput_eq_refused {stays : Word → Bool} :
    readInput s addr size stays = .refused (.hostFault r) ↔ s.readFault addr size = some r := by
  rw [← memRead_eq_error_iff_readFault, readInput]
  split <;> simp_all

theorem writeInput_eq_refused :
    writeInput s addr size v = .refused (.hostFault r) ↔ s.writeFault addr size = some r := by
  rw [← memWrite_eq_error_iff_writeFault (v := v), writeInput]
  split <;> simp_all

theorem step_outside {i : Input} {rest : List Input} (hin : s.inputs = i :: rest)
    (hw : s.pend = none ∨ s.wait ≠ 0) : step s = inputStep s i := by
  simp only [step, oneStep, turn_outside hin hw]

end Refused

/-- Settles O37, by the two protocol checks. -/
theorem protocolIsChecked : Obligations.ProtocolIsChecked := by
  intro s addr size v
  refine ⟨fun hout => ?_, fun hin hwait => ?_, fun hin hp ha => ?_, memRead_status⟩
  · have hw : inWindow s.base addr size = false :=
      Bool.eq_false_iff.mpr (mt (inWindow_iff ..).mp hout)
    exact (fault_of_not_inWindow hw).imp memRead_eq_error_iff_readFault.mpr
      memWrite_eq_error_iff_writeFault.mpr
  · have hw := (inWindow_iff ..).mpr hin
    have hb := onlyStatus_eq_true.mpr hwait
    obtain ⟨-, -, hlo, -⟩ := hin
    exact ⟨memWrite_eq_error_iff_writeFault.mpr (writeFault_of_onlyStatus hw hb), fun hne =>
      memRead_eq_error_iff_readFault.mpr
        (readFault_of_onlyStatus hw hb (mt (regAt_status_iff hlo).mp hne))⟩
  · have hw := (inWindow_iff ..).mpr hin
    have hb := (onlyStatus_eq_false s).mpr ⟨hp, ha⟩
    exact ⟨⟨_, memWrite_eq_ok.mpr ⟨hw, hb, rfl⟩⟩, _, _,
      memRead_eq_ok.mpr ⟨hw, fun h => absurd h (by simp [hb]), rfl, rfl⟩⟩

/-- Settles O38: the input is the access, and counting down does not touch what is checked. -/
theorem brokenProtocolIsRefused : Obligations.BrokenProtocolIsRefused := by
  intro s a rest r hin hw
  rw [step_outside hin hw, inputStep]
  cases a with
  | read addr size =>
    refine readInput_eq_refused.trans ?_
    rw [readFault_ite_countDown]
    exact memRead_eq_error_iff_readFault.symm
  | write addr size v =>
    refine writeInput_eq_refused.trans ?_
    rw [writeFault_ite_countDown]
    exact memWrite_eq_error_iff_writeFault.symm

/-- Every input but hardware reset is one access, which the protocol may refuse; a reset always
takes place (70_reset_and_hazards.md R230). -/
theorem doInput_cases (s : State) (i : Input) :
    (∃ t, doInput s i = .next t) ∨
      ((∃ r, doInput s i = .refused (.hostFault r)) ∧ i ≠ .hardReset) := by
  have read (addr size : Nat) (stays : Word → Bool) : (∃ t, readInput s addr size stays = .next t) ∨
      ∃ r, readInput s addr size stays = .refused (.hostFault r) :=
    (readInput_cases s addr size stays).imp_right fun ⟨r, _, hr⟩ => ⟨r, hr⟩
  cases i with
  | access a =>
    cases a with
    | read addr size => exact (read addr size _).imp_right fun hr => ⟨hr, by simp⟩
    | write addr size v =>
      exact (writeInput_cases s addr size v).imp_right fun ⟨r, _, hr⟩ => ⟨⟨r, hr⟩, by simp⟩
  | poll => exact (read _ _ _).imp_right fun hr => ⟨hr, by simp⟩
  | drain => exact (read _ _ _).imp_right fun hr => ⟨hr, by simp⟩
  | hardReset => exact .inl ⟨_, rfl⟩

/-- Settles O60, by whose turn it is: every command ends in a next state. -/
theorem onlyBrokenProtocolStopsTheMachine : Obligations.OnlyBrokenProtocolStopsTheMachine := by
  intro s
  obtain ⟨c, -, -, ht⟩ | ⟨i, rest, hin, hw, -⟩ | ⟨-, -, ht⟩ := turn_cases s
  · obtain ⟨t, ht', -⟩ := exec_result (decode c) s
    exact .inl ⟨t.retire, by simp only [step, oneStep, ht, engineStep, ht']⟩
  · rw [step_outside hin hw]
    exact (doInput_cases _ i).imp_right fun ⟨hr, hi⟩ => ⟨hr, i, rest, hin, hi, hw⟩
  · exact .inl ⟨s, by simp only [step, oneStep, ht]⟩

/-! ### The data ports and CMD -/

/-- Settles O44, by the write of each of the two ports. -/
theorem dataPortsAppend : Obligations.DataPortsAppend := by
  intro s v hb hp ha
  have h : s.Accessible := ⟨hb, hp, ha⟩
  exact ⟨h.memWrite_reg .inData v, h.memWrite_reg .cmData v⟩

/-- Settles O45: bit 5 of STATUS is BUSY, and PEND is no longer empty. -/
theorem cmdWriteFillsPend : Obligations.CmdWriteFillsPend := by
  intro s v hb hp ha
  have h : s.Accessible := ⟨hb, hp, ha⟩
  exact ⟨s.issue v, h.memWrite_reg .cmd v, busyBit_statusWord (s.issue v), rfl⟩

/-! ### The accesses without an effect -/

theorem WriteResult.eq_of_not_mem {s t : State} {off : Nat} {v : Word}
    (hr : WriteResult s off v t)
    (hoff : off ∉ [0x00, 0x04, 0x08, 0x0C, 0x10, 0x14, 0x1C, 0x24]) : t = s := by
  cases hr with
  | ignored => rfl
  | ctrl h | length h | amplitude h | offsetLo h | offsetHi h | cmd h | inData h | cmData h =>
    exact absurd (by simp [h]) hoff

/-- Settles O46, by what the accesses that are done give. -/
theorem otherAccessesHaveNoEffect : Obligations.OtherAccessesHaveNoEffect := by
  intro s t addr size x v
  refine ⟨fun hread hne => ?_, fun hwrite hoff => ?_, fun hread haddr => ?_⟩
  · obtain ⟨hw, -, -, rfl⟩ := memRead_eq_ok.mp hread
    obtain ⟨-, -, hlo, -⟩ := (inWindow_iff ..).mp hw
    exact (afterRead_cases s (addr - s.base)).resolve_right fun ⟨hoff, _⟩ => hne (by omega)
  · obtain ⟨-, -, rfl⟩ := memWrite_eq_ok.mp hwrite
    exact (afterWrite_result s (addr - s.base) v).eq_of_not_mem hoff
  · obtain ⟨-, -, rfl, -⟩ := memRead_eq_ok.mp hread
    obtain rfl | rfl | rfl := haddr <;> rw [Nat.add_sub_cancel_left]
    · exact readValue_regOffset s .cmd
    · exact readValue_regOffset s .inData
    · exact readValue_regOffset s .cmData

/-! ### The drain loop (30_encoding.md R87, 20_memory.md R66) -/

/-- A read of any register but STATUS tells the host nothing of BUSY. -/
theorem observe_of_ne {s : State} {addr : Nat} (h : addr ≠ s.base + 0x18) (v : Word) :
    s.observe addr v = s.noteRead addr v := by
  obtain ⟨hstatus, -⟩ | ⟨-, heq⟩ := observe_cases s addr v
  · exact absurd hstatus h
  · exact heq

/-- One read of OUT_DATA within `drain`: the loop stays while VALID is set. -/
theorem State.Accessible.step_drain {s : State} (h : s.Accessible) {rest : List Input}
    (hin : s.inputs = .drain :: rest) :
    step s = .next (if validBit s.outDataWord
      then s.popOut.noteRead (s.base + 0x30) s.outDataWord
      else (s.popOut.noteRead (s.base + 0x30) s.outDataWord).dropInput) := by
  have hidle : s.busy = false := by simp [State.busy, h.pend_none]
  have hobs : s.popOut.observe (s.base + 0x30) s.outDataWord =
      s.popOut.noteRead (s.base + 0x30) s.outDataWord := observe_of_ne (by simp) _
  have hstep : step s = readInput s (s.base + 0x30) 4 validBit := by
    rw [step_outside hin (.inl h.pend_none), inputStep, hidle]
    rfl
  simp only [hstep, readInput, h.memRead_outData, hobs]

theorem validBit_byte (b : Byte) : validBit (BitVec.ofNat 32 (b.toNat + 256)) = true := by
  rw [← byte_or_valid]
  simp [validBit]

theorem setWidth_byte (b : Byte) : (BitVec.ofNat 32 (b.toNat + 256)).setWidth 8 = b := by
  have hb := b.isLt
  apply BitVec.eq_of_toNat_eq
  rw [BitVec.toNat_setWidth, BitVec.toNat_ofNat]
  omega

/-- A read of OUT_DATA adds its byte to what the host has drained, if it showed VALID. -/
theorem drained_noteRead_outData (s : State) (v : Word) :
    (s.noteRead (s.base + 0x30) v).drained =
      s.drained ++ if validBit v then [v.setWidth 8] else [] := by
  refine (congrArg (List.map _) (List.filter_append ..)).trans ?_
  rw [List.map_append]
  refine congrArg (s.drained ++ ·) ?_
  cases hv : validBit v <;> simp [regOffset, hv]

/-- What a step of `drain` that reads the byte `b` leaves. -/
def State.takeByte (s : State) (b : Byte) : State :=
  { s with
    outRp := s.outRp + 1
    reads := s.reads ++ [(s.base + 0x30, BitVec.ofNat 32 (b.toNat + 256))] }

theorem State.Accessible.takeByte {s : State} (h : s.Accessible) (b : Byte) :
    (s.takeByte b).Accessible :=
  ⟨h.base_aligned, h.pend_none, h.not_awaiting⟩

theorem drained_takeByte (s : State) (b : Byte) :
    (s.takeByte b).drained = s.drained ++ [b] := by
  have h := drained_noteRead_outData s (BitVec.ofNat 32 (b.toNat + 256))
  rw [validBit_byte, if_pos rfl, setWidth_byte] at h
  exact h

theorem State.Accessible.step_drain_byte {s : State} (h : s.Accessible) {rest : List Input}
    (hin : s.inputs = .drain :: rest) {b : Byte} (hb : s.out[s.outRp]? = some b) :
    step s = .next (s.takeByte b) := by
  obtain ⟨hlt, -⟩ := List.getElem?_eq_some_iff.mp hb
  rw [h.step_drain hin, outDataWord_of_some hb, validBit_byte, if_pos rfl, popOut_of_lt hlt]
  rfl

/-- The last step of `drain` reads 0 and is done. -/
theorem State.Accessible.step_drain_at_end {s : State} (h : s.Accessible) {rest : List Input}
    (hin : s.inputs = .drain :: rest) (hend : s.out.length ≤ s.outRp) :
    step s = .next (s.noteRead (s.base + 0x30) 0).dropInput := by
  rw [h.step_drain hin, outDataWord_at_end hend, popOut_at_end hend]
  rfl

/-- `drain` with `n` bytes unread, by induction on them: each step but the last takes one. -/
theorem State.Accessible.stepsFrom_drain {n : Nat} {s : State} {rest : List Input}
    (h : s.Accessible) (hn : s.outRp + n = s.out.length) (hin : s.inputs = .drain :: rest) :
    ∃ t, stepsFrom (n + 1) s = some t ∧
      t = { s with outRp := s.out.length, inputs := rest, reads := t.reads } ∧
      t.drained = s.drained ++ s.out.drop s.outRp := by
  induction n generalizing s with
  | zero =>
    have hend : s.out.length ≤ s.outRp := hn.ge
    refine ⟨(s.noteRead (s.base + 0x30) 0).dropInput, ?_, ?_, ?_⟩
    · rw [stepsFrom, h.step_drain_at_end hin hend]
      rfl
    · rw [← hn, State.dropInput, State.noteRead, hin]
      rfl
    · rw [List.drop_eq_nil_of_le hend]
      exact drained_noteRead_outData s 0
  | succ n ih =>
    have hlt : s.outRp < s.out.length := by omega
    have hstep := h.step_drain_byte hin (List.getElem?_eq_getElem hlt)
    have hleft : s.outRp + 1 + n = s.out.length := by omega
    obtain ⟨t, ht, hfields, hbytes⟩ := ih (h.takeByte s.out[s.outRp]) hleft hin
    refine ⟨t, ?_, hfields, ?_⟩
    · rw [stepsFrom, hstep]
      exact ht
    · rw [hbytes, drained_takeByte, List.append_assoc]
      exact congrArg (s.drained ++ ·) (List.drop_eq_getElem_cons hlt).symm

/-- Settles O48, by the induction on the unread bytes. -/
theorem drainTakesEveryByte : Obligations.DrainTakesEveryByte := by
  intro s rest hb hp ha hrp hin
  exact State.Accessible.stepsFrom_drain ⟨hb, hp, ha⟩ (Nat.add_sub_cancel' hrp) hin

end Sys2Proof.Machine
end

section
/-! The command words of 30_encoding.md: which word stands for which command, and which fields of the
state a command's outcome depends on. -/

namespace Sys2Proof.Machine

/-! ### Words and commands (30_encoding.md R83, R84) -/

/-- A word is reserved exactly when its fields name none of the seven commands. -/
theorem six_lt_iff_fields (w : Word) :
    6 < w.toNat ↔ (rsvField w = 0 → 7 ≤ (opField w).toNat) := by
  rw [← not_le, ← Laws.EncodeRange.fields_iff, not_and, not_le, Nat.succ_le_iff]

/-- A word above the last of the seven command words is reserved. -/
theorem decode_of_six_lt {w : Word} (h : 6 < w.toNat) : decode w = .reserved w := by
  unfold decode
  split
  · have hop : 7 ≤ (opField w).toNat := (six_lt_iff_fields w).mp h ‹_›
    split
    case h_8 => rfl
    all_goals omega
  · rfl

/-- The commands of the seven rows of R83's table, in its order. -/
def tableCommands : List Instr := [.nop, .genSine, .packData, .emit, .clearIn, .clearCm, .softReset]

/-- A word up to the last of the seven selects the row it counts. -/
theorem decode_mem_tableCommands {w : Word} (h : w.toNat ≤ 6) : decode w ∈ tableCommands := by
  have hrow : ∀ n ≤ 6, decode (BitVec.ofNat 32 n) ∈ tableCommands := by decide
  simpa using hrow w.toNat h

theorem wf_of_mem_tableCommands : ∀ i ∈ tableCommands, i.wf = true := by decide

theorem decode_encode {i : Instr} (h : i.wf = true) : decode (encode i) = i := by
  cases i with
  | reserved w => exact decode_of_six_lt (of_decide_eq_true h)
  | nop | genSine | packData | emit | clearIn | clearCm | softReset => rfl

theorem decode_wf (w : Word) : (decode w).wf = true := by
  obtain hle | hlt := le_or_gt w.toNat 6
  · exact wf_of_mem_tableCommands _ (decode_mem_tableCommands hle)
  · rw [decode_of_six_lt hlt]
    exact decide_eq_true hlt

/-- Settles O4: a command's word is among the seven or above them, and so is any word. -/
theorem decodeAndEncodeAgree : Obligations.DecodeAndEncodeAgree :=
  ⟨fun _ => decode_encode, fun w => ⟨encode_decode w, decode_wf w⟩⟩

/-- The round trips make decoding and encoding say the same. -/
theorem decode_eq_iff {w : Word} {i : Instr} (h : i.wf = true) : decode w = i ↔ w = encode i :=
  ⟨eq_encode_of_decode, fun hw => hw ▸ decode_encode h⟩

/-- Settles O1: the seven commands are well formed, and `encode` is R83's table. -/
theorem commandWordsSelectTheirCommands : Obligations.CommandWordsSelectTheirCommands := fun _ =>
  ⟨decode_eq_iff rfl, decode_eq_iff rfl, decode_eq_iff rfl, decode_eq_iff rfl, decode_eq_iff rfl,
    decode_eq_iff rfl, decode_eq_iff rfl⟩

theorem exec_reserved (w : Word) (s : State) :
    exec (.reserved w) s = .next { s with err := .badCmd, sticky := true } := rfl

/-- Settles O2: the two classes of words are those above the seven command words. -/
theorem otherWordsAreReserved : Obligations.OtherWordsAreReserved := by
  refine ⟨fun w s hfields => ?_, fun w => ?_⟩
  · have hlt : 6 < w.toNat := by
      refine (six_lt_iff_fields w).mpr fun hrsv => ?_
      obtain ⟨hop, -⟩ | hne := hfields
      · exact hop
      · exact absurd hrsv hne
    rw [decode_of_six_lt hlt]
    exact ⟨rfl, exec_reserved w s⟩
  · change decode w ∈ tableCommands ++ [.reserved w]
    obtain hle | hlt := le_or_gt w.toNat 6
    · exact List.mem_append_left _ (decode_mem_tableCommands hle)
    · exact List.mem_append_right _ (List.mem_singleton.mpr (decode_of_six_lt hlt))

/-- Settles O3: each word is the word of a well-formed command, and only 32 bits are one. -/
theorem sampleWordsDecode : Obligations.SampleWordsDecode :=
  ⟨decode_encode (i := .genSine) rfl, decode_encode (i := .emit) rfl,
    decode_encode (i := .reserved 0x13) rfl, decode_encode (i := .reserved 0x80000001) rfl,
    congrArg some (decode_encode (i := .softReset) rfl), rfl⟩

/-! ### The operands of the commands (30_encoding.md R82) -/

/-- Two outcomes of a command agree: both fail with the same code, or both succeed, in states that
are the same in what the command writes. -/
inductive OutcomesAgree (same : State → State → Prop) :
    Except ErrCode State → Except ErrCode State → Prop where
  | error {c : ErrCode} (h : c ≠ .none) : OutcomesAgree same (.error c) (.error c)
  | ok {t v : State} (h : same t v) : OutcomesAgree same (.ok t) (.ok v)

/-- A check that both outcomes make. -/
theorem OutcomesAgree.check {same : State → State → Prop} {x y : Except ErrCode State}
    {p : Prop} [Decidable p] {c : ErrCode} (hc : c ≠ .none) (h : OutcomesAgree same x y) :
    OutcomesAgree same (if p then .error c else x) (if p then .error c else y) := by
  split
  · exact .error hc
  · exact h

/-- The ends of two commands whose outcomes agree. What a command writes is other than ERR, which
success sets to E_NONE (60_exceptions.md R210, R211). -/
theorem OutcomesAgree.finish_agree {same : State → State → Prop} {x y : Except ErrCode State}
    (h : OutcomesAgree same x y) (hsame : ∀ t v, same t v → same t.succeed v.succeed)
    (s u : State) :
    ∃ s' u', finish s x = .next s' ∧ finish u y = .next u' ∧ s'.err = u'.err ∧
      (s'.err ≠ .none → s'.sticky = true ∧ u'.sticky = true) ∧ (s'.err = .none → same s' u') := by
  cases h with
  | error hc => exact ⟨_, _, rfl, rfl, rfl, fun _ => ⟨rfl, rfl⟩, fun hnone => absurd hnone hc⟩
  | ok hw => exact ⟨_, _, rfl, rfl, rfl, fun hne => absurd rfl hne, fun _ => hsame _ _ hw⟩

section Operands

variable {s u : State}

/-- The samples depend on the configuration registers and the parameters alone
(40_quantizer.md R105). -/
theorem sineSamples_congr (hq : u.qarith = s.qarith) (hsin : u.sin64Known = s.sin64Known)
    (hw : s.width = u.width) (hsg : s.signed = u.signed) (hamp : s.ampEn = u.ampEn)
    (hl : s.lengthReg = u.lengthReg) (ha : s.amplitudeReg = u.amplitudeReg)
    (hhi : s.offsetHi = u.offsetHi) (hlo : s.offsetLo = u.offsetLo) :
    s.sineSamples = u.sineSamples := by
  simp only [State.sineSamples, State.sin64, State.scale, State.amplitude, State.offset,
    hq, hsin, hw, hsg, hamp, hl, ha, hhi, hlo]

theorem genSine_agree (hcap : u.seqCapR = s.seqCapR) (hw : s.width = u.width)
    (hl : s.lengthReg = u.lengthReg) (hr : s.sineSamples = u.sineSamples) :
    OutcomesAgree (fun t v => v.SameSeq t) (genSine s) (genSine u) := by
  rw [genSine, genSine, ← hcap, hw, hl, hr]
  refine .check (by decide) (.check (by decide) (.check (by decide) ?_))
  cases u.sineSamples with
  | none => exact .error (by decide)
  | some r => exact .ok ⟨rfl, rfl, rfl, rfl⟩

theorem packData_agree (hcap : u.seqCapR = s.seqCapR) (hw : s.width = u.width)
    (hin : s.inBuf = u.inBuf) (hovf : s.inOvf = u.inOvf) :
    OutcomesAgree (fun t v => v.SameSeq t) (packData s) (packData u) := by
  rw [packData, packData, ← hcap, hw, hin, hovf]
  exact .check (by decide) (.check (by decide) (.check (by decide) (.check (by decide)
    (.ok ⟨rfl, rfl, rfl, rfl⟩))))

/-- The document depends on CM in MIF mode only (44_control.md R183). -/
theorem document_congr (hmif : s.mif = u.mif) (hseq : s.seq = u.seq) (hsine : s.seqSine = u.seqSine)
    (hw : s.seqWidth = u.seqWidth) (hcm : s.mif = true → s.cmBuf = u.cmBuf) :
    s.document = u.document := by
  rw [State.document, State.document, ← hmif, hseq, hsine, hw]
  split
  · rw [hcm ‹_›]
  · rfl

theorem emit_agree (hcap : u.outCapR = s.outCapR) (hvalid : s.seqValid = u.seqValid)
    (hovf : (s.mif && s.cmOvf) = (u.mif && u.cmOvf)) (hdoc : s.document = u.document) :
    OutcomesAgree (fun t v => t.out = v.out ∧ t.outRp = v.outRp) (emit s) (emit u) := by
  rw [emit, emit, ← hcap, hvalid, hovf, hdoc]
  exact .check (by decide) (.check (by decide) (.check (by decide) (.ok ⟨rfl, rfl⟩)))

end Operands

/-- Settles O9: of GEN_SINE, PACK_DATA and EMIT the outcomes agree; what the other four write are
constants. -/
theorem commandsReadOnlyTheirOperands : Obligations.CommandsReadOnlyTheirOperands := by
  rintro s u ⟨-, -, hseqCap, houtCap, -, hq, hsin⟩
  refine ⟨fun hw hsg hamp hl ha hhi hlo => ?_, fun hw hin hovf => ?_,
    fun hmif hseq hvalid hsine hw hcm => ?_, ⟨_, _, rfl, rfl, rfl⟩, ⟨_, _, rfl, rfl, rfl, rfl, rfl⟩,
    ⟨_, _, rfl, rfl, rfl, rfl, rfl⟩,
    ⟨_, _, rfl, rfl, rfl, rfl, rfl, rfl, rfl, rfl, rfl, rfl, rfl, rfl, rfl, rfl, rfl⟩⟩
  · have hr := sineSamples_congr hq hsin hw hsg hamp hl ha hhi hlo
    exact (genSine_agree hseqCap hw hl hr).finish_agree (fun _ _ h => h) s u
  · exact (packData_agree hseqCap hw hin hovf).finish_agree (fun _ _ h => h) s u
  · have hcmOvf : (s.mif && s.cmOvf) = (u.mif && u.cmOvf) := by
      rw [← hmif]
      cases h : s.mif with
      | false => rfl
      | true => rw [(hcm h).2]
    have hdoc := document_congr hmif hseq hsine hw fun h => (hcm h).1
    exact (emit_agree houtCap hvalid hcmOvf hdoc).finish_agree (fun _ _ h => h) s u

end Sys2Proof.Machine
end

section
/-! The binary64 arithmetic of 40_quantizer.md R102: rounding stated by the two neighbouring
magnitudes around the exact value, when it overflows, what each operation gives on finite operands, and how
signed bounds pass through it. -/

namespace Sys2Proof.Machine

/-! ### Rounding between neighbouring magnitudes -/

/-- `roundMag_spec` in the order of the magnitudes: the value lies from one magnitude to the next,
the midpoint of the two decides between them, and the even one takes the tie. -/
theorem roundMag_between (num : Nat) {den : Nat} (hd : 0 < den) :
    ∃ s, den * magUnits s ≤ num ∧ num < den * magUnits (s + 1) ∧
      (roundMag num den = min s f64InfBits ∧
          2 * num ≤ den * magUnits s + den * magUnits (s + 1) ∧
          (2 * num = den * magUnits s + den * magUnits (s + 1) → s % 2 = 0) ∨
        roundMag num den = min (s + 1) f64InfBits ∧
          den * magUnits s + den * magUnits (s + 1) ≤ 2 * num ∧
          (2 * num = den * magUnits s + den * magUnits (s + 1) → s % 2 = 1)) := by
  obtain ⟨t, n, up, hn, ht, hlo, hhi, hup, hr⟩ := roundMag_spec num den hd
  have hs := magUnits_steps t n hn.le ht
  have hs1 := magUnits_steps t (n + 1) hn (ht.imp_right fun h => h.trans n.le_succ)
  have hmid : den * ((2 * n + 1) * 2 ^ t) =
      den * magUnits (t * 2 ^ 52 + n) + den * magUnits (t * 2 ^ 52 + n + 1) := by
    rw [Nat.add_assoc, hs, hs1]
    ring
  have hparity : (t * 2 ^ 52 + n) % 2 = n % 2 := by omega
  rw [← hs] at hlo
  rw [← hs1, ← Nat.add_assoc] at hhi
  rw [← hparity, hmid] at hup
  refine ⟨t * 2 ^ 52 + n, hlo, hhi, ?_⟩
  obtain ⟨rfl, hle, htie⟩ | ⟨rfl, hle, htie⟩ := hup
  · exact .inl ⟨by rwa [Nat.add_zero] at hr, hle, htie⟩
  · exact .inr ⟨hr, hle, htie⟩

/-- Rounding to nearest, ties to even (40_quantizer.md R102). -/
theorem roundMag_nearest {num den k : Nat} (hd : 0 < den) (hr : roundMag num den < f64InfBits)
    (hk : k ≠ roundMag num den) :
    ((num : Int) - den * magUnits (roundMag num den)).natAbs <
        ((num : Int) - den * magUnits k).natAbs ∨
      (((num : Int) - den * magUnits (roundMag num den)).natAbs =
          ((num : Int) - den * magUnits k).natAbs ∧ roundMag num den % 2 = 0) := by
  have hmono {m m' : Nat} (h : m ≤ m') : den * magUnits m ≤ den * magUnits m' :=
    Nat.mul_le_mul_left den (magUnits_le_iff.mpr h)
  have hstrict {m m' : Nat} (h : m < m') : den * magUnits m < den * magUnits m' :=
    Nat.mul_lt_mul_of_pos_left (magUnits_lt_iff.mpr h) hd
  obtain ⟨s, hlo, hhi, ⟨heq, hmid, htie⟩ | ⟨heq, hmid, htie⟩⟩ := roundMag_between num hd
  · have hs : roundMag num den = s := by omega
    rw [hs] at hk ⊢
    obtain hlt | hgt := Nat.lt_or_gt_of_ne hk
    · have := hstrict hlt
      omega
    · have := hmono (show s + 1 ≤ k from hgt)
      omega
  · have hs : roundMag num den = s + 1 := by omega
    rw [hs] at hk ⊢
    obtain hlt | hgt := Nat.lt_or_gt_of_ne hk
    · have := hmono (Nat.le_of_lt_succ hlt)
      omega
    · have := hstrict hgt
      omega

/-- The rounded magnitude is infinite exactly from the midpoint of the largest finite magnitude and
the next one on. -/
theorem roundMag_eq_inf_iff_midpoint {num den : Nat} (hd : 0 < den) :
    roundMag num den = f64InfBits ↔
      den * magUnits (f64InfBits - 1) + den * magUnits f64InfBits ≤ 2 * num := by
  have hmono {m m' : Nat} (h : m ≤ m') : den * magUnits m ≤ den * magUnits m' :=
    Nat.mul_le_mul_left den (magUnits_le_iff.mpr h)
  have htop : den * magUnits (f64InfBits - 1) ≤ den * magUnits f64InfBits := hmono (Nat.sub_le _ _)
  have hodd : (f64InfBits - 1) % 2 = 1 := by decide
  obtain ⟨s, hlo, hhi, ⟨heq, hmid, htie⟩ | ⟨heq, hmid, htie⟩⟩ := roundMag_between num hd
  · rw [heq, min_eq_right_iff]
    constructor
    · intro h
      have := hmono h
      omega
    · intro h
      by_contra hs
      obtain hlt | rfl : s + 1 ≤ f64InfBits - 1 ∨ s = f64InfBits - 1 := by omega
      · have := hmono hlt
        omega
      · rw [show f64InfBits - 1 + 1 = f64InfBits from rfl] at hmid htie
        have := htie (le_antisymm hmid h)
        omega
  · rw [heq, min_eq_right_iff]
    constructor
    · intro h
      have := hmono h
      have := hmono (Nat.sub_le_of_le_add h)
      omega
    · intro h
      by_contra hs
      have := hmono (show s + 1 ≤ f64InfBits - 1 by omega)
      omega

/-- The largest finite magnitude, 2^1024 - 2^971. -/
theorem magUnits_largest : magUnits (f64InfBits - 1) = (2 ^ 53 - 1) * 2 ^ (2044 + 1) := by
  rw [show f64InfBits - 1 = (2044 + 1) * 2 ^ 52 + (2 ^ 53 - 1) from rfl,
    magUnits_steps _ _ (by norm_num) (.inr (by norm_num))]

/-- One step above the largest finite magnitude stands 2^1024. -/
theorem magUnits_inf : magUnits f64InfBits = 2 ^ 53 * 2 ^ (2044 + 1) := by
  rw [show f64InfBits = (2044 + 1) * 2 ^ 52 + 2 ^ 53 from rfl,
    magUnits_steps _ _ le_rfl (.inr (by norm_num))]

theorem magUnits_top_add : magUnits (f64InfBits - 1) + magUnits f64InfBits =
    2 * ((2 ^ 54 - 1) * 2 ^ 2044) := by
  rw [magUnits_largest, magUnits_inf, pow_succ 2 2044]
  generalize (2 : Nat) ^ 2044 = step
  omega

/-- The overflow limit of IEEE 754: the largest finite value plus half a step. -/
theorem roundMag_eq_inf_iff {num den : Nat} (hd : 0 < den) :
    roundMag num den = f64InfBits ↔ den * ((2 ^ 54 - 1) * 2 ^ 2044) ≤ num := by
  rw [roundMag_eq_inf_iff_midpoint hd, ← Nat.mul_add, magUnits_top_add, Nat.mul_left_comm,
    Nat.mul_le_mul_left_iff two_pos]

/-! ### The operations on finite operands -/

/-- The quotient of finite numbers by one that is not 0, rounded once. -/
theorem f64Div_finite {x y : B64} (hx : f64IsFinite x = true) (hy : f64IsFinite y = true)
    (h0 : f64Int y ≠ 0) :
    f64Div x y = f64Pack (f64Neg x != f64Neg y)
      (roundMag (magUnits (f64MagBits x) * f64One) (magUnits (f64MagBits y))) := by
  have hmag : f64MagBits y ≠ 0 := by
    intro h
    apply h0
    rw [← Int.natAbs_eq_zero, f64Int_natAbs, h, magUnits_zero]
  simp only [f64Div, f64_not_nan_inf hx, f64_not_nan_inf hy, Bool.or_self, Bool.false_eq_true,
    hmag, if_false]

/-- The integer division of the model is the floor of the exact value. -/
theorem f64Floor_eq (x : B64) : f64Floor x = ⌊(f64Int x : ℚ) / f64One⌋ :=
  (Rat.floor_intCast_div_natCast _ _).symm

/-- An integer of magnitude below 2^53 keeps its value. -/
theorem f64Int_ofInt {n : Int} (hn : n.natAbs < 2 ^ 53) : f64Int (f64OfInt n) = n * f64One := by
  obtain ⟨-, hmag, hneg⟩ := f64OfInt_exact hn
  rw [f64Int, hmag, hneg]
  push_cast
  simp only [decide_eq_true_eq]
  split
  · rw [abs_of_neg ‹_›]
    ring
  · rw [abs_of_nonneg (not_lt.mp ‹_›)]

/-- Settles O21: rounding lies between neighbouring magnitudes, and every operation rounds its exact
result once. -/
theorem roundingIsNearestEven : Obligations.RoundingIsNearestEven := by
  refine ⟨fun num den hd => ⟨fun hr k _ hk => roundMag_nearest hd hr hk, roundMag_le_inf num den,
    roundMag_eq_inf_iff hd⟩, fun neg m hm => ⟨f64IsFinite_pack neg hm, f64Int_pack neg hm.le⟩,
    fun x y hx hy => ⟨?_, fun h0 => ?_, fun h0 => ?_, fun h0 => ?_, f64Floor_eq x⟩,
    fun n => ⟨rfl, fun hn => ?_⟩⟩
  · rw [f64Mul_finite hx hy, Int.natAbs_mul, f64Int_natAbs, f64Int_natAbs]
  · rw [f64Div_finite hx hy h0, f64Int_natAbs, f64Int_natAbs]
  · rw [f64Add_finite hx hy, if_neg h0]
  · rw [f64Add_finite hx hy, if_pos h0]
  · have hn' : n.natAbs < 2 ^ 53 := hn.trans_lt (by norm_num)
    exact ⟨(f64OfInt_exact hn').1, f64Int_ofInt hn'⟩

end Sys2Proof.Machine
end

section
/-! The quantizer of 40_quantizer.md R102 under QARITH = REAL: the bisection gives the floor of the
exact real value. -/

namespace Sys2Proof.Machine

/-! ### The range check of a sample (40_quantizer.md R104) -/

theorem checkSample_of_mem {n : Int} (hlo : -(2 ^ 63) ≤ n) (hhi : n ≤ 2 ^ 63 - 1) :
    checkSample n = some n :=
  checkSample_eq_some.mpr ⟨(sampleInRange_iff n).mpr ⟨hlo, hhi⟩, rfl⟩

theorem checkSample_eq_none {n : Int} : checkSample n = none ↔ n < -(2 ^ 63) ∨ 2 ^ 63 - 1 < n := by
  simp only [checkSample, ite_eq_right_iff, reduceCtorEq, imp_false, sampleInRange_iff]
  omega

/-! ### The floor of the exact value -/

/-- The integer division of the model is the floor of the quotient in the real numbers. -/
theorem floor_intCast_div {den : Int} (hd : 0 < den) (num : Int) :
    ⌊(num : ℝ) / den⌋ = num / den := by
  refine eq_of_forall_le_iff fun k => ?_
  rw [Int.le_floor, le_div_iff₀ (by exact_mod_cast hd), Int.le_ediv_iff_mul_le hd]
  exact_mod_cast Iff.rfl

/-- The test of the bisection holds up to the floor of the exact value. -/
theorem sinGe_iff_le_floor {i len S : Nat} {num den : Int} (hl : 0 < len) (hi : i ≤ len)
    (hd : 0 < den) (hS : 0 < S) (n : Int) :
    sinGe i len (2 * (n * den - num)) (den * S) = true ↔
      n ≤ ⌊Real.sin (2 * Real.pi * i / len) * S / 2 + (num : ℝ) / den⌋ := by
  have hd' : (0 : ℝ) < den := by exact_mod_cast hd
  have hS' : (0 : ℝ) < S := by exact_mod_cast hS
  rw [sinGe_iff (by positivity) hl hi, Int.le_floor]
  push_cast
  rw [div_le_iff₀ (by positivity)]
  generalize Real.sin _ = y
  have hfrac : y * S / 2 + num / den = (y * (den * S) / 2 + num) / den := by field_simp
  rw [hfrac, le_div_iff₀ hd']
  constructor <;> intro h <;> linarith

/-- `sineFloor` is the floor of the exact value: the bisection starts at the least value the sine
allows, and its range reaches past the greatest. -/
theorem sineFloor_eq {i len : Nat} (S : Nat) (num : Int) {den : Int} (hl : 0 < len) (hi : i ≤ len)
    (hd : 0 < den) :
    sineFloor i len S num den = ⌊Real.sin (2 * Real.pi * i / len) * S / 2 + (num : ℝ) / den⌋ := by
  rw [sineFloor]
  split
  · rename_i hS
    rw [hS, Nat.cast_zero, mul_zero, zero_div, zero_add, floor_intCast_div hd]
  · rename_i hS
    have hstart : (2 * num - den * S) / (2 * den) = ⌊(num : ℝ) / den - S / 2⌋ := by
      have hd' : (den : ℝ) ≠ 0 := by exact_mod_cast hd.ne'
      rw [← floor_intCast_div (by omega)]
      congr 1
      push_cast
      field_simp
    have hsin := mul_le_mul_of_nonneg_right (Real.neg_one_le_sin (2 * Real.pi * i / len))
      (Nat.cast_nonneg (α := ℝ) S)
    have hsin' := mul_le_mul_of_nonneg_right (Real.sin_le_one (2 * Real.pi * i / len))
      (Nat.cast_nonneg (α := ℝ) S)
    refine searchUp_eq (sinGe_iff_le_floor hl hi hd (Nat.pos_of_ne_zero hS)) _ _ ?_ ?_
    · rw [hstart]
      exact Int.floor_le_floor (by linarith)
    · have hlog : ((S + 2 : Nat) : Int) < 2 ^ (Nat.log2 (S + 2) + 1) := by
        exact_mod_cast Nat.lt_log2_self (n := S + 2)
      have htop : ⌊Real.sin (2 * Real.pi * i / len) * S / 2 + (num : ℝ) / den⌋ ≤
          ⌊(num : ℝ) / den - S / 2⌋ + S := by
        rw [← Int.floor_add_natCast]
        exact Int.floor_le_floor (by linarith)
      rw [hstart]
      push_cast at hlog
      omega

/-! ### The sample -/

/-- The exact value that 40_quantizer.md R102 scales under QARITH = REAL. -/
noncomputable def exactValue (i len : Nat) (off : B64) (sg : Bool) : ℝ :=
  Real.sin (2 * Real.pi * i / len) / 2 + (f64Int off : ℝ) / 2 ^ 1074 + (if sg then 0 else 1 / 2)

/-- The sine of the wave turned over. -/
theorem sin_turned {i len : Nat} (hi : i < len) :
    Real.sin (2 * Real.pi * ((len - i : Nat) : ℝ) / len) = -Real.sin (2 * Real.pi * i / len) := by
  have hl : (len : ℝ) ≠ 0 := by exact_mod_cast (Nat.zero_lt_of_lt hi).ne'
  rw [Nat.cast_sub hi.le, ← Real.sin_two_pi_sub]
  congr 1
  field_simp

/-- Turning the wave over for a negative scale keeps the scaled sine. -/
theorem sin_turned_mul_natAbs {i len : Nat} (hi : i < len) (scale : Int) :
    Real.sin (2 * Real.pi * ((if scale < 0 then len - i else i : Nat) : ℝ) / len) *
        scale.natAbs = Real.sin (2 * Real.pi * i / len) * scale := by
  rw [Nat.cast_natAbs, Int.cast_abs]
  split
  · rw [sin_turned hi, abs_of_neg (by exact_mod_cast ‹scale < 0›), neg_mul_neg]
  · rw [abs_of_nonneg (by exact_mod_cast not_lt.mp ‹¬scale < 0›)]

/-- The model's integer sample is the exact one. -/
theorem sampleReal_eq {i len : Nat} (hi : i < len) (scale : Int) (off : B64) (sg : Bool) :
    sampleReal i len scale off sg = ⌊exactValue i len off sg * scale⌋ + sampleBias sg := by
  have hunits : (f64One : ℝ) = 2 ^ 1074 := by rw [f64One, Nat.cast_pow, Nat.cast_ofNat]
  have hhalf : ((if sg then 0 else 2 ^ 1073 : Int) : ℝ) / 2 ^ 1074 = if sg then 0 else 1 / 2 := by
    cases sg with
    | true => simp
    | false =>
      rw [if_neg (by decide), if_neg (by decide), Int.cast_pow, Int.cast_ofNat,
        pow_succ (2 : ℝ) 1073, div_mul_cancel_left₀ (by positivity), one_div]
  rw [sampleReal, sineFloor_eq _ _ (Nat.zero_lt_of_lt hi) (by split <;> omega)
    (by rw [f64One]; positivity), sin_turned_mul_natAbs hi, Int.cast_natCast, hunits, exactValue,
    ← hhalf]
  generalize (if sg then 0 else 2 ^ 1073 : Int) = bias
  generalize (2 : ℝ) ^ 1074 = one
  congr 2
  push_cast
  ring

theorem quantizeReal_of_finite {off : B64} (h : f64IsFinite off = true) (i len : Nat) (scale : Int)
    (sg : Bool) :
    quantizeReal i len scale off sg = checkSample (sampleReal i len scale off sg) := if_pos h

/-- Settles O22: the model's sample is the exact one, and the range check decides the rest. -/
theorem realSampleIsExact : Obligations.RealSampleIsExact := by
  intro f i len scale off sg n hi hoff hn
  have hs : sampleReal i len scale off sg = n := by
    rw [hn, sampleReal_eq hi]
    rfl
  have hq : quantize .real f i len scale off sg = checkSample n := by
    rw [← hs]
    exact quantizeReal_of_finite hoff i len scale sg
  exact ⟨hs, fun h => hq.trans (checkSample_of_mem h.1 h.2),
    fun h => hq.trans (checkSample_eq_none.mpr h)⟩

end Sys2Proof.Machine
end

section
/-! The scale of 40_quantizer.md R101, the bounds of SIN64 in R103, and the quantizer of R102 under
QARITH = B64: its range failures, and the bounds its value and its product keep. -/

namespace Sys2Proof.Machine

/-! ### The scale (40_quantizer.md R101) -/

theorem scaleOf_default (w : Nat) (amp : Int) : scaleOf w false amp = 2 ^ w - 2 := rfl

/-- Settles O19: the ranges follow from those of a signed 32-bit word and of the width. -/
theorem scaleIsExact : Obligations.ScaleIsExact := by
  refine ⟨fun w v => ?_, fun w amp hw1 hw32 => ?_, fun amp => rfl⟩
  · have hlo := BitVec.le_toInt v
    have hhi := BitVec.toInt_lt (x := v)
    have he : scaleOf w true v.toInt = 2 * v.toInt := rfl
    omega
  · have hlo : (2 : Int) ^ 1 ≤ 2 ^ w := pow_le_pow_right₀ (by decide) hw1
    have hhi : (2 : Int) ^ w ≤ 2 ^ 32 := pow_le_pow_right₀ (by decide) hw32
    rw [scaleOf_default]
    omega

/-! ### SIN64 (40_quantizer.md R103) -/

theorem f64One_pos : 0 < f64One := by
  rw [f64One]
  positivity

/-- The bits of 1.0 have the value 1.0. -/
theorem magUnits_one : magUnits 0x3FF0000000000000 = f64One := by
  have h := magUnits_steps 1022 (2 ^ 52) (by norm_num) (.inr le_rfl)
  rw [show 0x3FF0000000000000 = 1022 * 2 ^ 52 + 2 ^ 52 from rfl, h, ← pow_add, f64One]

/-- The bits of 0.5 have the value 0.5. -/
theorem two_mul_magUnits_half : 2 * magUnits (f64MagBits f64Half) = f64One := by
  have h := magUnits_steps 1021 (2 ^ 52) (by norm_num) (.inr le_rfl)
  rw [show f64MagBits f64Half = 1021 * 2 ^ 52 + 2 ^ 52 by decide, h, ← pow_add, ← pow_succ', f64One]

theorem inUnitRange_iff_natAbs (y : B64) : inUnitRange y = true ↔ (f64Int y).natAbs ≤ f64One := by
  rw [inUnitRange, decide_eq_true_eq, f64Int_natAbs, ← magUnits_one, magUnits_le_iff]

/-- The range of the model is the range of R103 (b). -/
theorem inUnitRange_iff (y : B64) :
    inUnitRange y = true ↔
      f64IsFinite y = true ∧ -(2 ^ 1074) ≤ f64Int y ∧ f64Int y ≤ 2 ^ 1074 := by
  have hfinite : inUnitRange y = true → f64IsFinite y = true := by
    rw [inUnitRange, decide_eq_true_eq, f64IsFinite_iff, f64InfBits]
    omega
  have hone : (f64One : Int) = 2 ^ 1074 := by rw [f64One, Nat.cast_pow, Nat.cast_ofNat]
  have hbounds : inUnitRange y = true ↔ -(2 ^ 1074) ≤ f64Int y ∧ f64Int y ≤ 2 ^ 1074 := by
    rw [inUnitRange_iff_natAbs, ← hone]
    omega
  exact ⟨fun h => ⟨hfinite h, hbounds.mp h⟩, fun h => hbounds.mpr h.2⟩

/-- Properties (a) and (b) of 40_quantizer.md R103. -/
structure MeetsSineBounds (f : B64 → B64) : Prop where
  zero : f 0 = 0
  unit : ∀ x, f64IsFinite x = true → inUnitRange (f x) = true

theorem meetsSineBounds_iff (f : B64 → B64) :
    MeetsSineBounds f ↔ f 0 = 0 ∧ ∀ x, f64IsFinite x = true → f64IsFinite (f x) = true ∧
      -(2 ^ 1074) ≤ f64Int (f x) ∧ f64Int (f x) ≤ 2 ^ 1074 := by
  simp only [← inUnitRange_iff]
  exact ⟨fun h => ⟨h.zero, h.unit⟩, fun h => ⟨h.1, h.2⟩⟩

theorem boundSine_meets (f : B64 → B64) : MeetsSineBounds (boundSine f) where
  zero := if_pos rfl
  unit x hx := by
    rw [boundSine, hx, Bool.true_and]
    split
    · decide
    · split
      · decide
      · simpa using ‹¬(!inUnitRange (f x)) = true›

theorem sin64_meets (s : State) : MeetsSineBounds s.sin64 := boundSine_meets _

theorem boundSine_eq_self {f : B64 → B64} (h : MeetsSineBounds f) : boundSine f = f := by
  funext x
  rw [boundSine]
  split
  · rename_i hx
    rw [hx, h.zero]
  · split
    · rename_i hbad
      obtain ⟨hx, hout⟩ := Bool.and_eq_true_iff.mp hbad
      rw [h.unit x hx] at hout
      exact absurd hout (by decide)
    · rfl

/-- Settles O20: the bound gives R103 (a) and (b), and has nothing to replace where they hold. -/
theorem sineMeetsItsBounds : Obligations.SineMeetsItsBounds :=
  ⟨fun s => (meetsSineBounds_iff _).mp (sin64_meets s),
    fun f h0 hf => boundSine_eq_self ((meetsSineBounds_iff f).mpr ⟨h0, hf⟩)⟩

/-! ### What is not finite stays so -/

theorem f64IsFinite_eq_false_iff (x : B64) :
    f64IsFinite x = false ↔ f64IsNaN x = true ∨ f64IsInf x = true := by
  simp only [f64IsFinite, f64IsNaN, f64IsInf, decide_eq_true_eq, decide_eq_false_iff_not]
  omega

theorem f64NaN_not_finite : f64IsFinite f64NaN = false := by decide

theorem f64Pack_inf_not_finite (neg : Bool) : f64IsFinite (f64Pack neg f64InfBits) = false := by
  cases neg <;> decide

theorem f64Add_not_finite {x y : B64} (h : f64IsFinite x = false ∨ f64IsFinite y = false) :
    f64IsFinite (f64Add x y) = false := by
  rw [f64Add]
  split
  · exact f64NaN_not_finite
  rename_i hnan
  split
  · split
    · exact f64NaN_not_finite
    · exact f64Pack_inf_not_finite _
  rename_i hx
  split
  · exact f64Pack_inf_not_finite _
  rename_i hy
  simp only [Bool.or_eq_true, not_or] at hnan
  simp only [f64IsFinite_eq_false_iff] at h
  exact (h.elim (·.elim hnan.1 hx) (·.elim hnan.2 hy)).elim

theorem f64Mul_not_finite {x : B64} (y : B64) (h : f64IsFinite x = false) :
    f64IsFinite (f64Mul x y) = false := by
  rw [f64Mul]
  split
  · exact f64NaN_not_finite
  rename_i hnan
  split
  · split
    · exact f64NaN_not_finite
    · exact f64Pack_inf_not_finite _
  rename_i hinf
  simp only [Bool.or_eq_true, not_or] at hnan hinf
  exact (((f64IsFinite_eq_false_iff x).mp h).elim hnan.1 hinf.1).elim

/-! ### The steps of the binary64 quantizer (40_quantizer.md R102) -/

/-- The phase of an index. -/
def phaseB64 (i len : Nat) : B64 := f64Div (f64Mul (f64OfInt i) twoPi) (f64OfInt len)

/-- The value that is scaled, from the sine of the phase. -/
def valueB64 (y off : B64) (sg : Bool) : B64 :=
  f64Add (f64Add (f64Mul f64Half y) off) (if sg then 0 else f64Half)

theorem productB64_eq (sin : B64 → B64) (i len : Nat) (scale : Int) (off : B64) (sg : Bool) :
    productB64 sin i len scale off sg =
      f64Mul (valueB64 (sin (phaseB64 i len)) off sg) (f64OfInt scale) := rfl

theorem quantizeB64_of_finite {sin : B64 → B64} {i len : Nat} {scale : Int} {off : B64} {sg : Bool}
    (h : f64IsFinite (productB64 sin i len scale off sg) = true) :
    quantizeB64 sin i len scale off sg =
      checkSample (f64Floor (productB64 sin i len scale off sg) + sampleBias sg) := if_pos h

theorem quantizeB64_of_not_finite {sin : B64 → B64} {i len : Nat} {scale : Int} {off : B64}
    {sg : Bool} (h : f64IsFinite (productB64 sin i len scale off sg) = false) :
    quantizeB64 sin i len scale off sg = none := if_neg (by rw [h]; decide)

/-- An offset that is not finite makes the quantizer fail (40_quantizer.md R104). -/
theorem quantize_offset_not_finite {off : B64} (h : f64IsFinite off = false) (q : QArith)
    (sin : B64 → B64) (i len : Nat) (scale : Int) (sg : Bool) :
    quantize q sin i len scale off sg = none := by
  cases q with
  | b64 =>
    refine quantizeB64_of_not_finite ?_
    rw [productB64_eq]
    exact f64Mul_not_finite _ (f64Add_not_finite (.inl (f64Add_not_finite (.inr h))))
  | real => exact if_neg (by rw [h]; decide)

/-- Settles O23: the steps are the model's own, and what is not finite stays so to the product. -/
theorem quantizerStepsAndFailures : Obligations.QuantizerStepsAndFailures := by
  refine ⟨fun sin i len scale off sg => ⟨rfl, ?_⟩, fun q sin i len scale off sg =>
    ⟨fun h => quantize_offset_not_finite h q sin i len scale sg,
      fun n h => (sampleInRange_iff n).mp (quantize_inRange h)⟩⟩
  rw [quantize, ← f64Floor_eq, ite_and]
  split
  · rw [quantizeB64_of_finite ‹_›, checkSample, sampleInRange, sampleBias]
    simp only [decide_eq_true_eq]
  · rw [quantizeB64_of_not_finite (Bool.eq_false_iff.mpr ‹_›)]

/-! ### The phase -/

theorem roundMag_zero {den : Nat} (hd : 0 < den) : roundMag 0 den = 0 :=
  roundMag_exact hd (Nat.zero_le _) (by rw [magUnits_zero, Nat.mul_zero])

theorem f64OfInt_zero : f64OfInt 0 = 0 := by
  rw [f64OfInt, Int.natAbs_zero, Nat.zero_mul, roundMag_zero one_pos]
  rfl

theorem f64MagBits_zero : f64MagBits 0 = 0 := by decide

theorem f64IsFinite_zero : f64IsFinite 0 = true := by decide

/-- A finite number times +0.0 is a zero with its sign. -/
theorem f64Mul_zero {x : B64} (hx : f64IsFinite x = true) : f64Mul x 0 = f64Pack (f64Neg x) 0 := by
  rw [f64Mul_finite hx f64IsFinite_zero, f64MagBits_zero, magUnits_zero, Nat.mul_zero,
    roundMag_zero f64One_pos, show f64Neg 0 = false by decide, Bool.bne_false]

theorem f64Floor_zero (neg : Bool) : f64Floor (f64Pack neg 0) = 0 := by
  rw [f64Floor, f64Int_pack neg (Nat.zero_le _), magUnits_zero, Nat.cast_zero, neg_zero, ite_self,
    Int.zero_ediv]

/-- A length converted to binary64. -/
theorem f64OfInt_len {len : Nat} (h0 : 0 < len) (h : len < 2 ^ 32) :
    f64IsFinite (f64OfInt len) = true ∧ magUnits (f64MagBits (f64OfInt len)) = len * f64One ∧
      f64Neg (f64OfInt len) = false ∧ f64Int (f64OfInt len) ≠ 0 := by
  have hlt : (len : Int).natAbs < 2 ^ 53 := by omega
  obtain ⟨hfin, hmag, hneg⟩ := f64OfInt_exact hlt
  have hpos := f64One_pos
  refine ⟨hfin, hmag, hneg.trans (decide_eq_false (by omega)), ?_⟩
  rw [f64Int_ofInt hlt]
  exact mul_ne_zero (by omega) (Int.natCast_ne_zero.mpr hpos.ne')

/-- Index 0 has phase +0.0 exactly (40_quantizer.md R105). -/
theorem phaseB64_zero {len : Nat} (h0 : 0 < len) (h : len < 2 ^ 32) : phaseB64 0 len = 0 := by
  obtain ⟨hfin, hmag, hneg, hne⟩ := f64OfInt_len h0 h
  have hone := f64One_pos
  have hproduct : f64Mul 0 twoPi = 0 := by
    rw [f64Mul_finite f64IsFinite_zero (by decide), f64MagBits_zero, magUnits_zero, Nat.zero_mul,
      roundMag_zero hone]
    decide
  rw [phaseB64, Nat.cast_zero, f64OfInt_zero, hproduct, f64Div_finite f64IsFinite_zero hfin hne,
    hneg, hmag, f64MagBits_zero, magUnits_zero, Nat.zero_mul, roundMag_zero (Nat.mul_pos h0 hone)]
  decide

/-- Settles O24: 0 times 2π and 0 over a length are +0.0, and R103 (a) gives the sine. -/
theorem phaseZeroIsExact : Obligations.PhaseZeroIsExact := by
  intro s len h0 h
  have hphase := phaseB64_zero h0 h
  rw [phaseB64] at hphase
  exact ⟨hphase, by rw [Nat.cast_zero] at hphase; rw [hphase, (sin64_meets s).zero]⟩

theorem magUnits_twoPi_le : magUnits (f64MagBits twoPi) ≤ 8 * f64One := by
  have h8 := magUnits_steps 1025 (2 ^ 52) (by norm_num) (.inr le_rfl)
  have hone : 2 ^ 52 * 2 ^ 1025 = 8 * f64One := by
    rw [f64One, show 8 = 2 ^ 3 from rfl, ← pow_add, ← pow_add]
  rw [← hone, ← h8, magUnits_le_iff]
  decide

/-- Every phase is finite: i·2π is at most 2^32·8, and the length is at least 1. -/
theorem phaseB64_finite {i len : Nat} (hi : i < len) (h : len < 2 ^ 32) :
    f64IsFinite (phaseB64 i len) = true := by
  obtain ⟨hfin, hmag, -, hne⟩ := f64OfInt_len (Nat.zero_lt_of_lt hi) h
  obtain ⟨hifin, himag, -⟩ := f64OfInt_exact (show (i : Int).natAbs < 2 ^ 53 by omega)
  obtain ⟨k, hk, hku⟩ := exists_magUnits_nat (show 2 ^ 35 < 2 ^ 53 by norm_num)
  have hproduct : magUnits (f64MagBits (f64OfInt i)) * magUnits (f64MagBits twoPi) ≤
      f64One * magUnits k := by
    calc magUnits (f64MagBits (f64OfInt i)) * magUnits (f64MagBits twoPi)
        ≤ 2 ^ 32 * f64One * (8 * f64One) :=
          Nat.mul_le_mul (himag.trans_le (Nat.mul_le_mul_right _ (by omega))) magUnits_twoPi_le
      _ = f64One * magUnits k := by rw [hku]; ring
  obtain ⟨hmfin, hmle, -⟩ := f64Mul_bound hifin (by decide) hk hproduct
  have hquotient : magUnits (f64MagBits (f64Mul (f64OfInt i) twoPi)) * f64One ≤
      magUnits (f64MagBits (f64OfInt len)) * magUnits k := by
    rw [hmag, Nat.mul_comm]
    exact Nat.mul_le_mul (Nat.le_mul_of_pos_left _ (Nat.zero_lt_of_lt hi))
      (magUnits_le_iff.mpr hmle)
  rw [phaseB64, f64Div_finite hmfin hfin hne]
  refine f64IsFinite_pack _ ((roundMag_le ?_ hquotient).trans_lt hk)
  rw [hmag]
  exact Nat.mul_pos (Nat.zero_lt_of_lt hi) f64One_pos

/-! ### The value that is scaled -/

/-- Half of a sine is a finite number from -0.5 to 0.5. -/
theorem f64Mul_half {y : B64} (hy : inUnitRange y = true) :
    f64IsFinite (f64Mul f64Half y) = true ∧
      (f64Int (f64Mul f64Half y)).natAbs ≤ magUnits (f64MagBits f64Half) := by
  have hle := (inUnitRange_iff_natAbs y).mp hy
  rw [f64Int_natAbs] at hle
  obtain ⟨hfin, hbits, -⟩ := f64Mul_bound (x := f64Half) (k := f64MagBits f64Half) (by decide)
    ((inUnitRange_iff y).mp hy).1 (by decide)
    ((Nat.mul_le_mul_left _ hle).trans_eq (Nat.mul_comm _ _))
  exact ⟨hfin, by rw [f64Int_natAbs]; exact magUnits_le_iff.mpr hbits⟩

/-- A sum with a term of magnitude at most 1 is finite: 1 is less than half a step at the largest
finite value. -/
theorem f64Add_isFinite {x y : B64} (hx : f64IsFinite x = true) (hy : f64IsFinite y = true)
    (h : (f64Int x).natAbs ≤ f64One ∨ (f64Int y).natAbs ≤ f64One) :
    f64IsFinite (f64Add x y) = true := by
  have hlargest : ∀ z : B64, f64IsFinite z = true →
      (f64Int z).natAbs ≤ magUnits (f64InfBits - 1) := by
    intro z hz
    rw [f64IsFinite_iff] at hz
    rw [f64Int_natAbs, magUnits_le_iff]
    omega
  have hstep : magUnits (f64InfBits - 1) + 2 * f64One < magUnits f64InfBits := by
    have hpow : 2 * f64One < 2 ^ (2044 + 1) := by
      rw [f64One, ← pow_succ', Nat.pow_lt_pow_iff_right one_lt_two]
      decide
    rw [magUnits_largest, magUnits_inf]
    generalize 2 ^ (2044 + 1) = step at *
    omega
  have hlt : roundMag (f64Int x + f64Int y).natAbs 1 < f64InfBits := by
    refine lt_of_le_of_ne (roundMag_le_inf _ _) fun hinf => ?_
    rw [roundMag_eq_inf_iff_midpoint one_pos] at hinf
    have := hlargest x hx
    have := hlargest y hy
    omega
  rw [f64Add_finite hx hy]
  split
  · exact f64IsFinite_pack _ (by decide)
  · exact f64IsFinite_pack _ hlt

/-- The bias of the unsigned wave is 0.5, that of the signed one +0.0. -/
theorem f64IsFinite_bias (sg : Bool) : f64IsFinite (if sg then 0 else f64Half) = true := by
  cases sg <;> decide

/-- The value is finite for every finite offset. -/
theorem valueB64_finite {y off : B64} (hy : inUnitRange y = true) (hoff : f64IsFinite off = true)
    (sg : Bool) : f64IsFinite (valueB64 y off sg) = true := by
  obtain ⟨hfin, hle⟩ := f64Mul_half hy
  have hhalf := two_mul_magUnits_half
  have hbias : (f64Int (if sg then 0 else f64Half)).natAbs ≤ f64One := by
    cases sg with
    | true => exact Nat.zero_le _
    | false =>
      rw [if_neg (by decide), f64Int_natAbs]
      omega
  exact f64Add_isFinite (f64Add_isFinite hfin hoff (.inl (by omega))) (f64IsFinite_bias sg)
    (.inr hbias)

/-- With scale 0 the product is a zero. -/
theorem productB64_scale_zero {f : B64 → B64} (hf : MeetsSineBounds f) {i len : Nat} (hi : i < len)
    (hlen : len < 2 ^ 32) {off : B64} (hoff : f64IsFinite off = true) (sg : Bool) :
    ∃ neg, productB64 f i len 0 off sg = f64Pack neg 0 := by
  have hv := valueB64_finite (hf.unit _ (phaseB64_finite hi hlen)) hoff sg
  exact ⟨_, by rw [productB64_eq, f64OfInt_zero, f64Mul_zero hv]⟩

/-- Settles O25: the value is finite, so its product with 0 is a zero and only the bias is left. -/
theorem scaleZeroGivesTheBias : Obligations.ScaleZeroGivesTheBias := by
  intro q s i len off sg hi hlen hoff
  have hbias : checkSample (0 + sampleBias sg) = some (if sg then 0 else 1) := by
    cases sg <;> decide
  cases q with
  | b64 =>
    obtain ⟨neg, hp⟩ := productB64_scale_zero (sin64_meets s) hi hlen hoff sg
    have hfin : f64IsFinite (f64Pack neg 0) = true := f64IsFinite_pack neg (by decide)
    rw [quantize, quantizeB64_of_finite (hp ▸ hfin), hp, f64Floor_zero, hbias]
  | real =>
    rw [quantize, quantizeReal_of_finite hoff, sampleReal_eq hi, Int.cast_zero, mul_zero,
      Int.floor_zero, hbias]

end Sys2Proof.Machine
end

section
/-! GEN_SINE (40_quantizer.md R105), and the samples of the default scale with offset +0.0, which
fit the width in both arithmetics (R106). -/

namespace Sys2Proof.Machine

/-! ### How bounds pass through a product -/

/-- The floor of a binary64 number stays between integers that the number lies between. -/
theorem f64Floor_mem {x : B64} {lo hi : Int} (hlo : lo * f64One ≤ f64Int x)
    (hhi : f64Int x ≤ hi * f64One) : lo ≤ f64Floor x ∧ f64Floor x ≤ hi := by
  have hone : (0 : Int) < f64One := Int.natCast_pos.mpr f64One_pos
  exact ⟨(Int.le_ediv_iff_mul_le hone).mpr hlo, Int.ediv_le_of_le_mul hone hhi⟩

/-- A rounded value stays between magnitudes that the exact one lies between, on both sides of 0. -/
theorem f64Pack_round_bounds {neg : Bool} {z : Int} {den lo hi : Nat} (hd : 0 < den)
    (hneg : neg = true → z ≤ 0) (hpos : neg = false → 0 ≤ z) (hlo : lo < f64InfBits)
    (hhi : hi < f64InfBits) (h1 : -((den * magUnits lo : Nat) : Int) ≤ z)
    (h2 : z ≤ (den * magUnits hi : Nat)) :
    f64IsFinite (f64Pack neg (roundMag z.natAbs den)) = true ∧
      -(magUnits lo : Int) ≤ f64Int (f64Pack neg (roundMag z.natAbs den)) ∧
      f64Int (f64Pack neg (roundMag z.natAbs den)) ≤ magUnits hi := by
  rw [f64Int_pack neg (roundMag_le_inf _ _)]
  cases neg with
  | true =>
    have hz := hneg rfl
    have hr : roundMag z.natAbs den ≤ lo := roundMag_le hd (by omega)
    have := magUnits_le_iff.mpr hr
    rw [if_pos rfl]
    exact ⟨f64IsFinite_pack _ (hr.trans_lt hlo), by omega, by omega⟩
  | false =>
    have hz := hpos rfl
    have hr : roundMag z.natAbs den ≤ hi := roundMag_le hd (by omega)
    have := magUnits_le_iff.mpr hr
    rw [if_neg (by decide)]
    exact ⟨f64IsFinite_pack _ (hr.trans_lt hhi), by omega, by omega⟩

theorem f64Int_nonpos {x : B64} (h : f64Neg x = true) : f64Int x ≤ 0 := by
  rw [f64Int, if_pos h]
  omega

theorem f64Int_nonneg {x : B64} (h : f64Neg x = false) : 0 ≤ f64Int x := by
  rw [f64Int, if_neg (Bool.eq_false_iff.mp h)]
  omega

/-- The floor of a product stays between integers that the exact product lies between, on both sides
of 0. -/
theorem f64Mul_floor_bounds {x y : B64} {lo hi : Nat} (hx : f64IsFinite x = true)
    (hy : f64IsFinite y = true) (hlo : lo < 2 ^ 53) (hhi : hi < 2 ^ 53)
    (h1 : -((f64One * (lo * f64One) : Nat) : Int) ≤ f64Int x * f64Int y)
    (h2 : f64Int x * f64Int y ≤ (f64One * (hi * f64One) : Nat)) :
    f64IsFinite (f64Mul x y) = true ∧ -(lo : Int) ≤ f64Floor (f64Mul x y) ∧
      f64Floor (f64Mul x y) ≤ hi := by
  obtain ⟨k, hk, hku⟩ := exists_magUnits_nat hlo
  obtain ⟨m, hm, hmu⟩ := exists_magUnits_nat hhi
  have hsign : ∀ neg : Bool, (f64Neg x != f64Neg y) = neg →
      if neg then f64Int x * f64Int y ≤ 0 else 0 ≤ f64Int x * f64Int y := by
    rintro _ rfl
    cases hnx : f64Neg x <;> cases hny : f64Neg y
    · exact mul_nonneg (f64Int_nonneg hnx) (f64Int_nonneg hny)
    · exact mul_nonpos_of_nonneg_of_nonpos (f64Int_nonneg hnx) (f64Int_nonpos hny)
    · exact mul_nonpos_of_nonpos_of_nonneg (f64Int_nonpos hnx) (f64Int_nonneg hny)
    · exact mul_nonneg_of_nonpos_of_nonpos (f64Int_nonpos hnx) (f64Int_nonpos hny)
  rw [← hku] at h1
  rw [← hmu] at h2
  have hround := f64Pack_round_bounds f64One_pos (hsign true) (hsign false) hk hm h1 h2
  rw [Int.natAbs_mul, f64Int_natAbs, f64Int_natAbs, ← f64Mul_finite hx hy, hku, hmu] at hround
  obtain ⟨hfin, hlow, hhigh⟩ := hround
  push_cast at hlow hhigh
  exact ⟨hfin, f64Floor_mem ((neg_mul _ _).trans_le hlow) hhigh⟩

/-! ### The range of the value with offset +0.0 (40_quantizer.md R106) -/

/-- How many halves the value reaches below 0: 1 signed, 0 unsigned. -/
def halvesBelow (sg : Bool) : Nat := if sg then 1 else 0

/-- How many halves the value reaches above 0: 1 signed, 2 unsigned. -/
def halvesAbove (sg : Bool) : Nat := if sg then 1 else 2

/-- Where the scale is 2a and the value lies in its halves, the floor of the product and the bias
lie in the range of R106. -/
theorem sample_fits {w : Nat} (hw1 : 1 ≤ w) (hw32 : w ≤ 32) {a : Nat} (ha : 2 ^ (w - 1) = a + 1)
    {sg : Bool} {n : Int} (hlo : -((halvesBelow sg * a : Nat) : Int) ≤ n)
    (hhi : n ≤ (halvesAbove sg * a : Nat)) :
    ∃ m, checkSample (n + sampleBias sg) = some m ∧
      if sg then -(2 ^ (w - 1) - 1) ≤ m ∧ m ≤ 2 ^ (w - 1) - 1 else 1 ≤ m ∧ m ≤ 2 ^ w - 1 := by
  have hpow : (2 : Int) ^ (w - 1) = a + 1 := by exact_mod_cast ha
  have hpow' : (2 : Int) ^ w = 2 * (a + 1) := by
    rw [← hpow, ← pow_succ', Nat.sub_add_cancel hw1]
  have ha31 : a + 1 ≤ 2 ^ 31 := ha ▸ Nat.pow_le_pow_right two_pos (by omega)
  rw [hpow, hpow']
  cases sg with
  | true =>
    simp only [halvesBelow, halvesAbove, sampleBias, if_true] at *
    exact ⟨n + 0, checkSample_of_mem (by omega) (by omega), by omega, by omega⟩
  | false =>
    simp only [halvesBelow, halvesAbove, sampleBias, Bool.false_eq_true, if_false] at *
    exact ⟨n + 1, checkSample_of_mem (by omega) (by omega), by omega, by omega⟩

/-- In binary64 the value with offset +0.0 is finite and lies in its halves. -/
theorem valueB64_bounds {y : B64} (hy : inUnitRange y = true) (sg : Bool) :
    f64IsFinite (valueB64 y 0 sg) = true ∧
      -((halvesBelow sg * magUnits (f64MagBits f64Half) : Nat) : Int) ≤ f64Int (valueB64 y 0 sg) ∧
      f64Int (valueB64 y 0 sg) ≤ (halvesAbove sg * magUnits (f64MagBits f64Half) : Nat) := by
  obtain ⟨hfin, hle⟩ := f64Mul_half hy
  have hzero : f64Int 0 = 0 := by decide
  have hhalf : f64Int f64Half = magUnits (f64MagBits f64Half) := if_neg (by decide)
  have hbits : f64MagBits f64Half < f64InfBits := by decide
  have hsum := f64Add_bounds hfin f64IsFinite_zero hbits hbits (by omega) (by omega)
  rw [valueB64]
  generalize f64Add (f64Mul f64Half y) 0 = u at hsum
  obtain ⟨hufin, hulo, huhi⟩ := hsum
  cases sg with
  | true =>
    simp only [halvesBelow, halvesAbove, if_true, Nat.one_mul]
    exact f64Add_bounds hufin f64IsFinite_zero hbits hbits (by omega) (by omega)
  | false =>
    have hone := two_mul_magUnits_half
    have hbound := f64Add_bounds (lo := 0) (hi := 0x3FF0000000000000) hufin (f64IsFinite_bias false)
      (by decide) (by decide)
    simp only [halvesBelow, halvesAbove, Bool.false_eq_true, if_false, magUnits_one, magUnits_zero,
      Nat.zero_mul, hone] at hbound ⊢
    exact hbound (by omega) (by omega)

/-- In exact arithmetic the value with offset +0.0 lies in its halves. -/
theorem exactValue_bounds (i len : Nat) (sg : Bool) :
    -(halvesBelow sg : ℝ) / 2 ≤ exactValue i len 0 sg ∧
      exactValue i len 0 sg ≤ (halvesAbove sg : ℝ) / 2 := by
  have hlo := Real.neg_one_le_sin (2 * Real.pi * i / len)
  have hhi := Real.sin_le_one (2 * Real.pi * i / len)
  rw [exactValue, show f64Int 0 = 0 by decide, Int.cast_zero, zero_div, add_zero]
  cases sg with
  | true =>
    simp only [halvesBelow, halvesAbove, if_true, Nat.cast_one]
    constructor <;> linarith
  | false =>
    simp only [halvesBelow, halvesAbove, Bool.false_eq_true, if_false, Nat.cast_zero,
      Nat.cast_ofNat]
    constructor <;> linarith

/-- With scale 2a and offset +0.0 the binary64 product is finite and its floor lies in a times the
halves of the value: binary64 rounding is monotone and keeps integers. -/
theorem productB64_floor_bounds {f : B64 → B64} (hf : MeetsSineBounds f) {i len a : Nat}
    (hi : i < len) (hlen : len < 2 ^ 32) (ha : a < 2 ^ 31) (sg : Bool) :
    f64IsFinite (productB64 f i len (2 * a : Nat) 0 sg) = true ∧
      -((halvesBelow sg * a : Nat) : Int) ≤ f64Floor (productB64 f i len (2 * a : Nat) 0 sg) ∧
      f64Floor (productB64 f i len (2 * a : Nat) 0 sg) ≤ (halvesAbove sg * a : Nat) := by
  obtain ⟨hvfin, hvlo, hvhi⟩ := valueB64_bounds (hf.unit _ (phaseB64_finite hi hlen)) sg
  have hsmall : ((2 * a : Nat) : Int).natAbs < 2 ^ 53 := by omega
  have hscaled : ∀ c : Nat, ((c * magUnits (f64MagBits f64Half) : Nat) : Int) *
      (((2 * a : Nat) : Int) * f64One) = (f64One * (c * a * f64One) : Nat) := by
    intro c
    rw [← two_mul_magUnits_half]
    push_cast
    ring
  have hbelow : halvesBelow sg ≤ 2 := by cases sg <;> decide
  have habove : halvesAbove sg ≤ 2 := by cases sg <;> decide
  have hscale : (0 : Int) ≤ ((2 * a : Nat) : Int) * f64One :=
    mul_nonneg (Int.natCast_nonneg _) (Int.natCast_nonneg _)
  rw [productB64_eq]
  refine f64Mul_floor_bounds hvfin (f64OfInt_exact hsmall).1
    ((Nat.mul_le_mul_right a hbelow).trans_lt (by omega))
    ((Nat.mul_le_mul_right a habove).trans_lt (by omega)) ?_ ?_
  · rw [f64Int_ofInt hsmall, ← hscaled, ← neg_mul]
    exact mul_le_mul_of_nonneg_right hvlo hscale
  · rw [f64Int_ofInt hsmall, ← hscaled]
    exact mul_le_mul_of_nonneg_right hvhi hscale

/-- With scale 2a and offset +0.0 the floor of the exact product lies in a times the halves of the
value. -/
theorem exactValue_floor_bounds (i len a : Nat) (sg : Bool) :
    -((halvesBelow sg * a : Nat) : Int) ≤ ⌊exactValue i len 0 sg * ((2 * a : Nat) : Int)⌋ ∧
      ⌊exactValue i len 0 sg * ((2 * a : Nat) : Int)⌋ ≤ (halvesAbove sg * a : Nat) := by
  obtain ⟨hlo, hhi⟩ := exactValue_bounds i len sg
  generalize exactValue i len 0 sg = v at *
  have ha : (0 : ℝ) ≤ 2 * a := by positivity
  have hlo' := mul_le_mul_of_nonneg_right hlo ha
  have hhi' := mul_le_mul_of_nonneg_right hhi ha
  constructor
  · rw [Int.le_floor]
    push_cast
    linarith
  · rw [← Int.floor_natCast (R := ℝ) (halvesAbove sg * a)]
    refine Int.floor_le_floor ?_
    push_cast
    linarith

/-- With the default scale and offset +0.0 every sample fits the width (40_quantizer.md R106). -/
theorem quantize_default_fits {f : B64 → B64} (hf : MeetsSineBounds f) (q : QArith) {w i len : Nat}
    (hw1 : 1 ≤ w) (hw32 : w ≤ 32) (hi : i < len) (hlen : len < 2 ^ 32) (amp : Int) (sg : Bool) :
    ∃ n, quantize q f i len (scaleOf w false amp) 0 sg = some n ∧
      if sg then -(2 ^ (w - 1) - 1) ≤ n ∧ n ≤ 2 ^ (w - 1) - 1 else 1 ≤ n ∧ n ≤ 2 ^ w - 1 := by
  obtain ⟨a, ha⟩ : ∃ a, 2 ^ (w - 1) = a + 1 := Nat.exists_eq_add_one.mpr (by positivity)
  have ha31 : a + 1 ≤ 2 ^ 31 := ha ▸ Nat.pow_le_pow_right two_pos (by omega)
  have hscale : scaleOf w false amp = (2 * a : Nat) := by
    have hpow : (2 : Int) ^ w = 2 * (a + 1) := by
      rw [← Nat.sub_add_cancel hw1, pow_succ']
      exact_mod_cast congrArg (2 * ·) ha
    rw [scaleOf_default, hpow]
    push_cast
    ring
  rw [hscale]
  cases q with
  | b64 =>
    obtain ⟨hfin, hlo, hhi⟩ := productB64_floor_bounds hf hi hlen (Nat.lt_of_succ_le ha31) sg
    rw [quantize, quantizeB64_of_finite hfin]
    exact sample_fits hw1 hw32 ha hlo hhi
  | real =>
    obtain ⟨hlo, hhi⟩ := exactValue_floor_bounds i len a sg
    rw [quantize, quantizeReal_of_finite f64IsFinite_zero, sampleReal_eq hi]
    exact sample_fits hw1 hw32 ha hlo hhi

/-- Settles O26: the value lies in halves that the even scale takes to integers. -/
theorem defaultScaleSamplesFit : Obligations.DefaultScaleSamplesFit :=
  fun q f _ _ _ amp sg hw1 hw32 hi hlen h0 hf =>
    quantize_default_fits ((meetsSineBounds_iff f).mpr ⟨h0, hf⟩) q hw1 hw32 hi hlen amp sg

/-! ### GEN_SINE (40_quantizer.md R105) -/

/-- Where every check passes, GEN_SINE stores the samples. -/
theorem exec_genSine_of_samples {s : State} {l : List Int} (hw : widthLegal s.width = true)
    (hl : s.lengthReg ≠ 0) (hc : s.lengthReg.toNat ≤ s.seqCapR.toNat)
    (hr : s.sineSamples = some l) :
    exec .genSine s = .next (s.storeSeq l true s.width).succeed := by
  have hok : genSine s = .ok (s.storeSeq l true s.width) := by
    rw [genSine, if_neg (by rw [hw]; decide), if_neg hl, if_neg (Nat.not_lt.mpr hc), hr]
  rw [exec, execGenSine, hok, finish_ok]

/-- Settles O15: the samples of the indices are SEQ, and the checks before them pass. -/
theorem genSineStoresEverySample : Obligations.GenSineStoresEverySample := by
  intro s r hw1 hw32 hl hc hr
  refine exec_genSine_of_samples ((widthLegal_iff _).mpr ⟨hw1, hw32⟩) hl hc ?_
  rw [State.sineSamples, samplesUpTo_eq_some, List.map_map]
  exact List.map_congr_left fun i hi => hr i (List.mem_range.mp hi)

/-- Settles O16: every index gives a sample that fits (R106), so GEN_SINE stores them (R105). -/
theorem genSineDefaultScaleSucceeds : Obligations.GenSineDefaultScaleSucceeds := by
  intro s hw1 hw32 hl hc hamp hhi hlo
  have hoff : (s.offsetHi ++ s.offsetLo : B64) = 0 := by rw [hhi, hlo]; rfl
  have hfits : ∀ i < s.lengthReg.toNat, _ := fun i hi =>
    quantize_default_fits (sin64_meets s) s.qarith hw1 hw32 hi s.lengthReg.isLt
      s.amplitudeReg.toInt s.signed
  choose! r hr hrange using hfits
  refine ⟨(List.range s.lengthReg.toNat).map r, by simp, fun x hx => ?_,
    genSineStoresEverySample s r hw1 hw32 hl hc fun i hi => ?_⟩
  · obtain ⟨i, hi, rfl⟩ := List.mem_map.mp hx
    exact hrange i (List.mem_range.mp hi)
  · rw [hamp, hoff]
    exact hr i hi

end Sys2Proof.Machine
end

section
/-! The packer of 41_packer.md: a packed word as the sum of its bytes, PACK_DATA by its checks in
order, CLEAR_IN, and the writes of IN_DATA that fill IN. -/

namespace Sys2Proof.Machine

/-! ### Packed words (41_packer.md R120) -/

/-- Appending one byte below a value, in arithmetic. -/
theorem shiftLeft_or_byte (word : Nat) (b : Byte) :
    word <<< 8 ||| b.toNat = word * 2 ^ 8 + b.toNat := by
  rw [Nat.shiftLeft_eq, Nat.mul_comm, Nat.two_pow_add_eq_or_of_lt b.isLt]

/-- Shifting n bytes in from the right is the sum of their place values, the first byte the most
significant: one more byte moves each place up by one byte. -/
theorem foldl_shiftLeft_or_eq_sum (byteAt : Nat → Byte) (n : Nat) :
    (((List.range n).foldl (fun word j => word <<< 8 ||| (byteAt j).toNat) 0 : Nat) : Int) =
      ((List.range n).map fun j => ((byteAt j).toNat : Int) * 2 ^ (8 * (n - 1 - j))).sum := by
  induction n with
  | zero => rfl
  | succ n ih =>
    have hplace : ∀ j ∈ List.range n, ((byteAt j).toNat : Int) * 2 ^ (8 * (n + 1 - 1 - j)) =
        (byteAt j).toNat * 2 ^ (8 * (n - 1 - j)) * 2 ^ 8 := by
      intro j hj
      have hlt := List.mem_range.mp hj
      have hexp : 8 * (n + 1 - 1 - j) = 8 * (n - 1 - j) + 8 := by omega
      rw [hexp, pow_add, mul_assoc]
    rw [List.range_succ, List.foldl_append, List.map_append, List.sum_append,
      List.map_congr_left hplace, List.sum_map_mul_right, ← ih]
    simp [shiftLeft_or_byte]

theorem packWords_eq_sums (bytes : List Byte) (wb : Nat) :
    packWords bytes wb = (List.range (bytes.length / wb)).map fun k =>
      ((List.range wb).map fun j =>
        ((bytes.getD (k * wb + j) 0).toNat : Int) * 2 ^ (8 * (wb - 1 - j))).sum :=
  List.map_congr_left fun k _ =>
    foldl_shiftLeft_or_eq_sum (fun j => bytes.getD (k * wb + j) 0) wb

/-! ### PACK_DATA (41_packer.md R125) -/

section PackData

variable {s : State}

theorem exec_packData_error {c : ErrCode} (h : packData s = .error c) :
    exec .packData s = .next (s.raiseError c) := by
  rw [exec, execPackData, h, finish_error]

theorem packData_of_illegal_width (hw : widthLegal s.width = false) :
    packData s = .error .width := by
  simp [packData, hw]

theorem packData_of_overflow (hw : widthLegal s.width = true) (ho : s.inOvf = true) :
    packData s = .error .capacity := by
  simp [packData, hw, ho]

theorem packData_of_partial_word (hw : widthLegal s.width = true) (ho : s.inOvf = false)
    (hm : s.inBuf.length % wordBytes s.width.toNat ≠ 0) : packData s = .error .mismatch := by
  simp [packData, hw, ho, hm]

theorem packData_of_too_many_words (hw : widthLegal s.width = true) (ho : s.inOvf = false)
    (hm : s.inBuf.length % wordBytes s.width.toNat = 0)
    (hc : s.seqCapR.toNat < s.inBuf.length / wordBytes s.width.toNat) :
    packData s = .error .capacity := by
  simp [packData, hw, ho, hm, hc]

theorem packData_of_checks (hw : widthLegal s.width = true) (ho : s.inOvf = false)
    (hm : s.inBuf.length % wordBytes s.width.toNat = 0)
    (hc : s.inBuf.length / wordBytes s.width.toNat ≤ s.seqCapR.toNat) :
    packData s =
      .ok (s.storeSeq (packWords s.inBuf (wordBytes s.width.toNat)) false s.width) := by
  simp [packData, hw, ho, hm, Nat.not_lt.mpr hc]

end PackData

/-- Settles O17, by the first check that fails; where none does, the packed words are the sums of
their bytes. -/
theorem packDataStoresBigEndianWords : Obligations.PackDataStoresBigEndianWords := by
  refine ⟨decode_encode (i := .packData) rfl, ?_⟩
  rintro s w wb rfl hwb
  refine ⟨fun hout => ?_, fun h1 h32 => ?_⟩
  · have hw : widthLegal s.width = false := by
      rw [Bool.eq_false_iff, Ne, widthLegal_iff]
      omega
    exact exec_packData_error (packData_of_illegal_width hw)
  · have hw : widthLegal s.width = true := (widthLegal_iff _).mpr ⟨h1, h32⟩
    obtain rfl : wb = wordBytes s.width.toNat := hwb.trans (wordByteCount _ h1 h32).symm
    refine ⟨fun ho => ?_, fun ho hm => ?_, fun ho hm hc => ?_, fun ho hm hc => ?_⟩
    · exact exec_packData_error (packData_of_overflow hw ho)
    · exact exec_packData_error (packData_of_partial_word hw ho hm)
    · exact exec_packData_error (packData_of_too_many_words hw ho hm hc)
    · rw [exec, execPackData, packData_of_checks hw ho hm hc, finish_ok, packWords_eq_sums]
      rfl

/-! ### CLEAR_IN (41_packer.md R126) -/

/-- Settles O11: CLEAR_IN succeeds in the state with IN emptied. -/
theorem clearInEmptiesInput : Obligations.ClearInEmptiesInput :=
  ⟨decode_encode (i := .clearIn) rfl, fun s => finish_ok s s.emptyIn⟩

/-! ### The writes of IN_DATA (20_memory.md R65, 30_encoding.md R87) -/

/-- Putting segment after segment is putting their concatenation. -/
theorem flatten_map_put (base : Nat) (port : Reg) (segments : List (List Byte)) :
    (segments.map (put base port)).flatten = put base port segments.flatten :=
  List.map_flatten.symm

/-- The low byte of a byte written as a register value. -/
theorem low_byte_setWidth (b : Byte) : (b.setWidth 32 : Word).extractLsb' 0 8 = b := by
  rw [← BitVec.setWidth_eq_extractLsb' (by decide), BitVec.setWidth_setWidth_of_le _ (by decide),
    BitVec.setWidth_eq]

/-- What a step of `put IN_DATA` that writes the byte `b` leaves. -/
def State.putByte (s : State) (b : Byte) : State :=
  { s with inBuf := s.inBuf ++ [b], inputs := s.inputs.tail }

namespace State.Accessible

variable {s : State} {rest : List Input}

/-- With nothing pending, a step is the next input. -/
theorem step_eq_doInput (h : s.Accessible) {i : Input} (hin : s.inputs = i :: rest) :
    step s = doInput s i := by
  have hidle : s.busy = false := by simp [State.busy, h.pend_none]
  rw [step_outside hin (.inl h.pend_none), inputStep, hidle]
  rfl

/-- A write of a register as the next input. -/
theorem step_wr (h : s.Accessible) {r : Reg} {v : Word} (hin : s.inputs = wr s.base r v :: rest) :
    step s = .next (s.writeReg v r).dropInput := by
  rw [h.step_eq_doInput hin, wr, doInput, writeInput, h.memWrite_reg]

theorem putByte (h : s.Accessible) (b : Byte) : (s.putByte b).Accessible :=
  ⟨h.base_aligned, h.pend_none, h.not_awaiting⟩

/-- A byte put into IN while there is room. -/
theorem step_put_byte (h : s.Accessible) {b : Byte}
    (hin : s.inputs = wr s.base .inData (b.setWidth 32) :: rest)
    (hroom : s.inBuf.length < s.inCapR.toNat) : step s = .next (s.putByte b) := by
  rw [h.step_wr hin, State.writeReg, low_byte_setWidth, State.appendIn_room _ _ hroom]
  rfl

/-- Bytes put into IN while there is room for all, by induction on them: each step appends one. -/
theorem stepsFrom_put {bytes : List Byte} (h : s.Accessible)
    (hin : s.inputs = put s.base .inData bytes ++ rest)
    (hroom : s.inBuf.length + bytes.length ≤ s.inCapR.toNat) :
    stepsFrom bytes.length s = some { s with inBuf := s.inBuf ++ bytes, inputs := rest } := by
  induction bytes generalizing s with
  | nil =>
    rw [List.append_nil, ← show s.inputs = rest from hin]
    rfl
  | cons b bytes ih =>
    have hlen : (s.inBuf ++ [b]).length + bytes.length ≤ s.inCapR.toNat := by
      simp only [List.length_append, List.length_cons, List.length_nil] at hroom ⊢
      omega
    have hstep : step s = .next (s.putByte b) :=
      h.step_put_byte hin (by rw [List.length_cons] at hroom; omega)
    have hleft : (s.putByte b).inputs = put s.base .inData bytes ++ rest := congrArg List.tail hin
    rw [List.length_cons, stepsFrom, hstep, List.append_cons]
    exact ih (h.putByte b) hleft hlen

end State.Accessible

/-- Settles O49: the segments are one list of bytes, put into IN byte by byte. -/
theorem segmentsAreConcatenated : Obligations.SegmentsAreConcatenated := by
  intro s segments rest hb hp ha hin hroom
  rw [flatten_map_put] at hin
  exact State.Accessible.stepsFrom_put ⟨hb, hp, ha⟩ hin hroom

end Sys2Proof.Machine
end

section
/-! The byte serializer of 42_serializer.md: a word's bytes as base-256 digits, the bound on its top
byte, and the round trip from packed words back to their bytes. -/

namespace Sys2Proof.Machine

/-! ### The masked word (42_serializer.md R140) -/

theorem maskWord_cast (v : Int) (w : Nat) : (maskWord v w : Int) = v % 2 ^ w :=
  Int.toNat_of_nonneg (Int.emod_nonneg v (by positivity))

theorem maskWord_lt (v : Int) (w : Nat) : maskWord v w < 2 ^ w := by
  have hlt : v % 2 ^ w < 2 ^ w := Int.emod_lt_of_pos v (by positivity)
  rw [← maskWord_cast] at hlt
  exact_mod_cast hlt

/-- Masking keeps an unsigned word that fits the width. -/
theorem maskWord_natCast_of_lt {m w : Nat} (h : m < 2 ^ w) : maskWord m w = m := by
  have hcast := maskWord_cast m w
  rw [Int.emod_eq_of_lt (Int.natCast_nonneg m) (by exact_mod_cast h)] at hcast
  exact_mod_cast hcast

/-- The bytes of 00_scope.md R7 hold the whole word. -/
theorem le_eight_mul_wordBytes (w : Nat) : w ≤ 8 * wordBytes w := by
  unfold wordBytes
  omega

/-! ### Big-endian bytes (42_serializer.md R141) -/

/-- The n low bytes of m, most significant first. -/
def bigEndianBytes (n m : Nat) : List Byte :=
  (List.range n).map fun j => BitVec.ofNat 8 ((m >>> ((n - j - 1) * 8)) &&& 0xFF)

theorem serializeWord_eq_bigEndianBytes (w : Nat) (v : Int) :
    serializeWord w v = bigEndianBytes (wordBytes w) (maskWord v w) := rfl

@[simp] theorem bigEndianBytes_length (n m : Nat) : (bigEndianBytes n m).length = n := by
  simp [bigEndianBytes]

@[simp] theorem serializeWord_length (w : Nat) (v : Int) :
    (serializeWord w v).length = wordBytes w :=
  bigEndianBytes_length _ _

/-- A byte cut out with the mask 0xFF is the truncation to eight bits. -/
theorem ofNat_and_byteMask (m : Nat) : BitVec.ofNat 8 (m &&& 0xFF) = BitVec.ofNat 8 m := by
  apply BitVec.eq_of_toNat_eq
  rw [BitVec.toNat_ofNat, BitVec.toNat_ofNat, Nat.and_two_pow_sub_one_eq_mod m 8, Nat.mod_mod]

/-- The last byte is the low one, and those before it are the bytes of the rest of the word. -/
theorem bigEndianBytes_succ (n m : Nat) :
    bigEndianBytes (n + 1) m = bigEndianBytes n (m >>> 8) ++ [BitVec.ofNat 8 m] := by
  have hshift : ∀ j ∈ List.range n,
      BitVec.ofNat 8 ((m >>> ((n + 1 - j - 1) * 8)) &&& 0xFF) =
        BitVec.ofNat 8 ((m >>> 8 >>> ((n - j - 1) * 8)) &&& 0xFF) := by
    intro j hj
    have hlt := List.mem_range.mp hj
    have hexp : (n + 1 - j - 1) * 8 = 8 + (n - j - 1) * 8 := by omega
    rw [hexp, Nat.shiftRight_add]
  rw [bigEndianBytes, List.range_succ, List.map_append, List.map_congr_left hshift,
    List.map_singleton, ofNat_and_byteMask]
  simp [bigEndianBytes]

theorem bigEndianBytes_head? (n m : Nat) :
    (bigEndianBytes (n + 1) m).head? = some (BitVec.ofNat 8 (m >>> (n * 8))) := by
  rw [bigEndianBytes, List.range_succ_eq_map, List.map_cons, List.head?_cons, ofNat_and_byteMask]
  simp

/-- The base-256 number that bytes spell, the first the most significant. -/
def bigEndianValue (bytes : List Byte) : Nat :=
  bytes.foldl (fun acc b => 256 * acc + b.toNat) 0

theorem bigEndianValue_append_singleton (bytes : List Byte) (b : Byte) :
    bigEndianValue (bytes ++ [b]) = 256 * bigEndianValue bytes + b.toNat := by
  simp [bigEndianValue]

/-- The n low bytes of a value of n bytes spell it, by induction from the low byte up. -/
theorem bigEndianValue_bigEndianBytes {n m : Nat} (h : m < 2 ^ (8 * n)) :
    bigEndianValue (bigEndianBytes n m) = m := by
  induction n generalizing m with
  | zero => exact (Nat.lt_one_iff.mp h).symm
  | succ n ih =>
    have hrest : m >>> 8 < 2 ^ (8 * n) := by
      rw [Nat.shiftRight_eq_div_pow]
      exact Nat.div_lt_of_lt_mul (by rwa [← pow_add, Nat.add_comm])
    rw [bigEndianBytes_succ, bigEndianValue_append_singleton, ih hrest, BitVec.toNat_ofNat,
      Nat.shiftRight_eq_div_pow]
    exact Nat.div_add_mod m 256

/-- Settles O28: the masked word fits into its bytes, so they spell it. -/
theorem serializedBytesSpellTheWord : Obligations.SerializedBytesSpellTheWord := by
  intro w v
  have hfits : maskWord v w < 2 ^ (8 * wordBytes w) :=
    (maskWord_lt v w).trans_le (Nat.pow_le_pow_right (by decide) (le_eight_mul_wordBytes w))
  have hvalue : bigEndianValue (serializeWord w v) = maskWord v w := by
    rw [serializeWord_eq_bigEndianBytes, bigEndianValue_bigEndianBytes hfits]
  exact ⟨serializeWord_length w v, (congrArg Nat.cast hvalue).trans (maskWord_cast v w)⟩

/-! ### The raw output (42_serializer.md R142, R143) -/

theorem binDocument_length (seq : List Int) (w : Nat) :
    (binDocument seq w).length = seq.length * wordBytes w := by
  simp [binDocument, List.length_flatMap]

/-- The top byte of a word holds the bits the lower bytes leave. -/
theorem toNat_head_serializeWord_lt {w : Nat} {v : Int} {b : Byte} (hw : 1 ≤ w)
    (hb : (serializeWord w v).head? = some b) : b.toNat < 2 ^ (w - 8 * (wordBytes w - 1)) := by
  obtain ⟨n, hn⟩ : ∃ n, wordBytes w = n + 1 := Nat.exists_eq_add_one.mpr (by
    unfold wordBytes
    omega)
  have hlow : n * 8 ≤ w := by
    unfold wordBytes at hn
    omega
  rw [serializeWord_eq_bigEndianBytes, hn, bigEndianBytes_head?] at hb
  obtain rfl := Option.some.inj hb
  have htop : maskWord v w / 2 ^ (n * 8) < 2 ^ (w - n * 8) :=
    Nat.div_lt_of_lt_mul (by
      rw [← pow_add, Nat.add_sub_cancel' hlow]
      exact maskWord_lt v w)
  rw [hn, Nat.add_sub_cancel, Nat.mul_comm 8, BitVec.toNat_ofNat, Nat.shiftRight_eq_div_pow]
  exact (Nat.mod_le _ _).trans_lt htop

/-- Settles O29: each word gives its byte count, and the mask bounds its top byte. -/
theorem binaryOutputIsMasked : Obligations.BinaryOutputIsMasked :=
  ⟨binDocument_length, fun _ _ _ => toNat_head_serializeWord_lt⟩

/-! ### Packed words (42_serializer.md R143) -/

/-- The bytes of a value into which n bytes were shifted from the right are those n bytes. -/
theorem bigEndianBytes_foldl_shiftLeft_or (byteAt : Nat → Byte) (n : Nat) :
    bigEndianBytes n ((List.range n).foldl (fun word j => word <<< 8 ||| (byteAt j).toNat) 0) =
      (List.range n).map byteAt := by
  induction n with
  | zero => rfl
  | succ n ih =>
    have hrest (word : Nat) : (word * 2 ^ 8 + (byteAt n).toNat) >>> 8 = word := by
      have hbyte := (byteAt n).isLt
      rw [Nat.shiftRight_eq_div_pow]
      omega
    have hlow (word : Nat) : BitVec.ofNat 8 (word * 2 ^ 8 + (byteAt n).toNat) = byteAt n := by
      have hbyte := (byteAt n).isLt
      apply BitVec.eq_of_toNat_eq
      rw [BitVec.toNat_ofNat]
      omega
    rw [List.range_succ, List.foldl_append, List.foldl_cons, List.foldl_nil, shiftLeft_or_byte,
      bigEndianBytes_succ, hrest, hlow, ih, List.map_append, List.map_singleton]

/-- At a whole number of bytes the mask leaves a packed word as it is, so its bytes come back. -/
theorem serializeWord_packWord (bytes : List Byte) (wb k : Nat) :
    serializeWord (8 * wb) (packWord bytes wb k) =
      (List.range wb).map fun j => bytes.getD (k * wb + j) 0 := by
  have hcount : wordBytes (8 * wb) = wb := by
    unfold wordBytes
    omega
  rw [serializeWord_eq_bigEndianBytes, hcount, maskWord_natCast_of_lt (packWord_lt bytes wb k)]
  exact bigEndianBytes_foldl_shiftLeft_or (fun j => bytes.getD (k * wb + j) 0) wb

/-- Counting through d groups of n counts through d * n. -/
theorem flatMap_range_map_range {α : Type} (f : Nat → α) (d n : Nat) :
    ((List.range d).flatMap fun k => (List.range n).map fun j => f (k * n + j)) =
      (List.range (d * n)).map f := by
  induction d with
  | zero => simp
  | succ d ih =>
    rw [List.range_succ, List.flatMap_append, List.flatMap_singleton, ih, Nat.succ_mul,
      List.range_add, List.map_append, List.map_map]
    rfl

theorem map_getD_range_length (bytes : List Byte) :
    (List.range bytes.length).map (fun i => bytes.getD i 0) = bytes :=
  List.ext_getElem (by simp) fun i _ hi => by simp [hi]

theorem binDocument_packWords {bytes : List Byte} {wb : Nat} (h : bytes.length % wb = 0) :
    binDocument (packWords bytes wb) (8 * wb) = bytes := by
  have hlen : bytes.length / wb * wb = bytes.length :=
    Nat.div_mul_cancel (Nat.dvd_of_mod_eq_zero h)
  calc binDocument (packWords bytes wb) (8 * wb)
      = (List.range (bytes.length / wb)).flatMap
          fun k => serializeWord (8 * wb) (packWord bytes wb k) := List.flatMap_map _ _ _
    _ = (List.range (bytes.length / wb)).flatMap
          fun k => (List.range wb).map fun j => bytes.getD (k * wb + j) 0 :=
        List.flatMap_congr fun k _ => serializeWord_packWord bytes wb k
    _ = (List.range bytes.length).map fun i => bytes.getD i 0 := by
        rw [flatMap_range_map_range (fun i => bytes.getD i 0), hlen]
    _ = bytes := map_getD_range_length bytes

/-- Settles O30: the four widths are whole numbers of bytes. -/
theorem packThenSerializeIsIdentity : Obligations.PackThenSerializeIsIdentity := by
  intro bytes w hw h
  obtain ⟨wb, rfl⟩ : ∃ wb, w = 8 * wb := by
    simp only [List.mem_cons, List.not_mem_nil, or_false] at hw
    exact ⟨w / 8, by omega⟩
  rw [Nat.mul_div_cancel_left wb (by decide)] at h ⊢
  exact binDocument_packWords h

end Sys2Proof.Machine
end

section
/-! The MIF text formatter of 43_mif.md: what binary and decimal digits spell, the bytes of the
document's parts, and how many lines and bytes they make; and CLEAR_CM. -/

namespace Sys2Proof.Machine

/-! ### Digits -/

/-- The number that ASCII digits spell in a base, the first the most significant. -/
def digitsValue (base : Nat) (digits : List Byte) : Nat :=
  digits.foldl (fun acc b => base * acc + (b.toNat - 0x30)) 0

theorem digitsValue_singleton (base : Nat) (b : Byte) : digitsValue base [b] = b.toNat - 0x30 :=
  Nat.zero_add _

theorem digitsValue_append_singleton (base : Nat) (digits : List Byte) (b : Byte) :
    digitsValue base (digits ++ [b]) = base * digitsValue base digits + (b.toNat - 0x30) := by
  simp [digitsValue]

/-! ### Binary digits (43_mif.md R150) -/

/-- The digit that `IntToBinary` takes from the low bit of v. -/
def lowDigit (v : Int) : Byte := if v % 2 = 1 then 0x31 else 0x30

theorem lowDigit_eq (v : Int) : lowDigit v = 0x30 ∨ lowDigit v = 0x31 := by
  unfold lowDigit
  split
  · exact .inr rfl
  · exact .inl rfl

theorem lowDigit_value (v : Int) : (((lowDigit v).toNat - 0x30 : Nat) : Int) = v % 2 := by
  obtain h | h := Int.emod_two_eq v <;> rw [lowDigit, h] <;> rfl

/-- The digits already made stay behind those still to come. -/
theorem binaryLoop_eq_append (v : Int) (w : Nat) (str : List Byte) :
    binaryLoop w v str = intToBinary v w ++ str := by
  induction w generalizing v str with
  | zero => rfl
  | succ w ih =>
    rw [intToBinary, binaryLoop, binaryLoop, ih, ih _ [_], List.append_assoc, List.singleton_append]

/-- The last digit is the low bit, and those before it are the digits of the rest of the number. -/
theorem intToBinary_succ (v : Int) (w : Nat) :
    intToBinary v (w + 1) = intToBinary (v / 2) w ++ [lowDigit v] :=
  binaryLoop_eq_append (v / 2) w [lowDigit v]

@[simp] theorem intToBinary_length (v : Int) (w : Nat) : (intToBinary v w).length = w := by
  induction w generalizing v with
  | zero => rfl
  | succ w ih => rw [intToBinary_succ, List.length_append, ih, List.length_singleton]

theorem mem_intToBinary {v : Int} {w : Nat} {b : Byte} (h : b ∈ intToBinary v w) :
    b = 0x30 ∨ b = 0x31 := by
  induction w generalizing v with
  | zero => exact absurd h List.not_mem_nil
  | succ w ih =>
    rw [intToBinary_succ, List.mem_append, List.mem_singleton] at h
    obtain h | rfl := h
    · exact ih h
    · exact lowDigit_eq v

/-- The residue mod 2m is the low bit and the residue of the rest mod m. -/
theorem emod_two_mul (v m : Int) : v % (2 * m) = 2 * (v / 2 % m) + v % 2 := by
  rw [Int.emod_def, Int.emod_def, Int.emod_def, Int.ediv_ediv_of_nonneg (by decide)]
  ring

theorem digitsValue_intToBinary (v : Int) (w : Nat) :
    (digitsValue 2 (intToBinary v w) : Int) = v % 2 ^ w := by
  induction w generalizing v with
  | zero => exact (Int.emod_one v).symm
  | succ w ih =>
    rw [intToBinary_succ, digitsValue_append_singleton, Nat.cast_add, Nat.cast_mul, ih,
      lowDigit_value, pow_succ', emod_two_mul]
    rfl

/-- Settles O31, by induction on the width from the low bit up. -/
theorem binaryDigitsSpellTheValue : Obligations.BinaryDigitsSpellTheValue := fun v w =>
  ⟨intToBinary_length v w, fun _ => mem_intToBinary, digitsValue_intToBinary v w⟩

/-! ### Decimal digits (43_mif.md R151) -/

/-- The low decimal digit of n. -/
def lowDecimal (n : Nat) : Byte := BitVec.ofNat 8 (0x30 + n % 10)

@[simp] theorem lowDecimal_toNat (n : Nat) : (lowDecimal n).toNat = 0x30 + n % 10 := by
  rw [lowDecimal, BitVec.toNat_ofNat]
  omega

theorem decDigits_succ_of_lt {fuel n : Nat} (h : n < 10) :
    decDigits (fuel + 1) n = [lowDecimal n] := by
  rw [decDigits, if_pos h]
  rfl

theorem decDigits_succ_of_le {fuel n : Nat} (h : 10 ≤ n) :
    decDigits (fuel + 1) n = decDigits fuel (n / 10) ++ [lowDecimal n] := by
  rw [decDigits, if_neg h.not_gt]
  rfl

theorem mem_decDigits {fuel n : Nat} {b : Byte} (h : b ∈ decDigits fuel n) :
    ∃ m, b = lowDecimal m := by
  induction fuel generalizing n with
  | zero => exact absurd h List.not_mem_nil
  | succ fuel ih =>
    obtain hn | hn := lt_or_ge n 10
    · rw [decDigits_succ_of_lt hn, List.mem_singleton] at h
      exact ⟨n, h⟩
    · rw [decDigits_succ_of_le hn, List.mem_append, List.mem_singleton] at h
      exact h.elim ih fun h => ⟨n, h⟩

/-- One digit less leaves at least one bit less, so the fuel suffices for the rest. -/
theorem div_ten_lt_two_pow {fuel n : Nat} (h : n < 2 ^ (fuel + 1)) : n / 10 < 2 ^ fuel := by
  rw [pow_succ] at h
  omega

theorem digitsValue_decDigits {fuel n : Nat} (h : n < 2 ^ fuel) :
    digitsValue 10 (decDigits fuel n) = n := by
  induction fuel generalizing n with
  | zero => exact (Nat.lt_one_iff.mp h).symm
  | succ fuel ih =>
    obtain hn | hn := lt_or_ge n 10
    · rw [decDigits_succ_of_lt hn, digitsValue_singleton, lowDecimal_toNat,
        Nat.add_sub_cancel_left, Nat.mod_eq_of_lt hn]
    · rw [decDigits_succ_of_le hn, digitsValue_append_singleton, ih (div_ten_lt_two_pow h),
        lowDecimal_toNat, Nat.add_sub_cancel_left]
      exact Nat.div_add_mod n 10

/-- The first digit of a number other than 0 is the low digit of a number from 1 to 9. -/
theorem decDigits_head? {fuel n : Nat} (h : n < 2 ^ fuel) (hn : n ≠ 0) :
    ∃ m, m ≠ 0 ∧ m < 10 ∧ (decDigits fuel n).head? = some (lowDecimal m) := by
  induction fuel generalizing n with
  | zero => exact absurd (Nat.lt_one_iff.mp h) hn
  | succ fuel ih =>
    obtain hlt | hge := lt_or_ge n 10
    · exact ⟨n, hn, hlt, by rw [decDigits_succ_of_lt hlt, List.head?_singleton]⟩
    · obtain ⟨m, hm, hlt, hhead⟩ := ih (div_ten_lt_two_pow h) (by omega)
      refine ⟨m, hm, hlt, ?_⟩
      rw [decDigits_succ_of_le hge, List.head?_append, hhead, Option.some_or]

theorem mem_decNat {n : Nat} {b : Byte} (h : b ∈ decNat n) : 0x30 ≤ b.toNat ∧ b.toNat ≤ 0x39 := by
  obtain ⟨m, rfl⟩ := mem_decDigits h
  rw [lowDecimal_toNat]
  omega

theorem digitsValue_decNat (n : Nat) : digitsValue 10 (decNat n) = n :=
  digitsValue_decDigits Nat.lt_log2_self

theorem decNat_head?_ne {n : Nat} (hn : n ≠ 0) : (decNat n).head? ≠ some 0x30 := by
  obtain ⟨m, hm, hlt, hhead⟩ := decDigits_head? Nat.lt_log2_self hn
  rw [decNat, hhead]
  intro h
  have hnat : 0x30 + m % 10 = 0x30 :=
    (lowDecimal_toNat m).symm.trans (congrArg BitVec.toNat (Option.some.inj h))
  omega

@[simp] theorem decInt_natCast (n : Nat) : decInt n = decNat n :=
  if_neg (Int.natCast_nonneg n).not_gt

/-- A negative number is its absolute value behind a minus sign. -/
theorem decInt_of_neg {v : Int} (h : v < 0) : decInt v = 0x2D :: decNat v.natAbs :=
  if_pos h

/-- Settles O32: on naturals `Dec` is `decNat`, whose fuel suffices for every digit. -/
theorem decimalDigitsSpellTheNumber : Obligations.DecimalDigitsSpellTheNumber := by
  refine ⟨fun n => ?_, fun n hn => ?_⟩
  · rw [decInt_natCast]
    refine ⟨fun _ => mem_decNat, digitsValue_decNat n, decNat_head?_ne, ?_⟩
    rintro rfl
    rfl
  · rw [decInt_of_neg (by omega), Int.natAbs_neg, Int.natAbs_natCast, decInt_natCast]

/-! ### The fixed text (43_mif.md R153 to R155, R158) -/

theorem mifHeader_eq (cm : List Byte) :
    mifHeader cm = [0x2D, 0x2D, 0x20] ++ cm ++ [0x0A, 0x0A] :=
  List.append_assoc _ newline newline

/-- Settles O33: the characters are ASCII, so each byte is a code. -/
theorem mifFixedText : Obligations.MifFixedText := by
  refine ⟨mifHeader_eq, fun d w => ?_, rfl, rfl⟩
  rw [decInt_natCast, decInt_natCast]
  simp [mifDeclarations, ascii, asciiByte, newline]

/-! ### The data lines (43_mif.md R156, R157, R159) -/

theorem mifTrail_eq (sine : Bool) (v : Int) :
    mifTrail sine v =
      if sine then
        [0x20, 0x20, 0x20, 0x20, 0x20, 0x20, 0x20, 0x2D, 0x2D, 0x20] ++ decInt v
      else [] := rfl

theorem mifLine_eq (w : Nat) (sine : Bool) (v : Int) (a : Nat) :
    mifLine w sine v a =
      decInt a ++ [0x20, 0x3A, 0x20] ++ intToBinary v w ++ [0x3B] ++ mifTrail sine v ++ [0x0A] := by
  rw [decInt_natCast]
  rfl

/-- The lines from address a on, one for each element. -/
theorem mifLines_eq_flatMap (w : Nat) (sine : Bool) (a : Nat) (seq : List Int) :
    mifLines w sine a seq =
      (List.range seq.length).flatMap fun i => mifLine w sine (seq.getD i 0) (a + i) := by
  induction seq generalizing a with
  | nil => rfl
  | cons v seq ih =>
    rw [mifLines, ih, List.length_cons, List.range_succ_eq_map, List.flatMap_cons, List.flatMap_map]
    simp only [Nat.add_right_comm a 1, Nat.add_assoc a]
    rfl

/-- Settles O34, by the lines as a list over the addresses. -/
theorem mifDataLines : Obligations.MifDataLines := by
  intro seq w sine
  rw [mifLines_eq_flatMap]
  refine List.flatMap_congr fun a _ => ?_
  rw [Nat.zero_add, mifLine_eq, mifTrail_eq]

theorem newline_not_mem_decNat (n : Nat) : 0x0A ∉ decNat n := fun h =>
  absurd (mem_decNat h).1 (by decide)

theorem newline_not_mem_decInt (v : Int) : 0x0A ∉ decInt v := by
  obtain hv | hv := lt_or_ge v 0
  · rw [decInt_of_neg hv, List.mem_cons, not_or]
    exact ⟨by decide, newline_not_mem_decNat _⟩
  · rw [Int.eq_natAbs_of_nonneg hv, decInt_natCast]
    exact newline_not_mem_decNat _

theorem newline_not_mem_intToBinary (v : Int) (w : Nat) : 0x0A ∉ intToBinary v w := fun h =>
  absurd (mem_intToBinary h) (by decide)

theorem newline_not_mem_mifTrail (sine : Bool) (v : Int) : 0x0A ∉ mifTrail sine v := by
  cases sine with
  | false => exact List.not_mem_nil
  | true =>
    rw [mifTrail_eq, if_pos rfl, List.mem_append, not_or]
    exact ⟨by decide, newline_not_mem_decInt v⟩

/-- A data line holds one line end, its last byte. -/
theorem count_newline_mifLine (w : Nat) (sine : Bool) (v : Int) (a : Nat) :
    (mifLine w sine v a).count 0x0A = 1 := by
  rw [mifLine_eq]
  simp only [List.count_append, List.count_eq_zero_of_not_mem (newline_not_mem_decInt a),
    List.count_eq_zero_of_not_mem (newline_not_mem_intToBinary v w),
    List.count_eq_zero_of_not_mem (newline_not_mem_mifTrail sine v)]
  rfl

theorem count_newline_mifLines (w : Nat) (sine : Bool) (a : Nat) (seq : List Int) :
    (mifLines w sine a seq).count 0x0A = seq.length := by
  induction seq generalizing a with
  | nil => rfl
  | cons v seq ih =>
    rw [mifLines, List.count_append, count_newline_mifLine, ih, List.length_cons, Nat.add_comm]

/-- Settles O35: every data line ends one line. -/
theorem depthCountsTheLines : Obligations.DepthCountsTheLines := fun seq w sine _ =>
  ⟨rfl, count_newline_mifLines w sine 0 seq⟩

/-! ### The length of the document (43_mif.md R162) -/

theorem mifTrail_length (sine : Bool) (v : Int) :
    (mifTrail sine v).length = if sine then 10 + (decInt v).length else 0 := by
  rw [mifTrail_eq, apply_ite List.length, List.length_append]
  rfl

theorem mifLine_length (w : Nat) (sine : Bool) (v : Int) (a : Nat) :
    (mifLine w sine v a).length =
      (decInt a).length + w + 5 + if sine then 10 + (decInt v).length else 0 := by
  rw [mifLine_eq]
  simp only [List.length_append, List.length_cons, List.length_nil, intToBinary_length,
    mifTrail_length]
  omega

theorem mifLines_length (w : Nat) (sine : Bool) (seq : List Int) :
    (mifLines w sine 0 seq).length =
      ((List.range seq.length).map fun (a : Nat) =>
        (decInt a).length + w + 5 +
          if sine then 10 + (decInt (seq.getD a 0)).length else 0).sum := by
  simp only [mifLines_eq_flatMap, List.length_flatMap, mifLine_length, Nat.zero_add]

/-- Settles O36, by the lengths of the document's parts. -/
theorem mifDocumentLength : Obligations.MifDocumentLength := by
  intro seq w sine cm
  obtain ⟨-, hdecl, hopen, hterm⟩ := mifFixedText
  rw [mifDocument, mifHeader_eq, hdecl, hopen, hterm]
  simp only [List.length_append, List.length_cons, List.length_nil, mifLines_length]
  omega

/-! ### CLEAR_CM (43_mif.md R161) -/

theorem mifDocument_startsWith_mifHeader (seq : List Int) (w : Nat) (sine : Bool) (cm : List Byte) :
    mifHeader cm <+: mifDocument seq w sine cm := by
  simp only [mifDocument, List.append_assoc]
  exact ⟨_, rfl⟩

/-- Settles O12: CLEAR_CM succeeds in the state with CM emptied, and the five bytes are the
header of an empty comment. -/
theorem clearCmEmptiesComment : Obligations.ClearCmEmptiesComment :=
  ⟨decode_encode (i := .clearCm) rfl, fun s => finish_ok s s.emptyCm,
    fun seq w sine => mifDocument_startsWith_mifHeader seq w sine []⟩

end Sys2Proof.Machine
end

section
/-! The commands of 44_control.md: NOP, EMIT by its checks, SOFT_RESET, the reserved command, and the
engine step that runs the pending word. -/

namespace Sys2Proof.Machine

/-! ### SOFT_RESET (44_control.md R184) -/

/-- STATUS is built of fields that R53 resets, and of no other. -/
theorem statusWord_toReset (s : State) : s.toReset.statusWord = State.reset.statusWord := rfl

theorem ctrlWord_toReset (s : State) : s.toReset.ctrlWord = State.reset.ctrlWord := rfl

/-- An error sets STICKY and a success keeps it, unless the command resets the block. -/
theorem CommandResult.sticky_kept {i : Instr} {s t : State} (hr : CommandResult i s t) :
    (s.sticky = true → t.sticky = true) ∨ i = .softReset := by
  cases hr
  case error => exact .inl fun _ => rfl
  case softReset h => exact .inr h
  all_goals exact .inl id

/-- Settles O13: SOFT_RESET succeeds in the reset state, whose STATUS and CTRL are those of R53, and
every other command keeps STICKY or sets it. -/
theorem softResetRestoresResetValues : Obligations.SoftResetRestoresResetValues := by
  obtain ⟨hctrl, -, -, -, -, -, hstatus, -⟩ := resetValues
  refine ⟨decode_encode (i := .softReset) rfl, fun s => ?_, fun i s t hexec hset hclear => ?_⟩
  · exact ⟨s.toReset.succeed, finish_ok s s.toReset, (statusWord_toReset s).trans hstatus,
      (ctrlWord_toReset s).trans hctrl, rfl⟩
  · refine (exec_next hexec).sticky_kept.resolve_left fun hkept => ?_
    exact Bool.false_ne_true (hclear.symm.trans (hkept hset))

/-! ### EMIT (44_control.md R183) -/

/-- Where every check passes, EMIT stores the document. -/
theorem exec_emit_of_checks {s : State} (hv : s.seqValid = true)
    (ho : s.mif = true → s.cmOvf = false) (hc : s.document.length ≤ s.outCapR.toNat) :
    exec .emit s = .next (s.storeOut s.document).succeed := by
  have hcm : ¬ (s.mif && s.cmOvf) = true := by simpa using ho
  have hok : emit s = .ok (s.storeOut s.document) := by
    rw [emit, if_neg (by rw [hv]; decide), if_neg hcm, if_neg (Nat.not_lt.mpr hc)]
  rw [exec, execEmit, hok, finish_ok]

/-- Settles O18: the document is the one CTRL.MIF selects, and the checks before it is stored pass. -/
theorem emitReplacesOut : Obligations.EmitReplacesOut := by
  intro s doc hv hdoc ho hc
  obtain rfl : doc = s.document := hdoc
  exact exec_emit_of_checks hv ho hc

/-! ### The engine step (44_control.md R180) -/

theorem step_engine {s : State} {c : Word} (h : s.pend = some c)
    (hw : s.wait = 0 ∨ s.inputs = []) : step s = engineStep s c := by
  rw [step, oneStep, turn_engine h hw]

/-- Settles O5, by the outcome of the command: a next state is retired, any other outcome is passed
on. -/
theorem stepRunsDecodedCommand : Obligations.StepRunsDecodedCommand := by
  intro s c hpend hdue
  rw [step_engine hpend hdue, engineStep]
  cases exec (decode c) s with
  | next t => rfl
  | fault r => rfl
  | refused r => rfl

/-! ### NOP and the reserved command (44_control.md R182, R186) -/

/-- Settles O10: NOP succeeds in the state it started from. -/
theorem nopClearsErr : Obligations.NopClearsErr :=
  ⟨decode_encode (i := .nop) rfl, fun s => finish_ok s s⟩

theorem decode_eq_reserved_iff (w : Word) : decode w = .reserved w ↔ 6 < w.toNat := by
  refine ⟨fun h => ?_, decode_of_six_lt⟩
  have hwf : (Instr.reserved w).wf = true := h ▸ decode_wf w
  exact of_decide_eq_true hwf

/-- Settles O14: what decodes to the reserved command is well formed, so its word is above the seven
command words. -/
theorem reservedFailsWithBadCmd : Obligations.ReservedFailsWithBadCmd :=
  ⟨fun w => (decode_eq_reserved_iff w).symm, exec_reserved⟩

end Sys2Proof.Machine
end

section
/-! The command errors of 60_exceptions.md: how a command ends, that an error changes ERR and STICKY
alone, and the first check that fails as the code a command reports. -/

namespace Sys2Proof.Machine

/-! ### How a command ends (60_exceptions.md R210, R211) -/

/-- A command enters an error, or ends with E_NONE and the STICKY it found, unless it resets it. -/
theorem CommandResult.raised_or_clean {i : Instr} {s t : State} (hr : CommandResult i s t) :
    (∃ c, c ≠ .none ∧ t = s.raiseError c) ∨
      (t.err = .none ∧ t.sticky = if i = .softReset then false else s.sticky) := by
  cases hr
  case error c hc => exact .inl ⟨c, hc, rfl⟩
  case softReset hi => exact .inr ⟨rfl, (if_pos hi).symm⟩
  all_goals subst i; exact .inr ⟨rfl, rfl⟩

/-- Settles O7: each end that `CommandResult` lists is an error or a clean end. -/
theorem successKeepsSticky : Obligations.SuccessKeepsSticky := fun i s =>
  have ⟨t, hexec, hr⟩ := exec_result i s
  ⟨t, hexec, hr.raised_or_clean⟩

/-- A command that ends with an error code has entered that error. -/
theorem exists_raiseError_of_err_ne_none {i : Instr} {s t : State} (hexec : exec i s = .next t)
    (herr : t.err ≠ .none) : ∃ c, t = s.raiseError c := by
  obtain ⟨c, -, hraise⟩ | ⟨hnone, -⟩ := (exec_next hexec).raised_or_clean
  · exact ⟨c, hraise⟩
  · exact absurd hnone herr

theorem engineStep_of_exec {s t : State} {c : Word} (h : exec (decode c) s = .next t) :
    engineStep s c = .next t.retire := by
  rw [engineStep, h]

theorem busy_retire (s : State) : s.retire.busy = false := rfl

/-- Settles O6: the command has entered the error, and the engine step retires that state. -/
theorem errorsArePrecise : Obligations.ErrorsArePrecise := by
  intro i s t hexec herr
  obtain ⟨c, rfl⟩ := exists_raiseError_of_err_ne_none hexec herr
  refine ⟨rfl, ?_⟩
  rintro w rfl
  exact ⟨engineStep_of_exec hexec, (busyBit_statusWord _).trans (busy_retire (s.raiseError c))⟩

/-! ### The code of the first check that fails (60_exceptions.md R212) -/

/-- The code that a command with this outcome leaves in ERR. -/
def reportedCode : Except ErrCode State → ErrCode
  | .ok _ => .none
  | .error c => c

theorem finish_reports (s : State) (o : Except ErrCode State) :
    ∃ t, finish s o = .next t ∧ t.err = reportedCode o := by
  cases o with
  | ok u => exact ⟨u.succeed, finish_ok s u, rfl⟩
  | error c => exact ⟨s.raiseError c, finish_error s c, rfl⟩

/-- One check of a chain: it reports its own code where it fails, and what follows it elsewhere. -/
theorem reportedCode_check {p q : Prop} [Decidable p] [Decidable q] {c d : ErrCode}
    {x : Except ErrCode State} (hpq : p ↔ q) (hx : reportedCode x = d) :
    reportedCode (if p then .error c else x) = if q then c else d := by
  rw [apply_ite reportedCode, hx]
  exact if_congr hpq rfl rfl

theorem not_widthLegal_iff (w : BitVec 6) :
    (!widthLegal w) = true ↔ ¬ (1 ≤ w.toNat ∧ w.toNat ≤ 32) := by
  rw [Bool.not_eq_true', ← Bool.not_eq_true, widthLegal_iff]

/-- The samples fail exactly where some index does (40_quantizer.md R105). -/
theorem isNone_samplesUpTo (r : Nat → Option Int) (n : Nat) :
    (samplesUpTo r n).isNone = (List.range n).any fun i => (r i).isNone := by
  induction n with
  | zero => rfl
  | succ n ih =>
    rw [samplesUpTo, List.range_succ, List.any_append, ← ih, List.any_cons, List.any_nil,
      Bool.or_false]
    cases samplesUpTo r n <;> cases r n <;> rfl

theorem reportedCode_genSine (s : State) : reportedCode (genSine s) =
    if ¬ (1 ≤ s.width.toNat ∧ s.width.toNat ≤ 32) then .width
    else if s.lengthReg = 0 then .length
    else if s.lengthReg.toNat > s.seqCapR.toNat then .capacity
    else if s.sineSamples.isNone then .range
    else .none := by
  refine reportedCode_check (not_widthLegal_iff _)
    (reportedCode_check .rfl (reportedCode_check .rfl ?_))
  cases s.sineSamples with
  | none => rfl
  | some r => rfl

theorem reportedCode_packData (s : State) : reportedCode (packData s) =
    if ¬ (1 ≤ s.width.toNat ∧ s.width.toNat ≤ 32) then .width
    else if s.inOvf then .capacity
    else if s.inBuf.length % wordBytes s.width.toNat ≠ 0 then .mismatch
    else if s.inBuf.length / wordBytes s.width.toNat > s.seqCapR.toNat then .capacity
    else .none :=
  reportedCode_check (not_widthLegal_iff _)
    (reportedCode_check .rfl (reportedCode_check .rfl (reportedCode_check .rfl rfl)))

theorem reportedCode_emit (s : State) : reportedCode (emit s) =
    if s.seqValid = false then .noSeq
    else if s.mif ∧ s.cmOvf then .capacity
    else if s.document.length > s.outCapR.toNat then .capacity
    else .none :=
  reportedCode_check (by rw [Bool.not_eq_true'])
    (reportedCode_check (by rw [Bool.and_eq_true]) (reportedCode_check .rfl rfl))

/-- Settles O8, by the chain of checks of each command; the four that check nothing succeed. -/
theorem firstFailingCheckIsReported : Obligations.FirstFailingCheckIsReported := by
  intro s
  refine ⟨fun w => finish_reports s (.error .badCmd), ?_, ?_, ?_, ?_⟩
  · obtain ⟨t, hexec, herr⟩ := finish_reports s (genSine s)
    refine ⟨t, hexec, ?_⟩
    rw [herr, reportedCode_genSine, State.sineSamples, isNone_samplesUpTo]
    rfl
  · rw [← reportedCode_packData]
    exact finish_reports s (packData s)
  · obtain ⟨t, hexec, herr⟩ := finish_reports s (emit s)
    exact ⟨t, hexec, herr.trans (reportedCode_emit s)⟩
  · simp only [List.forall_mem_cons]
    exact ⟨finish_reports s (.ok s), finish_reports s (.ok s.emptyIn),
      finish_reports s (.ok s.emptyCm), finish_reports s (.ok s.toReset), nofun⟩

end Sys2Proof.Machine
end

section
/-! Hardware reset and the hazards of 70_reset_and_hazards.md: the `poll` loop while a command is
pending, the command itself, the last read that ends the loop, and hardware reset. -/

namespace Sys2Proof.Machine

/-! ### One read of the `poll` loop (30_encoding.md R87) -/

/-- `poll` reads STATUS and records it; it is done, and the host's waiting with it, when the read
shows BUSY = 0 (70_reset_and_hazards.md R235). -/
theorem doInput_poll {s : State} (hb : s.base % 0x100 = 0) :
    doInput s .poll = .next (if s.busy then s.noteRead (s.base + 0x18) s.statusWord
      else (s.seeIdle.noteRead (s.base + 0x18) s.statusWord).dropInput) := by
  have hread : doInput s .poll = .next (if busyBit s.statusWord
      then s.observe (s.base + 0x18) s.statusWord
      else (s.observe (s.base + 0x18) s.statusWord).dropInput) := by
    rw [doInput, readInput, regOffset, memRead_status hb]
  rw [hread, State.observe, busyBit_statusWord]
  cases s.busy with
  | true => simp
  | false => simp [regOffset]

section Poll

variable {s : State} {c : Word} {rest : List Input}

/-- While a command is pending, `poll` stays the next input. -/
theorem step_poll_pending (hb : s.base % 0x100 = 0) (hp : s.pend = some c) (hw : s.wait ≠ 0)
    (hin : s.inputs = .poll :: rest) :
    step s = .next (s.countDown.noteRead (s.base + 0x18) s.statusWord) := by
  have hbusy : s.busy = true := by simp [State.busy, hp]
  have hcount : s.countDown.busy = true := hbusy
  rw [step_outside hin (.inr hw), inputStep, hbusy, if_pos rfl,
    doInput_poll (s := s.countDown) hb, hcount]
  rfl

/-- With nothing pending, `poll` is done after one read. -/
theorem step_poll_idle (hb : s.base % 0x100 = 0) (hp : s.pend = none)
    (hin : s.inputs = .poll :: rest) :
    step s = .next (s.seeIdle.noteRead (s.base + 0x18) s.statusWord).dropInput := by
  have hidle : s.busy = false := by simp [State.busy, hp]
  rw [step_outside hin (.inl hp), inputStep, hidle, if_neg Bool.false_ne_true,
    doInput_poll hb, hidle]
  rfl

end Poll

/-! ### The polls before the engine step (70_reset_and_hazards.md R242) -/

/-- The state in which the engine step is due, when every input before it is a read of `poll`. -/
def State.polled (s : State) : State :=
  { s with
    wait := 0
    reads := s.reads ++ List.replicate s.wait (s.base + 0x18, s.statusWord) }

/-- The reads that `poll` makes before the engine step, by induction on how many the schedule lets
pass: each counts one down, records one value, and changes nothing else. -/
theorem stepsFrom_polled {w : Nat} {s : State} {c : Word} {rest : List Input}
    (hb : s.base % 0x100 = 0) (hp : s.pend = some c) (hin : s.inputs = .poll :: rest)
    (hw : s.wait = w) (n : Nat) : stepsFrom (w + n) s = stepsFrom n s.polled := by
  induction w generalizing s with
  | zero =>
    have hdue : s.polled = s := by
      rw [State.polled, hw, List.replicate_zero, List.append_nil, ← hw]
    rw [Nat.zero_add, hdue]
  | succ w ih =>
    have hread : (s.countDown.noteRead (s.base + 0x18) s.statusWord).polled = s.polled := by
      simp only [State.polled, State.countDown, State.noteRead, hw, List.replicate_succ,
        Nat.add_sub_cancel, List.append_assoc, List.singleton_append]
      rfl
    rw [Nat.add_right_comm, stepsFrom, step_poll_pending hb hp (by omega) hin, ← hread]
    exact ih hb hp hin (by simp [State.countDown, State.noteRead, hw])

/-! ### The engine step and the last read -/

/-- What the engine step and the read of `poll` after it leave of a command's end state. -/
def State.pollDone (s : State) : State :=
  (s.retire.seeIdle.noteRead (s.base + 0x18) s.retire.statusWord).dropInput

theorem CommandResult.host_kept {i : Instr} {s t : State} (hr : CommandResult i s t) :
    t.base = s.base ∧ t.inputs = s.inputs := by
  cases hr <;> exact ⟨rfl, rfl⟩

/-- The whole of `poll` with a command pending (70_reset_and_hazards.md R242): the reads the
schedule lets pass, the engine step, the last read. -/
theorem stepsFrom_poll {s t : State} {c : Word} {rest : List Input} (hb : s.base % 0x100 = 0)
    (hp : s.pend = some c) (hin : s.inputs = .poll :: rest)
    (hexec : exec (decode c) s.polled = .next t) :
    stepsFrom (s.wait + 2) s = some t.pollDone ∧ t.pollDone.inputs = rest := by
  obtain ⟨hbase, hinputs⟩ := (exec_next hexec).host_kept
  have hbase' : t.retire.base % 0x100 = 0 := (congrArg (· % 0x100) hbase).trans hb
  have hinputs' : t.retire.inputs = .poll :: rest := hinputs.trans hin
  have hengine : step s.polled = .next t.retire :=
    (step_engine (s := s.polled) hp (.inl rfl)).trans (engineStep_of_exec hexec)
  have hlast : step t.retire = .next t.pollDone := step_poll_idle hbase' rfl hinputs'
  constructor
  · rw [stepsFrom_polled hb hp hin rfl 2, stepsFrom, hengine]
    simp only [stepsFrom, hlast]
  · exact congrArg List.tail hinputs'

/-- Settles O50: the pending command has an end state, and the loop ends after it. -/
theorem pollEnds : Obligations.PollEnds := by
  intro s c rest hb hp hin
  obtain ⟨t, hexec, -⟩ := exec_result (decode c) s.polled
  obtain ⟨hsteps, hrest⟩ := stepsFrom_poll hb hp hin hexec
  exact ⟨t.pollDone, hsteps, rfl, rfl, hrest⟩

/-! ### No command depends on what the host has read -/

/-- The same state with another record of reads. -/
def State.withReads (s : State) (reads : List (Nat × Word)) : State := { s with reads := reads }

section Reads

variable (s : State) (reads : List (Nat × Word))

/-- Commands whose outcomes agree but for the record of reads end so, in an error too. -/
theorem OutcomesAgree.finish_withReads {x y : Except ErrCode State}
    (h : OutcomesAgree (fun t v => v = t.withReads reads) x y) :
    ∃ t, finish s x = .next t ∧ finish (s.withReads reads) y = .next (t.withReads reads) := by
  cases h with
  | error => exact ⟨_, rfl, rfl⟩
  | ok hv => exact ⟨_, rfl, by rw [hv]; rfl⟩

theorem genSine_withReads :
    OutcomesAgree (fun t v => v = t.withReads reads) (genSine s) (genSine (s.withReads reads)) := by
  have hsamples : (s.withReads reads).sineSamples = s.sineSamples := rfl
  rw [genSine, genSine, hsamples]
  refine .check (by decide) (.check (by decide) (.check (by decide) ?_))
  cases s.sineSamples with
  | none => exact .error (by decide)
  | some r => exact .ok rfl

theorem packData_withReads :
    OutcomesAgree (fun t v => v = t.withReads reads) (packData s)
      (packData (s.withReads reads)) :=
  .check (by decide) (.check (by decide) (.check (by decide) (.check (by decide) (.ok rfl))))

theorem emit_withReads :
    OutcomesAgree (fun t v => v = t.withReads reads) (emit s) (emit (s.withReads reads)) :=
  .check (by decide) (.check (by decide) (.check (by decide) (.ok rfl)))

/-- A command ends alike whatever the host has read before (log 8). -/
theorem exec_withReads (i : Instr) :
    ∃ t, exec i s = .next t ∧ exec i (s.withReads reads) = .next (t.withReads reads) := by
  cases i with
  | genSine => exact (genSine_withReads s reads).finish_withReads s reads
  | packData => exact (packData_withReads s reads).finish_withReads s reads
  | emit => exact (emit_withReads s reads).finish_withReads s reads
  | nop | clearIn | clearCm | softReset | reserved => exact ⟨_, rfl, rfl⟩

end Reads

/-! ### `run` (30_encoding.md R87) -/

/-- The state after the CMD write of `run`, when `k` more inputs come before the engine step. -/
def State.issued (s : State) (c : Word) (k : Nat) (l : List Nat) : State :=
  (State.issue { s with latency := k :: l } c).dropInput

/-- The latency is spent when the engine step is due: only the recorded reads show it. -/
theorem polled_issued (s : State) (c : Word) (l : List Nat) (m n : Nat) :
    (s.issued c m l).polled = (s.issued c n l).polled.withReads (s.issued c m l).polled.reads :=
  rfl

/-- `run` with latency `k`: the CMD write, then the whole of `poll`. -/
theorem State.Accessible.stepsFrom_run {s t : State} (h : s.Accessible) {c : Word} {k : Nat}
    {l : List Nat} {rest : List Input} (hin : s.inputs = run s.base c ++ rest)
    (hexec : exec (decode c) (s.issued c k l).polled = .next t) :
    stepsFrom (k + 3) { s with latency := k :: l } = some t.pollDone ∧
      t.pollDone.inputs = rest := by
  have haccess : State.Accessible { s with latency := k :: l } :=
    ⟨h.base_aligned, h.pend_none, h.not_awaiting⟩
  have hwrite : step { s with latency := k :: l } = .next (s.issued c k l) := haccess.step_wr hin
  have hleft : (s.issued c k l).inputs = .poll :: rest := congrArg List.tail hin
  rw [stepsFrom, hwrite]
  exact stepsFrom_poll (s := s.issued c k l) h.base_aligned rfl hleft hexec

/-- Settles O51: the engine steps start from states that differ in the recorded reads alone, and no
command depends on those. -/
theorem runDoesNotDependOnLatency : Obligations.RunDoesNotDependOnLatency := by
  intro s c m n l rest hb hp ha hin
  have h : s.Accessible := ⟨hb, hp, ha⟩
  obtain ⟨v, hn, hm⟩ :=
    exec_withReads (s.issued c n l).polled (s.issued c m l).polled.reads (decode c)
  rw [← polled_issued] at hm
  obtain ⟨hstepsm, hrest⟩ := h.stepsFrom_run hin hm
  obtain ⟨hstepsn, -⟩ := h.stepsFrom_run hin hn
  exact ⟨_, _, hstepsm, hstepsn, rfl, rfl, hrest, rfl⟩

/-! ### Hardware reset (70_reset_and_hazards.md R230, R231) -/

/-- A hardware reset always takes place; of a pending command only the schedule's count shows that
there was one. -/
theorem step_hardReset {s : State} {rest : List Input} (hin : s.inputs = .hardReset :: rest)
    (hw : s.pend = none ∨ s.wait ≠ 0) :
    ∃ w, step s = .next { s.hardReset with inputs := rest, wait := w } := by
  have hrest : s.inputs.tail = rest := congrArg List.tail hin
  rw [step_outside hin hw, inputStep, ← hrest]
  cases s.busy with
  | true => exact ⟨s.wait - 1, rfl⟩
  | false => exact ⟨s.wait, rfl⟩

/-- Settles O52: PEND is among the entries that a reset gives their values. -/
theorem hardResetDropsThePendingCommand : Obligations.HardResetDropsThePendingCommand := by
  intro s rest hin hw
  obtain ⟨w, hstep⟩ := step_hardReset hin hw
  exact ⟨_, hstep, rfl, rfl, rfl⟩

end Sys2Proof.Machine
end
